-- ==== Sys2Proof/Word.lean ====
section
/-! DEFINITION. Sys2Proof/Word.lean: the word types of the bus and of the number formats
(`20_memory.md` rules R60 and R62, `00_scope.md` rule R8). -/

namespace Sys2Proof

/-- One 32-bit data word, "exactly one whole 32-bit word" (`20_memory.md` R62). An `f32` is such a word,
read as IEEE 754 binary32 (`00_scope.md` R8). -/
abbrev Word := BitVec 32

/-- One 64-bit pattern: the `f64` sample rate (`00_scope.md` R8, `10_state.md` R27). -/
abbrev DWord := BitVec 64

/-- A 24-bit word address of the host bus (`20_memory.md` R60, R61). -/
abbrev Addr := BitVec 24

end Sys2Proof
end

