-- ==== Sys2Proof/Config.lean ====
section
/-! DEFINITION. Sys2Proof/Config.lean: what one implementation fixes (the OPEN parameters of `00_scope.md`
rule R5) and the free values the spec leaves open (`20_memory.md` rule R68). -/

namespace Sys2Proof.Config

/-- `RMIN`, the least table resolution (`00_scope.md` R5). -/
abbrev rMin : Nat := 2

/-- `RMAX`, the greatest table resolution (`00_scope.md` R5). -/
abbrev rMax : Nat := 4096

/-- The three OPEN parameters of `00_scope.md` R5: `cap` is `C`, the number of cursor slots; `lmax` is `LMAX`,
the depth of the source RAM; `bmax` is `BMAX`, the depth of the sample-buffer RAM. -/
structure Params where
  cap : Nat
  lmax : Nat
  bmax : Nat
deriving DecidableEq, Repr

/-- `C − 1`, left open: `00_scope.md` R5 bounds `C` by `1 ≤ C ≤ 65535` and fixes no value. DESIGN CHOICE (log 6). -/
opaque capacityIndex : Fin 65535

/-- `LMAX − 1`, left open: `00_scope.md` R5 bounds `LMAX` by `1 ≤ LMAX ≤ 2^20`. DESIGN CHOICE (log 6). -/
opaque sourceDepthIndex : Fin 1048576

/-- `BMAX − 1`, left open: `00_scope.md` R5 bounds `BMAX` by `1 ≤ BMAX ≤ 2^20`. DESIGN CHOICE (log 6). -/
opaque bufferDepthIndex : Fin 1048576

/-- The parameters of the machine that `State.reset` starts: open, within the bounds of `00_scope.md` R5. -/
def params : Params where
  cap := capacityIndex.val + 1
  lmax := sourceDepthIndex.val + 1
  bmax := bufferDepthIndex.val + 1

/-- FREE VALUE (log 5): `powerOnWord e a` is the word at bus address `a` that nothing has written since the `e`-th
hardware reset. The spec gives it no value: "a fault of the model (or a free draw), never zero"
(`20_memory.md` R68, `93_implementation_defined.md` U2). It depends on the address, so that two reads of one
unwritten word agree (`20_memory.md` R65). -/
opaque powerOnWord : Nat → Nat → Word

end Sys2Proof.Config
end

