-- ==== Sys2Proof/Syntax.lean ====
section
/-! DEFINITION. Sys2Proof/Syntax.lean: the commands, one constructor per row of `spec/opcode_table.json`
(`30_encoding.md` rule R92). No command word carries an operand (rule R90), so no constructor has a field. -/

namespace Sys2Proof

/-- The 18 commands of `30_encoding.md` R92, in the order of its table. -/
inductive Instr where
  /-- `NOP`, `44_system.md` R190. -/
  | nop
  /-- `RESET`, `44_system.md` R191. -/
  | reset
  /-- `CLR_ERR`, `44_system.md` R192. -/
  | clrErr
  /-- `SET_PARAMS`, `40_config_tables.md` R116. -/
  | setParams
  /-- `SET_ATTACK`, `40_config_tables.md` R117. -/
  | setAttack
  /-- `SET_DECAY`, `40_config_tables.md` R118. -/
  | setDecay
  /-- `SET_SUSTAIN`, `40_config_tables.md` R119. -/
  | setSustain
  /-- `SET_RELEASE`, `40_config_tables.md` R120. -/
  | setRelease
  /-- `SET_SAMPLE_RATE`, `40_config_tables.md` R121. -/
  | setSampleRate
  /-- `LOAD_SOURCE`, `42_grain.md` R161. -/
  | loadSource
  /-- `SET_FREQ`, `42_grain.md` R162. -/
  | setFreq
  /-- `NOTE_ON`, `41_envelope.md` R136. -/
  | noteOn
  /-- `NOTE_OFF`, `41_envelope.md` R137. -/
  | noteOff
  /-- `ENV_TICK`, `41_envelope.md` R138. -/
  | envTick
  /-- `GR_TICK`, `42_grain.md` R164. -/
  | grTick
  /-- `VOICE_TICK`, `43_voice.md` R181. -/
  | voiceTick
  /-- `ENV_APPLY`, `41_envelope.md` R139. -/
  | envApply
  /-- `VOICE_FILL`, `43_voice.md` R182. -/
  | voiceFill
deriving DecidableEq, Repr

end Sys2Proof
end

