-- ==== Sys2Proof/WellFormed.lean ====
section
/-! DEFINITION. Sys2Proof/WellFormed.lean: the checks on data the types do not make: the bounds of the OPEN
parameters (`00_scope.md` rule R5) and the reserved bits of a command word (`30_encoding.md` rule R90). -/

namespace Sys2Proof

/-- Every command is well formed: its word is wholly fixed and it carries no operand (`30_encoding.md` R90, R92). -/
def Instr.wellFormed : Instr → Bool
  | .nop => true
  | .reset => true
  | .clrErr => true
  | .setParams => true
  | .setAttack => true
  | .setDecay => true
  | .setSustain => true
  | .setRelease => true
  | .setSampleRate => true
  | .loadSource => true
  | .setFreq => true
  | .noteOn => true
  | .noteOff => true
  | .envTick => true
  | .grTick => true
  | .voiceTick => true
  | .envApply => true
  | .voiceFill => true

/-- "Bits 31:8 are reserved and must be zero" (`30_encoding.md` R90). -/
def commandWordWellFormed (w : Word) : Bool :=
  w.toNat / 256 == 0

/-- The bounds of the OPEN parameters: `1 ≤ C ≤ 65535`, `1 ≤ LMAX ≤ 2^20`, `1 ≤ BMAX ≤ 2^20` (`00_scope.md` R5). -/
def Config.Params.wellFormed (p : Config.Params) : Bool :=
  (1 ≤ p.cap && p.cap ≤ 65535) && (1 ≤ p.lmax && p.lmax ≤ 2 ^ 20) && (1 ≤ p.bmax && p.bmax ≤ 2 ^ 20)

end Sys2Proof
end

