-- ==== Sys2Proof/Decode.lean ====
section
/-! DEFINITION. Sys2Proof/Decode.lean: command words to commands and back (`30_encoding.md` rules R90 to R95). -/

namespace Sys2Proof

/-- Why a command word is illegal (`30_encoding.md` R93). Both reasons are the same rejection, `E_CMD`. -/
inductive DecodeError where
  /-- Some bit of 31:8 is not zero. -/
  | reservedBitsSet
  /-- Bits 31:8 are zero and the opcode is not one of the 18 listed. -/
  | opcodeNotListed
deriving DecidableEq, Repr

/-- Bits 7:0 of a command word (`30_encoding.md` R90). -/
def opcodeField (w : Word) : BitVec 8 :=
  w.extractLsb' 0 8

/-- The opcode map of `30_encoding.md` R92, read from opcode to command. -/
def commandOfOpcode (op : BitVec 8) : Option Instr :=
  match op.toNat with
  | 0x00 => some .nop
  | 0x01 => some .reset
  | 0x02 => some .clrErr
  | 0x10 => some .setParams
  | 0x11 => some .setAttack
  | 0x12 => some .setDecay
  | 0x13 => some .setSustain
  | 0x14 => some .setRelease
  | 0x15 => some .setSampleRate
  | 0x18 => some .loadSource
  | 0x19 => some .setFreq
  | 0x20 => some .noteOn
  | 0x21 => some .noteOff
  | 0x30 => some .envTick
  | 0x31 => some .grTick
  | 0x32 => some .voiceTick
  | 0x38 => some .envApply
  | 0x39 => some .voiceFill
  | _ => none

/-- The decoder, total on every 32-bit word; every word outside `30_encoding.md` R92 is refused by name (R93). -/
def decode (w : Word) : Except DecodeError Instr :=
  if commandWordWellFormed w then
    match commandOfOpcode (opcodeField w) with
    | some i => .ok i
    | none => .error .opcodeNotListed
  else .error .reservedBitsSet

/-- The command word of each command, the `match` column of `30_encoding.md` R92. -/
def encode : Instr → Word
  | .nop => 0x00000000#32
  | .reset => 0x00000001#32
  | .clrErr => 0x00000002#32
  | .setParams => 0x00000010#32
  | .setAttack => 0x00000011#32
  | .setDecay => 0x00000012#32
  | .setSustain => 0x00000013#32
  | .setRelease => 0x00000014#32
  | .setSampleRate => 0x00000015#32
  | .loadSource => 0x00000018#32
  | .setFreq => 0x00000019#32
  | .noteOn => 0x00000020#32
  | .noteOff => 0x00000021#32
  | .envTick => 0x00000030#32
  | .grTick => 0x00000031#32
  | .voiceTick => 0x00000032#32
  | .envApply => 0x00000038#32
  | .voiceFill => 0x00000039#32

/-- The command word made of the low `nbits` bits of `w`, the bits above them zero. -/
def tableWord (nbits w : Nat) : Word :=
  BitVec.ofNat 32 (w % 2 ^ nbits)

/-- The command the decoder reads from the opcode-table word `w` of `nbits` bits; none where it refuses. A command is
one whole word and no byte order exists (`20_memory.md` R62), so the table's bit numbering is the word's. -/
def decodeTableWord (nbits w : Nat) : Option Instr :=
  match decode (tableWord nbits w) with
  | .ok i => some i
  | .error _ => none

end Sys2Proof
end

