-- ==== Sys2Proof/Machine/State.lean ====
section
/-! DEFINITION. Sys2Proof/Machine/State.lean: everything the spec gives the machine, as plain data, and the state
after reset (`10_state.md`; `70_reset_and_hazards.md` rule R231). -/

namespace Sys2Proof.Machine

/-- The three tabulated segments `A`, `D`, `Rl` (`00_scope.md` section 7, `41_envelope.md` R130). -/
inductive Segment where
  | attack
  | decay
  | release
deriving DecidableEq, Repr

/-- The five envelope stages (`10_state.md` R31). -/
inductive Stage where
  | idle
  | attack
  | decay
  | sustain
  | release
deriving DecidableEq, Repr

/-- What `ERRCODE` can hold: the 15 codes of `60_exceptions.md` R201, `none` being 0 `NONE`. -/
inductive ErrCode where
  | none
  | eRes
  | eSr
  | eDuration
  | eMaxamp
  | eSustain
  | eShape
  | eStep
  | eNocfg
  | eFreq
  | eSrclen
  | eRange
  | eCmd
  | eAddr
  | eRo
deriving DecidableEq, Repr

/-- What the model stops with: nothing. Every error of this hardware is a rejection, after which the core "waits for
the next" transaction (`60_exceptions.md` R202), so it is a next state; and no rule leaves an instruction without
an effect. Having no constructor is safe and unsafe of nothing: no step can answer a fault (log 10). -/
inductive Fault where
deriving DecidableEq, Repr

/-- What the model refuses. -/
inductive Refusal where
  /-- Raised only by an arm of `exec` whose instruction has no meaning yet; there is no such arm. Safe. -/
  | notModelled (mnemonic : String)
deriving DecidableEq, Repr

/-- One thing for each of the three segments. -/
structure PerSeg (α : Type) where
  attack : α
  decay : α
  release : α
deriving DecidableEq, Repr

/-- The same thing for each segment. -/
def PerSeg.all {α : Type} (v : α) : PerSeg α :=
  ⟨v, v, v⟩

/-- A complete envelope parameter set, staged or active (`10_state.md` R26, R27, R28). -/
structure ParamSet where
  attack : Word
  decay : Word
  sustain : Word
  release : Word
  maxamp : Word
  res : Word
  shape : Word
deriving DecidableEq, Repr

/-- The operand registers (`10_state.md` R21). -/
structure Args where
  arg0 : Word
  arg1 : Word
deriving DecidableEq, Repr

/-- The result registers `ENV_OUT`, `GR_OUT`, `VOICE_OUT` (`10_state.md` R22). -/
structure Results where
  env : Word
  gr : Word
  voice : Word
deriving DecidableEq, Repr

/-- The staging registers `P_*` (`10_state.md` R26). -/
structure Staging where
  params : ParamSet
  srLo : Word
  srHi : Word
  srcLen : Word
  grainHz : Word
deriving DecidableEq, Repr

/-- The configuration in force: the active parameters, the sample rate, the table step rates and the three valid
bits (`10_state.md` R27, R29, R42). -/
structure Active where
  params : ParamSet
  sr : DWord
  steps : PerSeg Nat
  paramsValid : Bool
  srValid : Bool
  cfgValid : Bool
deriving DecidableEq, Repr

/-- One segment's counters and rate (`10_state.md` R32). -/
structure SegRec where
  elapsed : Nat
  idx : Nat
  rate : Word
deriving DecidableEq, Repr

/-- The envelope: `STAGE`, `AMP`, `SEG`, `REL_START` (`10_state.md` R31 to R33). -/
structure Env where
  stage : Stage
  amp : Word
  segs : PerSeg SegRec
  relStart : Word
deriving DecidableEq, Repr

/-- The grain scheduler: `L`, `GRAIN_HZ`, `FREQ`, `TRIG`, `ACC`, `HEAD`, `TAIL`, `COUNT`, `CUR` (`10_state.md` R35, R36,
R38). -/
structure Grain where
  len : Nat
  hz : Word
  freq : Word
  trig : Word
  acc : Word
  head : Nat
  tail : Nat
  count : Nat
  cur : List Nat
deriving DecidableEq, Repr

/-- `ERR` and `ERRCODE` (`10_state.md` R24, R25). -/
structure ErrorReg where
  err : Bool
  code : ErrCode
deriving DecidableEq, Repr

/-- One thing the host does to the core: a bus transaction (`20_memory.md` R60) or its hardware reset input
(`70_reset_and_hazards.md` R230). -/
inductive HostInput where
  | write (addr : Addr) (data : Word)
  | read (addr : Addr)
  | hardReset
deriving DecidableEq, Repr

/-- The response of a transaction: `OKAY` or `ERROR`, and the data word of a `READ` (`20_memory.md` R60). -/
structure Response where
  okay : Bool
  data : Word
deriving DecidableEq, Repr

/-- RAM: pairs of a bus word address and the word written there, addresses strictly rising; an address not listed has
not been written and has no value (`20_memory.md` R62, R68; logs 4 and 5). -/
abbrev Memory := List (Nat × Word)

/-- The whole machine. -/
structure State where
  /-- `CAP`, `LMAX`, `BMAX`: constants of the machine, which no step writes (`10_state.md` R43; log 6). -/
  par : Config.Params
  /-- `ARG0`, `ARG1`. -/
  args : Args
  /-- `ENV_OUT`, `GR_OUT`, `VOICE_OUT`. -/
  results : Results
  /-- The `P_*` registers. -/
  staging : Staging
  /-- The `A_*` and `STEP_*` registers and the valid bits. -/
  active : Active
  /-- The envelope. -/
  env : Env
  /-- The grain scheduler. -/
  grain : Grain
  /-- `NOTE_AMP` (`10_state.md` R39). -/
  noteAmp : Word
  /-- `ERR` and `ERRCODE`. -/
  error : ErrorReg
  /-- `RAW`, `TAB`, `SRC` and `BUF`, by bus address (`20_memory.md` R61). -/
  ram : Memory
  /-- The model's own: how many hardware resets there have been (logs 5 and 9). -/
  era : Nat
  /-- The model's own: what the host will still do, first first (`10_state.md` R45; log 1). -/
  pending : List HostInput
  /-- The model's own: the response of the latest transaction (log 3). -/
  response : Option Response
deriving DecidableEq, Repr

/-- Seven zero words: the reset value of the active set (`10_state.md` R27). -/
def ParamSet.zero : ParamSet :=
  ⟨0, 0, 0, 0, 0, 0, 0⟩

/-- "all `0x00000000` except `P_SHAPE` = `0x00000014`" (`10_state.md` R26). -/
def Staging.reset : Staging where
  params := { ParamSet.zero with shape := 0x00000014#32 }
  srLo := 0
  srHi := 0
  srcLen := 0
  grainHz := 0

/-- Unconfigured: no valid bit, every parameter and step rate 0 (`70_reset_and_hazards.md` R231). -/
def Active.reset : Active where
  params := ParamSet.zero
  sr := 0
  steps := PerSeg.all 0
  paramsValid := false
  srValid := false
  cfgValid := false

/-- Idle with amplitude `+0.0`, records and `REL_START` zero (`70_reset_and_hazards.md` R231, `40_config_tables.md`
R115). -/
def Env.reset : Env where
  stage := .idle
  amp := 0
  segs := PerSeg.all ⟨0, 0, 0⟩
  relStart := 0

/-- No source, no frequency, an empty ring of `cap` zero cursors, `TRIG = +Inf` (`70_reset_and_hazards.md` R231). -/
def Grain.reset (cap : Nat) : Grain where
  len := 0
  hz := 0
  freq := 0
  trig := 0x7F800000#32
  acc := 0
  head := 0
  tail := 0
  count := 0
  cur := List.replicate cap 0

/-- The state of `70_reset_and_hazards.md` R231 for a machine with parameters `p`, RAM unwritten. -/
def State.resetWith (p : Config.Params) : State where
  par := p
  args := ⟨0, 0⟩
  results := ⟨0, 0, 0⟩
  staging := Staging.reset
  active := Active.reset
  env := Env.reset
  grain := Grain.reset p.cap
  noteAmp := 0
  error := ⟨false, .none⟩
  ram := []
  era := 0
  pending := []
  response := none

/-- The machine right after reset (`70_reset_and_hazards.md` R230, R231), its parameters open (`00_scope.md` R5). -/
def State.reset : State :=
  State.resetWith Config.params

end Sys2Proof.Machine
end

