-- ==== Sys2Proof/Machine/Ops.lean ====
section
/-! DEFINITION. Sys2Proof/Machine/Ops.lean: the named operations over memory and state: RAM words and the address map,
whole-field updates, acceptance and rejection of a transaction, and reset (`20_memory.md`, `60_exceptions.md`
rule R202, `70_reset_and_hazards.md` rule R231). -/

namespace Sys2Proof.Machine

/-- The element of one segment. -/
def PerSeg.get {α : Type} (x : PerSeg α) : Segment → α
  | .attack => x.attack
  | .decay => x.decay
  | .release => x.release

/-- `x` with the element of one segment replaced. -/
def PerSeg.set {α : Type} (x : PerSeg α) (g : Segment) (v : α) : PerSeg α :=
  match g with
  | .attack => { x with attack := v }
  | .decay => { x with decay := v }
  | .release => { x with release := v }

/-! ## Memory -/

/-- The canonical form: addresses strictly rising. No entry equals what an unlisted address reads as, since that is
no value at all (log 5). -/
def Memory.wf : Memory → Bool
  | [] => true
  | [_] => true
  | x :: y :: m => decide (x.1 < y.1) && Memory.wf (y :: m)

/-- The word written at `a`; none where nothing has been written (`20_memory.md` R68). -/
def Memory.read : Memory → Nat → Option Word
  | [], _ => none
  | x :: m, a => if x.1 = a then some x.2 else Memory.read m a

/-- `m` with the word at `a` replaced by `v`, in canonical form (`20_memory.md` R69 `MemWrite`). -/
def Memory.write : Memory → Nat → Word → Memory
  | [], a, v => [(a, v)]
  | x :: m, a, v =>
    if a < x.1 then (a, v) :: x :: m
    else if a = x.1 then (a, v) :: m
    else x :: Memory.write m a v

/-- The regions of the address map that hold RAM (`20_memory.md` R61). -/
inductive Region where
  | raw (g : Segment)
  | tab (g : Segment)
  | src
  | buf
deriving DecidableEq, Repr

/-- The region's number, bits 23:20 of its addresses (`20_memory.md` R61). -/
def Region.code : Region → Nat
  | .raw .attack => 1
  | .raw .decay => 2
  | .raw .release => 3
  | .tab .attack => 4
  | .tab .decay => 5
  | .tab .release => 6
  | .src => 7
  | .buf => 8

/-- How many words the region holds: 4097 for a table, `LMAX`, `BMAX` (`20_memory.md` R61). -/
def Region.size (p : Config.Params) : Region → Nat
  | .raw _ => Config.rMax + 1
  | .tab _ => Config.rMax + 1
  | .src => p.lmax
  | .buf => p.bmax

/-- The host may write every RAM region but the tables (`20_memory.md` R61, R66). -/
def Region.hostWritable : Region → Bool
  | .raw _ => true
  | .tab _ => false
  | .src => true
  | .buf => true

/-- The bus address of word `i` of a region: the region number in bits 23:20, the offset in bits 19:0
(`20_memory.md` R61). -/
def ramAddr (r : Region) (i : Nat) : Nat :=
  r.code * 2 ^ 20 + i

/-- `MemRead` (`20_memory.md` R69). A word never written reads as the free value of its address (R68, log 5). -/
def State.ramWord (s : State) (r : Region) (i : Nat) : Word :=
  (Memory.read s.ram (ramAddr r i)).getD (Config.powerOnWord s.era (ramAddr r i))

/-- `TAB[g][i]` (`10_state.md` R30). -/
def State.tab (s : State) (g : Segment) (i : Nat) : Word :=
  s.ramWord (.tab g) i

/-- `RAW[g][i]` (`10_state.md` R41). -/
def State.raw (s : State) (g : Segment) (i : Nat) : Word :=
  s.ramWord (.raw g) i

/-- `SRC[i]` (`10_state.md` R35). -/
def State.src (s : State) (i : Nat) : Word :=
  s.ramWord .src i

/-- `BUF[i]` (`10_state.md` R40). -/
def State.buf (s : State) (i : Nat) : Word :=
  s.ramWord .buf i

/-! ## Whole-field updates -/

def State.setArgs (s : State) (v : Args) : State := { s with args := v }
def State.setResults (s : State) (v : Results) : State := { s with results := v }
def State.setStaging (s : State) (v : Staging) : State := { s with staging := v }
def State.setActive (s : State) (v : Active) : State := { s with active := v }
def State.setEnv (s : State) (v : Env) : State := { s with env := v }
def State.setGrain (s : State) (v : Grain) : State := { s with grain := v }
def State.setNoteAmp (s : State) (v : Word) : State := { s with noteAmp := v }
def State.setError (s : State) (v : ErrorReg) : State := { s with error := v }
def State.setRam (s : State) (v : Memory) : State := { s with ram := v }
def State.setPending (s : State) (v : List HostInput) : State := { s with pending := v }
def State.setResponse (s : State) (v : Option Response) : State := { s with response := v }

/-- `MemWrite` (`20_memory.md` R69). -/
def State.putRam (s : State) (r : Region) (i : Nat) (v : Word) : State :=
  s.setRam (Memory.write s.ram (ramAddr r i) v)

/-- `ENV_OUT <- v` (`10_state.md` R22). -/
def State.putEnvOut (s : State) (v : Word) : State :=
  s.setResults { s.results with env := v }

/-- `GR_OUT <- v` (`10_state.md` R22). -/
def State.putGrOut (s : State) (v : Word) : State :=
  s.setResults { s.results with gr := v }

/-- `VOICE_OUT <- v` (`10_state.md` R22). -/
def State.putVoiceOut (s : State) (v : Word) : State :=
  s.setResults { s.results with voice := v }

/-! ## The end of a transaction -/

/-- The response of an accepted transaction that returns no data (`20_memory.md` R60; the data word: log 15). -/
def okayResponse : Response :=
  ⟨true, 0⟩

/-- The response of a rejected transaction: "with `ERROR` the data word is `0x00000000`" (`20_memory.md` R60). -/
def errorResponse : Response :=
  ⟨false, 0⟩

/-- The transaction is accepted: response `OKAY`, and `ERR` and `ERRCODE` as they were (`60_exceptions.md` R202). -/
def State.accept (s : State) : State :=
  s.setResponse (some okayResponse)

/-- The rejection protocol, this hardware's whole trap entry (`60_exceptions.md` R202): `ERR` set, `ERRCODE` the code,
response `ERROR`, nothing else; nothing is saved and control goes nowhere, so there is no return from it (R205). -/
def State.reject (s : State) (code : ErrCode) : State :=
  (s.setError ⟨true, code⟩).setResponse (some errorResponse)

/-- A command's end by acceptance. -/
def accepted (s : State) : Host.Outcome State Fault Refusal :=
  .next s.accept

/-- A command's end by `reject(code)` (`00_scope.md` R7). -/
def rejected (code : ErrCode) (s : State) : Host.Outcome State Fault Refusal :=
  .next (s.reject code)

/-! ## Reset -/

/-- `reset_state()` (`70_reset_and_hazards.md` R231) as the `RESET` command runs it: every register and hidden element
at its reset value, the RAM arrays kept (`44_system.md` R191), the parameters and the host's own list kept. -/
def State.softReset (s : State) : State :=
  { State.resetWith s.par with
    ram := s.ram
    era := s.era
    pending := s.pending
    response := s.response }

/-- The hardware reset input (`70_reset_and_hazards.md` R230 (a)): `reset_state()`, the RAM arrays left with new
unspecified contents. It is no transaction and has no response (log 9). -/
def State.hardReset (s : State) : State :=
  { State.resetWith s.par with
    era := s.era + 1
    pending := s.pending }

end Sys2Proof.Machine
end

