-- ==== Sys2Proof/Machine/Flags.lean ====
section
/-! DEFINITION. Sys2Proof/Machine/Flags.lean: the status register and the error code as the host reads them
(`10_state.md` rules R24 and R25, `60_exceptions.md` rule R201). No command computes an arithmetic flag and no
floating-point flag is kept (`00_scope.md` rule R9). -/

namespace Sys2Proof.Machine

/-- The stage codes (`10_state.md` R24, `30_encoding.md` R96). -/
def Stage.code : Stage → Nat
  | .idle => 0
  | .attack => 1
  | .decay => 2
  | .sustain => 3
  | .release => 4

/-- `ACTIVE`: "1 iff `STAGE ≠ 0`" (`10_state.md` R24, `41_envelope.md` R141). -/
def activeFlag (s : State) : Bool :=
  s.env.stage != .idle

/-- A bit as a number. -/
def bit (b : Bool) : Nat :=
  if b then 1 else 0

/-- `STATUS` (`10_state.md` R24): `STAGE` in bits 2:0, then `ACTIVE`, `PARAMS_VALID`, `SR_VALID`, `CFG_VALID`, `ERR`; bits
31:8 read as zero. -/
def statusWord (s : State) : Word :=
  BitVec.ofNat 32
    (s.env.stage.code + bit (activeFlag s) * 8 + bit s.active.paramsValid * 16 + bit s.active.srValid * 32
      + bit s.active.cfgValid * 64 + bit s.error.err * 128)

/-- The rejection codes (`60_exceptions.md` R201). -/
def ErrCode.code : ErrCode → Nat
  | .none => 0
  | .eRes => 1
  | .eSr => 2
  | .eDuration => 3
  | .eMaxamp => 4
  | .eSustain => 5
  | .eShape => 6
  | .eStep => 7
  | .eNocfg => 8
  | .eFreq => 9
  | .eSrclen => 10
  | .eRange => 11
  | .eCmd => 12
  | .eAddr => 13
  | .eRo => 14

/-- `ERRCODE`: the code in bits 7:0, zero above (`10_state.md` R25). -/
def errcodeWord (s : State) : Word :=
  BitVec.ofNat 32 s.error.code.code

end Sys2Proof.Machine
end

