-- ==== Sys2Proof/Machine/Registers.lean ====
section
/-! DEFINITION. Sys2Proof/Machine/Registers.lean: the register region (`10_state.md` rule R43): which registers there are,
at which offset, with which access, what a read returns and what a write stores. -/

namespace Sys2Proof.Machine

/-- The registers of `10_state.md` R43, in the order of its table. -/
inductive Reg where
  | cmd | status | errcode | cap | arg0 | arg1 | envOut | grOut | voiceOut | envAmp | grCount | grHead | grTail
  | trig | acc | pAttack | pDecay | pSustain | pRelease | pMaxamp | pRes | pShape | pSrLo | pSrHi | pSrcLen | pGrainHz
  | aAttack | aDecay | aSustain | aRelease | aMaxamp | aRes | aShape | aSrLo | aSrHi | srcLen | grainHz | freq
  | noteAmp | stepA | stepD | stepR | lmax | bmax
deriving DecidableEq, Repr

/-- How the host may use a register (`10_state.md` R43). -/
inductive Access where
  | readWrite
  | readOnly
  | writeOnly
deriving DecidableEq, Repr

/-- The `off` column of `10_state.md` R43. -/
def Reg.offset : Reg → Nat
  | .cmd => 0x00
  | .status => 0x01
  | .errcode => 0x02
  | .cap => 0x03
  | .arg0 => 0x04
  | .arg1 => 0x05
  | .envOut => 0x06
  | .grOut => 0x07
  | .voiceOut => 0x08
  | .envAmp => 0x09
  | .grCount => 0x0A
  | .grHead => 0x0B
  | .grTail => 0x0C
  | .trig => 0x0D
  | .acc => 0x0E
  | .pAttack => 0x10
  | .pDecay => 0x11
  | .pSustain => 0x12
  | .pRelease => 0x13
  | .pMaxamp => 0x14
  | .pRes => 0x15
  | .pShape => 0x16
  | .pSrLo => 0x17
  | .pSrHi => 0x18
  | .pSrcLen => 0x19
  | .pGrainHz => 0x1A
  | .aAttack => 0x20
  | .aDecay => 0x21
  | .aSustain => 0x22
  | .aRelease => 0x23
  | .aMaxamp => 0x24
  | .aRes => 0x25
  | .aShape => 0x26
  | .aSrLo => 0x27
  | .aSrHi => 0x28
  | .srcLen => 0x29
  | .grainHz => 0x2A
  | .freq => 0x2B
  | .noteAmp => 0x2C
  | .stepA => 0x2D
  | .stepD => 0x2E
  | .stepR => 0x2F
  | .lmax => 0x30
  | .bmax => 0x31

/-- Every register, in the order of `10_state.md` R43. -/
def allRegs : List Reg :=
  [.cmd, .status, .errcode, .cap, .arg0, .arg1, .envOut, .grOut, .voiceOut, .envAmp, .grCount, .grHead, .grTail,
    .trig, .acc]
  ++ [.pAttack, .pDecay, .pSustain, .pRelease, .pMaxamp, .pRes, .pShape, .pSrLo, .pSrHi, .pSrcLen, .pGrainHz]
  ++ [.aAttack, .aDecay, .aSustain, .aRelease, .aMaxamp, .aRes, .aShape, .aSrLo, .aSrHi, .srcLen, .grainHz, .freq]
  ++ [.noteAmp, .stepA, .stepD, .stepR, .lmax, .bmax]

/-- The register at an offset; none where "every offset not listed is unmapped" (`10_state.md` R43). -/
def regAt (off : Nat) : Option Reg :=
  allRegs.find? fun r => r.offset == off

/-- The access column of `10_state.md` R43. -/
def Reg.access : Reg → Access
  | .cmd => .writeOnly
  | .arg0 | .arg1 => .readWrite
  | .pAttack | .pDecay | .pSustain | .pRelease | .pMaxamp | .pRes | .pShape => .readWrite
  | .pSrLo | .pSrHi | .pSrcLen | .pGrainHz => .readWrite
  | .status | .errcode | .cap | .envOut | .grOut | .voiceOut | .envAmp | .grCount | .grHead | .grTail => .readOnly
  | .trig | .acc | .aAttack | .aDecay | .aSustain | .aRelease | .aMaxamp | .aRes | .aShape | .aSrLo | .aSrHi => .readOnly
  | .srcLen | .grainHz | .freq | .noteAmp | .stepA | .stepD | .stepR | .lmax | .bmax => .readOnly

/-- An integer state element as its 32-bit register shows it (`10_state.md` R43, type `u32`; log 11). -/
def natWord (n : Nat) : Word :=
  BitVec.ofNat 32 n

/-- What a read of a register returns (`10_state.md` R43); `CMD` reads as 0 (`20_memory.md` R65). -/
def Reg.read (s : State) : Reg → Word
  | .cmd => 0
  | .status => statusWord s
  | .errcode => errcodeWord s
  | .cap => natWord s.par.cap
  | .arg0 => s.args.arg0
  | .arg1 => s.args.arg1
  | .envOut => s.results.env
  | .grOut => s.results.gr
  | .voiceOut => s.results.voice
  | .envAmp => s.env.amp
  | .grCount => natWord s.grain.count
  | .grHead => natWord s.grain.head
  | .grTail => natWord s.grain.tail
  | .trig => s.grain.trig
  | .acc => s.grain.acc
  | .pAttack => s.staging.params.attack
  | .pDecay => s.staging.params.decay
  | .pSustain => s.staging.params.sustain
  | .pRelease => s.staging.params.release
  | .pMaxamp => s.staging.params.maxamp
  | .pRes => s.staging.params.res
  | .pShape => s.staging.params.shape
  | .pSrLo => s.staging.srLo
  | .pSrHi => s.staging.srHi
  | .pSrcLen => s.staging.srcLen
  | .pGrainHz => s.staging.grainHz
  | .aAttack => s.active.params.attack
  | .aDecay => s.active.params.decay
  | .aSustain => s.active.params.sustain
  | .aRelease => s.active.params.release
  | .aMaxamp => s.active.params.maxamp
  | .aRes => s.active.params.res
  | .aShape => s.active.params.shape
  | .aSrLo => s.active.sr.extractLsb' 0 32
  | .aSrHi => s.active.sr.extractLsb' 32 32
  | .srcLen => natWord s.grain.len
  | .grainHz => s.grain.hz
  | .freq => s.grain.freq
  | .noteAmp => s.noteAmp
  | .stepA => natWord s.active.steps.attack
  | .stepD => natWord s.active.steps.decay
  | .stepR => natWord s.active.steps.release
  | .lmax => natWord s.par.lmax
  | .bmax => natWord s.par.bmax

/-- The staging registers with one of them replaced; any 32-bit value is stored unchecked (`10_state.md` R26). -/
def stagingWrite (v : Word) (g : Staging) : Reg → Staging
  | .pAttack => { g with params := { g.params with attack := v } }
  | .pDecay => { g with params := { g.params with decay := v } }
  | .pSustain => { g with params := { g.params with sustain := v } }
  | .pRelease => { g with params := { g.params with release := v } }
  | .pMaxamp => { g with params := { g.params with maxamp := v } }
  | .pRes => { g with params := { g.params with res := v } }
  | .pShape => { g with params := { g.params with shape := v } }
  | .pSrLo => { g with srLo := v }
  | .pSrHi => { g with srHi := v }
  | .pSrcLen => { g with srcLen := v }
  | .pGrainHz => { g with grainHz := v }
  | _ => g

/-- The operand registers with one of them replaced (`10_state.md` R21). -/
def argsWrite (v : Word) (x : Args) : Reg → Args
  | .arg0 => { x with arg0 := v }
  | .arg1 => { x with arg1 := v }
  | _ => x

/-- What a write of an RW register stores: "all 32 bits, unchecked, and do nothing else" (`20_memory.md` R65). -/
def regWrite (r : Reg) (v : Word) (s : State) : State :=
  (s.setArgs (argsWrite v s.args r)).setStaging (stagingWrite v s.staging r)

end Sys2Proof.Machine
end

