-- ==== Sys2Proof/Machine/Bus.lean ====
section
/-! DEFINITION. Sys2Proof/Machine/Bus.lean: the host bus: the address map, plain reads and writes, and which writes carry
a command (`20_memory.md` rules R60, R61, R65 to R67). -/

namespace Sys2Proof.Machine

/-- What a mapped address names (`20_memory.md` R61). -/
inductive Target where
  | reg (r : Reg)
  | ram (r : Region) (off : Nat)
deriving DecidableEq, Repr

/-- `a[23:20]` (`20_memory.md` R61). -/
def regionField (a : Addr) : Nat :=
  a.toNat / 2 ^ 20

/-- `a[19:0]` (`20_memory.md` R61). -/
def offsetField (a : Addr) : Nat :=
  a.toNat % 2 ^ 20

/-- The RAM region with a number; none for region 0 (registers) and the reserved regions (`20_memory.md` R61). -/
def regionOfCode (n : Nat) : Option Region :=
  match n with
  | 1 => some (.raw .attack)
  | 2 => some (.raw .decay)
  | 3 => some (.raw .release)
  | 4 => some (.tab .attack)
  | 5 => some (.tab .decay)
  | 6 => some (.tab .release)
  | 7 => some .src
  | 8 => some .buf
  | _ => none

/-- The address map: none where an access is rejected with `E_ADDR` (`20_memory.md` R61, `10_state.md` R43). -/
def target (p : Config.Params) (a : Addr) : Option Target :=
  if regionField a = 0 then (regAt (offsetField a)).map .reg
  else
    match regionOfCode (regionField a) with
    | some r => if offsetField a < r.size p then some (.ram r (offsetField a)) else none
    | none => none

/-- The word a mapped address reads as (`20_memory.md` R65, R66). -/
def targetRead (s : State) : Target → Word
  | .reg r => r.read s
  | .ram r i => s.ramWord r i

/-- Whether the host may write a mapped address (`20_memory.md` R66, `10_state.md` R43). -/
def targetWritable : Target → Bool
  | .reg r => r.access != .readOnly
  | .ram r _ => r.hostWritable

/-- What a write of a writable address other than `CMD` stores (`20_memory.md` R65). -/
def targetWrite (v : Word) (s : State) : Target → State
  | .reg r => regWrite r v s
  | .ram r i => s.putRam r i v

/-- `READ(addr)` (`20_memory.md` R60, R61, R66): no side effect when accepted (R65). -/
def busRead (a : Addr) (s : State) : State :=
  match target s.par a with
  | none => s.reject .eAddr
  | some t => s.setResponse (some ⟨true, targetRead s t⟩)

/-- `WRITE(addr, data)` to anything but `CMD`: `E_ADDR` before `E_RO`, else the word is stored (`60_exceptions.md` R204,
`20_memory.md` R65 to R67). -/
def busWrite (a : Addr) (v : Word) (s : State) : State :=
  match target s.par a with
  | none => s.reject .eAddr
  | some t => if targetWritable t then (targetWrite v s t).accept else s.reject .eRo

/-- The command word a host input carries: the data of a `WRITE` to `CMD` (`30_encoding.md` R90). -/
def commandWordOf (p : Config.Params) : HostInput → Option Word
  | .write a v => if target p a = some (.reg .cmd) then some v else none
  | .read _ => none
  | .hardReset => none

/-- A host input that carries no command. -/
def plainInput (x : HostInput) (s : State) : State :=
  match x with
  | .write a v => busWrite a v s
  | .read a => busRead a s
  | .hardReset => s.hardReset

/-- An illegal command word: `E_CMD` and no other effect (`30_encoding.md` R93). -/
def illegalCommand (s : State) : State :=
  s.reject .eCmd

/-- The bus address of a target (`20_memory.md` R61, `30_encoding.md` R97 "address = region number `<< 20` plus `i`"). -/
def targetAddr : Target → Addr
  | .reg r => BitVec.ofNat 24 r.offset
  | .ram r i => BitVec.ofNat 24 (ramAddr r i)

/-- The address of `CMD`, `0x000000` (`30_encoding.md` R90). -/
def cmdAddr : Addr :=
  targetAddr (.reg .cmd)

end Sys2Proof.Machine
end

