-- ==== Sys2Proof/Machine/Float.lean ====
section
/-! DEFINITION. Sys2Proof/Machine/Float.lean: the floating-point primitives of `00_scope.md` rules R8 to R12, IEEE 754
binary32 and binary64 under round-to-nearest, ties-to-even (log 7).

Every finite number of a format is a whole number of units, a unit being the format's least subnormal, so each
operation is computed exactly on natural numbers and rounded once, by `Format.round`. -/

namespace Sys2Proof.Machine

/-- An IEEE 754 format: the widths of its fraction and exponent fields (`00_scope.md` R8). -/
structure Format where
  fracBits : Nat
  expBits : Nat
deriving DecidableEq, Repr

/-- binary32: 8 exponent bits, 23 fraction bits (`00_scope.md` R8). -/
def binary32 : Format := ⟨23, 8⟩

/-- binary64: 11 exponent bits, 52 fraction bits (`00_scope.md` R8). -/
def binary64 : Format := ⟨52, 11⟩

/-- A number of a format: its sign bit and its exponent and fraction fields read as one natural number. -/
structure Fp where
  neg : Bool
  mag : Nat
deriving DecidableEq, Repr

namespace Format

/-- The magnitude of an infinity: exponent field all ones, fraction zero. -/
def infMag (f : Format) : Nat :=
  (2 ^ f.expBits - 1) * 2 ^ f.fracBits

/-- A unit of the format is `2 ^ (-unitExp)`: 149 for binary32, 1074 for binary64. -/
def unitExp (f : Format) : Nat :=
  2 ^ (f.expBits - 1) + f.fracBits - 2

/-- The value of a finite magnitude, in units: subnormal with exponent field 0, else with the hidden bit. -/
def units (f : Format) (mag : Nat) : Nat :=
  let e := mag / 2 ^ f.fracBits
  let m := mag % 2 ^ f.fracBits
  if e = 0 then m else (2 ^ f.fracBits + m) * 2 ^ (e - 1)

/-- The integer nearest `a / b`, ties to the even one. -/
def nearestEven (a b : Nat) : Nat :=
  let q := a / b
  let r := a % b
  if 2 * r < b then q else if b < 2 * r then q + 1 else q + q % 2

/-- The magnitude of the format nearest `num / den` units, ties to even, an infinity above the finite range.
`k` is how far the binade of the quotient lies above the one where numbers are spaced one unit apart. -/
def round (f : Format) (num den : Nat) : Nat :=
  let k := (num / den).log2 - f.fracBits
  min (k * 2 ^ f.fracBits + nearestEven num (den * 2 ^ k)) f.infMag

end Format

namespace Fp

def isNaN (f : Format) (a : Fp) : Bool :=
  f.infMag < a.mag

def isInf (f : Format) (a : Fp) : Bool :=
  a.mag == f.infMag

/-- The exponent field is not all ones (`00_scope.md` R11). -/
def isFinite (f : Format) (a : Fp) : Bool :=
  a.mag < f.infMag

/-- `a + b`; `none` is a NaN (`00_scope.md` R9, R10). -/
def add (f : Format) (a b : Fp) : Option Fp :=
  if a.isNaN f || b.isNaN f then none
  else if a.isInf f then if b.isInf f && a.neg != b.neg then none else some a
  else if b.isInf f then some b
  else
    let x := f.units a.mag
    let y := f.units b.mag
    if a.neg == b.neg then some ⟨a.neg, f.round (x + y) 1⟩
    else if y < x then some ⟨a.neg, f.round (x - y) 1⟩
    else if x < y then some ⟨b.neg, f.round (y - x) 1⟩
    else some ⟨false, 0⟩

/-- `a × b`; `none` is a NaN (`00_scope.md` R9, R10). -/
def mul (f : Format) (a b : Fp) : Option Fp :=
  let s := a.neg != b.neg
  if a.isNaN f || b.isNaN f then none
  else if a.isInf f then if b.mag = 0 then none else some ⟨s, f.infMag⟩
  else if b.isInf f then if a.mag = 0 then none else some ⟨s, f.infMag⟩
  else some ⟨s, f.round (f.units a.mag * f.units b.mag) (2 ^ f.unitExp)⟩

/-- `a ÷ b`; `none` is a NaN (`00_scope.md` R9, R10). -/
def div (f : Format) (a b : Fp) : Option Fp :=
  let s := a.neg != b.neg
  if a.isNaN f || b.isNaN f then none
  else if a.isInf f then if b.isInf f then none else some ⟨s, f.infMag⟩
  else if b.isInf f then some ⟨s, 0⟩
  else if b.mag = 0 then if a.mag = 0 then none else some ⟨s, f.infMag⟩
  else some ⟨s, f.round (f.units a.mag * 2 ^ f.unitExp) (f.units b.mag)⟩

/-- The order of numbers that are not NaN: the magnitude with its sign, both zeros being 0. -/
def key (a : Fp) : Int :=
  if a.neg then -(a.mag : Int) else a.mag

/-- The ordered comparison `a < b`, false on a NaN (`00_scope.md` R11). -/
def lt (f : Format) (a b : Fp) : Bool :=
  !a.isNaN f && !b.isNaN f && decide (a.key < b.key)

/-- The ordered comparison `a ≤ b`, false on a NaN (`00_scope.md` R11). -/
def le (f : Format) (a b : Fp) : Bool :=
  !a.isNaN f && !b.isNaN f && decide (a.key ≤ b.key)

/-- The number of format `g` equal or nearest to `a` of format `f`; `none` is a NaN. -/
def convert (f g : Format) (a : Fp) : Option Fp :=
  if a.isNaN f then none
  else if a.isInf f then some ⟨a.neg, g.infMag⟩
  else some ⟨a.neg, g.round (f.units a.mag * 2 ^ g.unitExp) (2 ^ f.unitExp)⟩

end Fp

/-! ## Patterns and constants -/

/-- `f32_of_bits` (`00_scope.md` R12): the sign is bit 31, the rest is bits 30:0. -/
def unpack32 (w : Word) : Fp :=
  ⟨2 ^ 31 ≤ w.toNat, w.toNat % 2 ^ 31⟩

/-- `bits32` (`00_scope.md` R12); a NaN is the canonical quiet NaN `0x7FC00000` (R10). -/
def pack32 : Option Fp → Word
  | none => 0x7FC00000#32
  | some a => BitVec.ofNat 32 ((if a.neg then 2 ^ 31 else 0) + a.mag)

/-- `f64_of_bits` (`00_scope.md` R12): the sign is bit 63, the rest is bits 62:0. -/
def unpack64 (w : DWord) : Fp :=
  ⟨2 ^ 63 ≤ w.toNat, w.toNat % 2 ^ 63⟩

/-- `bits64` (`00_scope.md` R12). DESIGN CHOICE (log 8): the pattern of a binary64 NaN, which no rule ever sees (R10). -/
def pack64 : Option Fp → DWord
  | none => 0x7FF8000000000000#64
  | some a => BitVec.ofNat 64 ((if a.neg then 2 ^ 63 else 0) + a.mag)

/-- `+0.0` in `f32` (`00_scope.md` R12). -/
def posZero32 : Word := 0x00000000#32
/-- `1.0` in `f32` (`00_scope.md` R12). -/
def one32 : Word := 0x3F800000#32
/-- `2.0` in `f32` (`00_scope.md` R12). -/
def two32 : Word := 0x40000000#32
/-- `+Inf` in `f32` (`00_scope.md` R12). -/
def posInf32 : Word := 0x7F800000#32
/-- `+0.0` in `f64`. -/
def posZero64 : DWord := 0x0000000000000000#64
/-- `1.0` in `f64` (`00_scope.md` R12). -/
def one64 : DWord := 0x3FF0000000000000#64
/-- `2147483648.0` in `f64`, the bound of `40_config_tables.md` R110. -/
def twoPow31F64 : DWord := 0x41E0000000000000#64

/-! ## The primitives by their names in the spec -/

/-- `00_scope.md` R9. -/
def add32 (a b : Word) : Word := pack32 (Fp.add binary32 (unpack32 a) (unpack32 b))
/-- `neg32(a)` returns `a` with bit 31 inverted (`00_scope.md` R9). -/
def neg32 (a : Word) : Word := a ^^^ 0x80000000#32
/-- `00_scope.md` R9: `a − b` is the sum of `a` and `b` with its sign inverted; a NaN stays a NaN. -/
def sub32 (a b : Word) : Word := add32 a (neg32 b)
/-- `00_scope.md` R9. -/
def mul32 (a b : Word) : Word := pack32 (Fp.mul binary32 (unpack32 a) (unpack32 b))
/-- `00_scope.md` R9. -/
def div32 (a b : Word) : Word := pack32 (Fp.div binary32 (unpack32 a) (unpack32 b))
/-- `00_scope.md` R9. -/
def mul64 (a b : DWord) : DWord := pack64 (Fp.mul binary64 (unpack64 a) (unpack64 b))
/-- `00_scope.md` R9. -/
def div64 (a b : DWord) : DWord := pack64 (Fp.div binary64 (unpack64 a) (unpack64 b))

/-- `00_scope.md` R11. -/
def lt32 (a b : Word) : Bool := Fp.lt binary32 (unpack32 a) (unpack32 b)
/-- `00_scope.md` R11. -/
def le32 (a b : Word) : Bool := Fp.le binary32 (unpack32 a) (unpack32 b)
/-- `00_scope.md` R11. -/
def gt32 (a b : Word) : Bool := lt32 b a
/-- `00_scope.md` R11. -/
def ge32 (a b : Word) : Bool := le32 b a
/-- `00_scope.md` R11. -/
def finite32 (a : Word) : Bool := Fp.isFinite binary32 (unpack32 a)
/-- Some NaN: exponent field all ones, fraction not zero (`00_scope.md` R10). -/
def isNaN32 (a : Word) : Bool := Fp.isNaN binary32 (unpack32 a)
/-- `00_scope.md` R11. -/
def lt64 (a b : DWord) : Bool := Fp.lt binary64 (unpack64 a) (unpack64 b)
/-- `00_scope.md` R11. -/
def gt64 (a b : DWord) : Bool := lt64 b a
/-- `00_scope.md` R11. -/
def ge64 (a b : DWord) : Bool := Fp.le binary64 (unpack64 b) (unpack64 a)
/-- `00_scope.md` R11. -/
def finite64 (a : DWord) : Bool := Fp.isFinite binary64 (unpack64 a)
/-- "`max64(a,b)` is `b` if `lt64(a,b)` and `a` otherwise" (`00_scope.md` R11). -/
def max64 (a b : DWord) : DWord := if lt64 a b then b else a

/-- The `f32` nearest a natural number (`00_scope.md` R12). -/
def nat32 (n : Nat) : Word := pack32 (some ⟨false, binary32.round (n * 2 ^ binary32.unitExp) 1⟩)
/-- The `f64` nearest a natural number (`00_scope.md` R12). -/
def nat64 (n : Nat) : DWord := pack64 (some ⟨false, binary64.round (n * 2 ^ binary64.unitExp) 1⟩)
/-- The `f64` equal to a finite `f32` (`00_scope.md` R12; outside that domain log 8). -/
def cvt64 (a : Word) : DWord := pack64 (Fp.convert binary32 binary64 (unpack32 a))
/-- "the greatest integer not above `a`" for a finite `a ≥ 1` (`00_scope.md` R12; outside that domain log 8). -/
def trunc64 (a : DWord) : Nat := binary64.units (unpack64 a).mag / 2 ^ binary64.unitExp

end Sys2Proof.Machine
end

