-- ==== Sys2Proof/Machine/Operands.lean ====
section
/-! DEFINITION. Sys2Proof/Machine/Operands.lean: every operand a command reads, and in what form: `ARG0`, `ARG1` and the
staging registers as they stand when `CMD` is written (`30_encoding.md` rule R91). No operand is extended,
scaled or shifted. -/

namespace Sys2Proof.Machine

/-- `ARG0` as the amplitude of `NOTE_ON`, any bit pattern (`41_envelope.md` R136). -/
def amplitudeOperand (s : State) : Word :=
  s.args.arg0

/-- `ARG0` as the frequency of `SET_FREQ` (`42_grain.md` R162). -/
def frequencyOperand (s : State) : Word :=
  s.args.arg0

/-- `ARG0` as the unsigned `start` of a block command (`41_envelope.md` R139, `43_voice.md` R182). -/
def blockStart (s : State) : Nat :=
  s.args.arg0.toNat

/-- `ARG1` as the unsigned `n` of a block command (`41_envelope.md` R139, `43_voice.md` R182). -/
def blockCount (s : State) : Nat :=
  s.args.arg1.toNat

/-- The candidate of `SET_PARAMS`: the seven staging registers (`40_config_tables.md` R116). -/
def stagedParams (s : State) : ParamSet :=
  s.staging.params

/-- The candidate of `SET_ATTACK`: the active set with the staged attack (`40_config_tables.md` R117). DEDUCED (log 18): the
four field setters read their `P_*` register, as R117 to R120 say, where `43_voice.md` R183 writes `ARG0`. -/
def candidateAttack (s : State) : ParamSet :=
  { s.active.params with attack := s.staging.params.attack }

/-- The candidate of `SET_DECAY` (`40_config_tables.md` R118). -/
def candidateDecay (s : State) : ParamSet :=
  { s.active.params with decay := s.staging.params.decay }

/-- The candidate of `SET_SUSTAIN` (`40_config_tables.md` R119). -/
def candidateSustain (s : State) : ParamSet :=
  { s.active.params with sustain := s.staging.params.sustain }

/-- The candidate of `SET_RELEASE` (`40_config_tables.md` R120). -/
def candidateRelease (s : State) : ParamSet :=
  { s.active.params with release := s.staging.params.release }

/-- `f64_of_bits({P_SR_HI, P_SR_LO})` (`40_config_tables.md` R121, `20_memory.md` R62). -/
def stagedSampleRate (s : State) : DWord :=
  s.staging.srHi ++ s.staging.srLo

/-- `P_SRC_LEN` as an unsigned integer (`42_grain.md` R161). -/
def stagedSourceLength (s : State) : Nat :=
  s.staging.srcLen.toNat

/-- `dur(p, s)`: the duration of a segment (`40_config_tables.md`, notation). -/
def ParamSet.duration (p : ParamSet) : Segment → Word
  | .attack => p.attack
  | .decay => p.decay
  | .release => p.release

/-- `R` as an integer (`10_state.md` R28). -/
def ParamSet.resolution (p : ParamSet) : Nat :=
  p.res.toNat

/-- `sel(p, s)`: the 2-bit shape selector of a segment, bits 1:0, 3:2 and 5:4 (`10_state.md` R26). -/
def ParamSet.selector (p : ParamSet) : Segment → Nat
  | .attack => p.shape.toNat % 4
  | .decay => p.shape.toNat / 4 % 4
  | .release => p.shape.toNat / 16 % 4

end Sys2Proof.Machine
end

