-- ==== Sys2Proof/Machine/ConfigTables.lean ====
section
/-! DEFINITION. Sys2Proof/Machine/ConfigTables.lean: the table generator and the configuration commands
(`40_config_tables.md`). -/

namespace Sys2Proof.Machine

/-- `step_rate(sr, res, sec)` (`40_config_tables.md` R110), in `f64`; `none` is `OVERFLOW`. -/
def stepRate (sr : DWord) (res : Nat) (sec : Word) : Option Nat :=
  let x1 := mul64 sr (cvt64 sec)
  let x2 := max64 x1 one64
  let x3 := div64 x2 (nat64 res)
  let x4 := max64 x3 one64
  if !finite64 x4 || ge64 x4 twoPow31F64 then none else some (trunc64 x4)

/-- The step rates of the three segments of a parameter set; `none` if any is `OVERFLOW` (`40_config_tables.md` R112,
R114). -/
def stepRates (sr : DWord) (p : ParamSet) : Option (PerSeg Nat) :=
  match stepRate sr p.resolution p.attack, stepRate sr p.resolution p.decay, stepRate sr p.resolution p.release with
  | some a, some d, some r => some ⟨a, d, r⟩
  | _, _, _ => none

/-- `raw_shape(p, s, i)` (`40_config_tables.md` R111); `raw` is the array `RAW`. Selector 3 never comes here (R113). -/
def rawShape (p : ParamSet) (raw : Segment → Nat → Word) (g : Segment) (i : Nat) : Word :=
  match p.selector g with
  | 0 => div32 (nat32 i) (nat32 p.resolution)
  | 1 => neg32 (div32 (nat32 i) (nat32 p.resolution))
  | _ => raw g i

/-- One rescaled table entry: `div32(raw_shape(p, s, i), nat32(STEP[s]))` (`40_config_tables.md` R112). -/
def tableEntry (p : ParamSet) (raw : Segment → Nat → Word) (steps : PerSeg Nat) (g : Segment) (i : Nat) : Word :=
  div32 (rawShape p raw g i) (nat32 (steps.get g))

/-- The table of one segment written into RAM, entries `0..R` in order; the entries above `R` keep what they held
(`40_config_tables.md` R112). DEDUCED (log 19): R112 is followed where `10_state.md` R30 calls those entries unspecified. -/
def buildTable (p : ParamSet) (raw : Segment → Nat → Word) (steps : PerSeg Nat) (m : Memory) (g : Segment) : Memory :=
  (List.range (p.resolution + 1)).foldl
    (fun m i => Memory.write m (ramAddr (.tab g) i) (tableEntry p raw steps g i)) m

/-- `build_tables()` (`40_config_tables.md` R112): all three tables, in the order A, D, Rl. A build writes only `TAB`,
so `RAW` stays as it is throughout. -/
def buildTables (p : ParamSet) (steps : PerSeg Nat) (s : State) : Memory :=
  [Segment.attack, Segment.decay, Segment.release].foldl (buildTable p s.raw steps) s.ram

/-- A duration `validate` accepts: finite and `≥ +0.0` (`40_config_tables.md` R113). -/
def durationOk (x : Word) : Bool :=
  finite32 x && ge32 x posZero32

/-- `validate(p)` (`40_config_tables.md` R113): the first error, `none` when the set is valid. -/
def validate (p : ParamSet) : Option ErrCode :=
  if p.resolution < Config.rMin ∨ Config.rMax < p.resolution then some .eRes
  else if !(durationOk p.attack && durationOk p.decay && durationOk p.release) then some .eDuration
  else if !(finite32 p.maxamp && gt32 p.maxamp posZero32) then some .eMaxamp
  else if !(finite32 p.sustain && ge32 p.sustain posZero32 && le32 p.sustain p.maxamp) then some .eSustain
  else if p.shape.toNat / 64 != 0 || p.selector .attack == 3 || p.selector .decay == 3 || p.selector .release == 3 then
    some .eShape
  else none

/-- The state after a parameter set is stored with no sample rate yet: no table is built (`40_config_tables.md` R114). -/
def storeParams (p : ParamSet) (s : State) : State :=
  (s.setActive { s.active with params := p, paramsValid := true }).setEnv Env.reset

/-- The state after a configuration with both halves is stored: tables built, `CFG_VALID` set, envelope reset
(`40_config_tables.md` R114, R121). -/
def storeConfig (p : ParamSet) (sr : DWord) (steps : PerSeg Nat) (s : State) : State :=
  ((s.setRam (buildTables p steps s)).setActive
    { params := p, sr := sr, steps := steps, paramsValid := true, srValid := true, cfgValid := true }).setEnv Env.reset

/-- The state after a sample rate is stored with no parameter set yet (`40_config_tables.md` R121). -/
def storeSampleRate (sr : DWord) (s : State) : State :=
  (s.setActive { s.active with sr := sr, srValid := true }).setEnv Env.reset

/-- `commit_params(p)` (`40_config_tables.md` R114): every check before any write. -/
def commitParams (p : ParamSet) (s : State) : Host.Outcome State Fault Refusal :=
  match validate p with
  | some c => rejected c s
  | none =>
    if s.active.srValid then
      match stepRates s.active.sr p with
      | none => rejected .eStep s
      | some steps => accepted (storeConfig p s.active.sr steps s)
    else accepted (storeParams p s)

/-- The shape of the four single-field setters: `E_NOCFG` without a parameter set, else commit the candidate
(`40_config_tables.md` R117). -/
def commitCandidate (p : ParamSet) (s : State) : Host.Outcome State Fault Refusal :=
  if s.active.paramsValid then commitParams p s else rejected .eNocfg s

/-- `SET_PARAMS` (`40_config_tables.md` R116). -/
def execSetParams (s : State) : Host.Outcome State Fault Refusal :=
  commitParams (stagedParams s) s

/-- `SET_ATTACK` (`40_config_tables.md` R117). -/
def execSetAttack (s : State) : Host.Outcome State Fault Refusal :=
  commitCandidate (candidateAttack s) s

/-- `SET_DECAY` (`40_config_tables.md` R118). -/
def execSetDecay (s : State) : Host.Outcome State Fault Refusal :=
  commitCandidate (candidateDecay s) s

/-- `SET_SUSTAIN` (`40_config_tables.md` R119). -/
def execSetSustain (s : State) : Host.Outcome State Fault Refusal :=
  commitCandidate (candidateSustain s) s

/-- `SET_RELEASE` (`40_config_tables.md` R120). -/
def execSetRelease (s : State) : Host.Outcome State Fault Refusal :=
  commitCandidate (candidateRelease s) s

/-- A sample rate `SET_SAMPLE_RATE` accepts: finite and `> 0` (`40_config_tables.md` R121). -/
def sampleRateOk (sr : DWord) : Bool :=
  finite64 sr && gt64 sr posZero64

/-- `SET_SAMPLE_RATE` (`40_config_tables.md` R121). -/
def execSetSampleRate (s : State) : Host.Outcome State Fault Refusal :=
  let sr := stagedSampleRate s
  if !sampleRateOk sr then rejected .eSr s
  else if s.active.paramsValid then
    match stepRates sr s.active.params with
    | none => rejected .eStep s
    | some steps => accepted (storeConfig s.active.params sr steps s)
  else accepted (storeSampleRate sr s)

end Sys2Proof.Machine
end

