-- ==== Sys2Proof/Machine/Envelope.lean ====
section
/-! DEFINITION. Sys2Proof/Machine/Envelope.lean: the envelope engine (`41_envelope.md`). Its operations are functions of
the tables, the active configuration and the envelope alone, which is the snapshot rule (`20_memory.md` R73). -/

namespace Sys2Proof.Machine

/-- `scale(s)` (`41_envelope.md` R131). -/
def scale (a : Active) (e : Env) : Segment → Word
  | .attack => a.params.maxamp
  | .decay => sub32 a.params.maxamp a.params.sustain
  | .release => e.relStart

/-- The rate of a table index: `(TAB[s][i+1] − TAB[s][i]) × scale(s)` (`41_envelope.md` R132, R133). -/
def segRate (tab : Segment → Nat → Word) (a : Active) (e : Env) (g : Segment) (i : Nat) : Word :=
  mul32 (sub32 (tab g (i + 1)) (tab g i)) (scale a e g)

/-- `seg_enter(s)` (`41_envelope.md` R132). -/
def segEnter (tab : Segment → Nat → Word) (a : Active) (g : Segment) (e : Env) : Env :=
  { e with segs := e.segs.set g ⟨0, 0, segRate tab a e g 0⟩ }

/-- The counting half of `seg_step(s)`: count, and at `STEP[s]` advance the index, clamped at `R − 1`, and recompute the
rate (`41_envelope.md` R133). -/
def segCount (tab : Segment → Nat → Word) (a : Active) (g : Segment) (e : Env) : SegRec :=
  let r := e.segs.get g
  if r.elapsed + 1 = a.steps.get g then
    let i := min (r.idx + 1) (a.params.resolution - 1)
    ⟨0, i, segRate tab a e g i⟩
  else { r with elapsed := r.elapsed + 1 }

/-- `seg_step(s)` (`41_envelope.md` R133): then the amplitude is advanced by the (new) rate. -/
def segStep (tab : Segment → Nat → Word) (a : Active) (g : Segment) (e : Env) : Env :=
  let r := segCount tab a g e
  { e with segs := e.segs.set g r, amp := add32 e.amp r.rate }

/-- The Sustain arm of `env_next()` (`41_envelope.md` R134). -/
def envSustain (a : Active) (e : Env) : Word × Env :=
  (a.params.sustain, { e with amp := a.params.sustain })

/-- The Decay arm of `env_next()`: the test at the top, falling through to Sustain in the same call
(`41_envelope.md` R134). -/
def envDecay (tab : Segment → Nat → Word) (a : Active) (e : Env) : Word × Env :=
  if le32 e.amp a.params.sustain then
    envSustain a { e with amp := a.params.sustain, stage := .sustain }
  else
    let e' := segStep tab a .decay e
    (e'.amp, e')

/-- The Attack arm of `env_next()`: the test at the top, falling through to Decay "without consuming a sample"
(`41_envelope.md` R134). -/
def envAttack (tab : Segment → Nat → Word) (a : Active) (e : Env) : Word × Env :=
  if ge32 e.amp a.params.maxamp then
    envDecay tab a (segEnter tab a .decay { e with amp := a.params.maxamp, stage := .decay })
  else
    let e' := segStep tab a .attack e
    (e'.amp, e')

/-- The Release arm of `env_next()`: the test after the advance (`41_envelope.md` R134). -/
def envRelease (tab : Segment → Nat → Word) (a : Active) (e : Env) : Word × Env :=
  let e' := segStep tab a .release e
  if le32 e'.amp posZero32 then (posZero32, { e' with amp := posZero32, stage := .idle })
  else (e'.amp, e')

/-- `env_next()` (`41_envelope.md` R134): the returned sample and the envelope after it. The loop of the pseudocode
passes at most through Attack, Decay and Sustain in one call. -/
def envNext (tab : Segment → Nat → Word) (a : Active) (e : Env) : Word × Env :=
  match e.stage with
  | .idle => (posZero32, e)
  | .attack => envAttack tab a e
  | .decay => envDecay tab a e
  | .sustain => envSustain a e
  | .release => envRelease tab a e

/-- The envelope after an accepted `NOTE_ON` (`41_envelope.md` R136), from any stage. -/
def envNoteOn (tab : Segment → Nat → Word) (a : Active) (e : Env) : Env :=
  if gt32 a.params.attack posZero32 then
    segEnter tab a .attack { e with stage := .attack }
  else if gt32 a.params.decay posZero32 then
    segEnter tab a .decay { e with stage := .decay, amp := a.params.maxamp }
  else { e with stage := .sustain, amp := a.params.sustain }

/-- The envelope after `NOTE_OFF` (`41_envelope.md` R137). -/
def envNoteOff (tab : Segment → Nat → Word) (a : Active) (e : Env) : Env :=
  if e.stage = .idle then e
  else if gt32 a.params.release posZero32 then
    segEnter tab a .release { e with relStart := e.amp, stage := .release }
  else { e with stage := .idle, amp := posZero32 }

/-- `NOTE_ON` (`41_envelope.md` R136). DESIGN CHOICE (log 14): during a note it retriggers, as R136 defines, where R136 would
let a model refuse it. -/
def execNoteOn (s : State) : Host.Outcome State Fault Refusal :=
  if s.active.cfgValid then
    accepted ((s.setNoteAmp (amplitudeOperand s)).setEnv (envNoteOn s.tab s.active s.env))
  else rejected .eNocfg s

/-- `NOTE_OFF` (`41_envelope.md` R137). -/
def execNoteOff (s : State) : Host.Outcome State Fault Refusal :=
  accepted (s.setEnv (envNoteOff s.tab s.active s.env))

/-- `env_next()` on the machine: the sample and the state after it, result registers not yet written. -/
def envNextState (s : State) : Word × State :=
  let r := envNext s.tab s.active s.env
  (r.1, s.setEnv r.2)

/-- `ENV_TICK` (`41_envelope.md` R138). -/
def execEnvTick (s : State) : Host.Outcome State Fault Refusal :=
  let r := envNextState s
  accepted (r.2.putEnvOut r.1)

/-- One element of `ENV_APPLY`, at buffer index `i` (`41_envelope.md` R139): stored as `+0.0` when met in Idle, else
multiplied by the envelope's next sample. -/
def envApplyElement (i : Nat) (s : State) : State :=
  if s.env.stage = .idle then (s.putRam .buf i posZero32).putEnvOut posZero32
  else
    let r := envNextState s
    (r.2.putEnvOut r.1).putRam .buf i (mul32 (s.buf i) r.1)

/-- `n` elements of `ENV_APPLY` from buffer index `i` on, in order (`41_envelope.md` R139). -/
def envApplyLoop : Nat → Nat → State → State
  | 0, _, s => s
  | n + 1, i, s => envApplyLoop n (i + 1) (envApplyElement i s)

/-- The range check of the block commands, "computed without wrap-around" (`41_envelope.md` R139, `43_voice.md` R182). -/
def blockOutOfRange (s : State) : Bool :=
  s.par.bmax < blockStart s + blockCount s

/-- `ENV_APPLY` (`41_envelope.md` R139). -/
def execEnvApply (s : State) : Host.Outcome State Fault Refusal :=
  if blockOutOfRange s then rejected .eRange s
  else accepted (envApplyLoop (blockCount s) (blockStart s) s)

end Sys2Proof.Machine
end

