-- ==== Sys2Proof/Machine/Grain.lean ====
section
/-! DEFINITION. Sys2Proof/Machine/Grain.lean: the grain scheduler (`42_grain.md`). -/

namespace Sys2Proof.Machine

/-- `trig_of(len, ghz, hz)` (`42_grain.md` R160). -/
def trigOf (len : Nat) (ghz hz : Word) : Word :=
  div32 (mul32 (nat32 len) ghz) (mul32 two32 hz)

/-- The scheduler after an accepted `LOAD_SOURCE` (`42_grain.md` R161). -/
def grLoad (cap len : Nat) (ghz : Word) : Grain where
  len := len
  hz := ghz
  freq := posZero32
  trig := posInf32
  acc := posZero32
  head := 0
  tail := 0
  count := 0
  cur := List.replicate cap 0

/-- Push a new cursor at the ring's tail and take the interval off the accumulator (`42_grain.md` R163, step 2). -/
def grPush (cap : Nat) (g : Grain) : Grain :=
  { g with
    cur := g.cur.set g.tail 0
    tail := (g.tail + 1) % cap
    count := g.count + 1
    acc := sub32 g.acc g.trig }

/-- Steps 1 and 2 of `gr_next()`: advance the accumulator, push if it exceeds the interval and there is room
(`42_grain.md` R163). -/
def grTrigger (cap : Nat) (g : Grain) : Grain :=
  let g1 := { g with acc := add32 g.acc one32 }
  if gt32 g1.acc g1.trig && decide (g1.count < cap) then grPush cap g1 else g1

/-- Retire the cursor at the head (`42_grain.md` R163, step 3). DESIGN CHOICE (log 12): the slot keeps its offset, and in
a state no run reaches `0 − 1` is 0. -/
def grRetire (cap : Nat) (g : Grain) : Grain :=
  { g with head := (g.head + 1) % cap, count := g.count - 1 }

/-- One cursor of step 3 of `gr_next()`, ring slot `j`, with the sum so far (`42_grain.md` R163). -/
def grVisit (cap : Nat) (src : Nat → Word) (j : Nat) (x : Word × Grain) : Word × Grain :=
  let c := x.2.cur.getD j 0
  if x.2.len ≤ c then (x.1, grRetire cap x.2)
  else
    let g := { x.2 with cur := x.2.cur.set j (c + 1) }
    (add32 x.1 (src c), if c + 1 = g.len then grRetire cap g else g)

/-- Step 3 of `gr_next()` over the slots of a snapshot, oldest first (`42_grain.md` R163). -/
def grSum (cap : Nat) (src : Nat → Word) (slots : List Nat) (x : Word × Grain) : Word × Grain :=
  slots.foldl (fun x j => grVisit cap src j x) x

/-- The active slots `(HEAD + k) mod C`, oldest first (`10_state.md` R36). -/
def activeSlots (cap : Nat) (g : Grain) : List Nat :=
  (List.range g.count).map fun k => (g.head + k) % cap

/-- `gr_next()` (`42_grain.md` R163): the summed sample and the scheduler after it. -/
def grNext (cap : Nat) (src : Nat → Word) (g : Grain) : Word × Grain :=
  let g1 := grTrigger cap g
  grSum cap src (activeSlots cap g1) (posZero32, g1)

/-- `LOAD_SOURCE` (`42_grain.md` R161). -/
def execLoadSource (s : State) : Host.Outcome State Fault Refusal :=
  if s.par.lmax < stagedSourceLength s then rejected .eSrclen s
  else accepted (s.setGrain (grLoad s.par.cap (stagedSourceLength s) s.staging.grainHz))

/-- `SET_FREQ` (`42_grain.md` R162). -/
def execSetFreq (s : State) : Host.Outcome State Fault Refusal :=
  let hz := frequencyOperand s
  if finite32 hz && gt32 hz posZero32 then
    accepted (s.setGrain { s.grain with freq := hz, trig := trigOf s.grain.len s.grain.hz hz })
  else rejected .eFreq s

/-- `gr_next()` on the machine: the sample and the state after it, result registers not yet written. -/
def grNextState (s : State) : Word × State :=
  let r := grNext s.par.cap s.src s.grain
  (r.1, s.setGrain r.2)

/-- `GR_TICK` (`42_grain.md` R164). -/
def execGrTick (s : State) : Host.Outcome State Fault Refusal :=
  let r := grNextState s
  accepted (r.2.putGrOut r.1)

end Sys2Proof.Machine
end

