-- ==== Sys2Proof/Machine/System.lean ====
section
/-! DEFINITION. Sys2Proof/Machine/System.lean: the system commands (`44_system.md`). -/

namespace Sys2Proof.Machine

/-- `NOP` (`44_system.md` R190): accepted, nothing changes. -/
def execNop (s : State) : Host.Outcome State Fault Refusal :=
  accepted s

/-- `RESET` (`44_system.md` R191). -/
def execReset (s : State) : Host.Outcome State Fault Refusal :=
  accepted s.softReset

/-- `CLR_ERR` (`44_system.md` R192): `STATUS.ERR <- 0`, `ERRCODE <- 0`. -/
def execClrErr (s : State) : Host.Outcome State Fault Refusal :=
  accepted (s.setError ⟨false, .none⟩)

end Sys2Proof.Machine
end

