-- ==== Sys2Proof/Machine/Voice.lean ====
section
/-! DEFINITION. Sys2Proof/Machine/Voice.lean: the voice composition (`43_voice.md`). -/

namespace Sys2Proof.Machine

/-- `voice_tick()` (`43_voice.md` R180): the sample returned and the state after it. In Idle the scheduler is not
advanced and `GR_OUT` is not touched. -/
def voiceTick (s : State) : Word × State :=
  if s.env.stage = .idle then (posZero32, (s.putEnvOut posZero32).putVoiceOut posZero32)
  else
    let e := envNextState s
    let g := grNextState e.2
    let v := mul32 (mul32 e.1 g.1) s.noteAmp
    (v, ((g.2.putEnvOut e.1).putGrOut g.1).putVoiceOut v)

/-- `VOICE_TICK` (`43_voice.md` R181). -/
def execVoiceTick (s : State) : Host.Outcome State Fault Refusal :=
  accepted (voiceTick s).2

/-- One element of `VOICE_FILL`, at buffer index `i`: the buffer word is overwritten (`43_voice.md` R182). -/
def voiceFillElement (i : Nat) (s : State) : State :=
  let r := voiceTick s
  r.2.putRam .buf i r.1

/-- `n` elements of `VOICE_FILL` from buffer index `i` on, in order (`43_voice.md` R182). -/
def voiceFillLoop : Nat → Nat → State → State
  | 0, _, s => s
  | n + 1, i, s => voiceFillLoop n (i + 1) (voiceFillElement i s)

/-- `VOICE_FILL` (`43_voice.md` R182). -/
def execVoiceFill (s : State) : Host.Outcome State Fault Refusal :=
  if blockOutOfRange s then rejected .eRange s
  else accepted (voiceFillLoop (blockCount s) (blockStart s) s)

end Sys2Proof.Machine
end

