-- ==== Sys2Proof/Machine/Dispatch.lean ====
section
/-! DEFINITION. Sys2Proof/Machine/Dispatch.lean: one arm per command (`30_encoding.md` rule R92). -/

namespace Sys2Proof.Machine

def exec (i : Instr) (s : State) : Host.Outcome State Fault Refusal :=
  match i with
  | .nop => Sys2Proof.Machine.execNop s
  | .reset => Sys2Proof.Machine.execReset s
  | .clrErr => Sys2Proof.Machine.execClrErr s
  | .setParams => Sys2Proof.Machine.execSetParams s
  | .setAttack => Sys2Proof.Machine.execSetAttack s
  | .setDecay => Sys2Proof.Machine.execSetDecay s
  | .setSustain => Sys2Proof.Machine.execSetSustain s
  | .setRelease => Sys2Proof.Machine.execSetRelease s
  | .setSampleRate => Sys2Proof.Machine.execSetSampleRate s
  | .loadSource => Sys2Proof.Machine.execLoadSource s
  | .setFreq => Sys2Proof.Machine.execSetFreq s
  | .noteOn => Sys2Proof.Machine.execNoteOn s
  | .noteOff => Sys2Proof.Machine.execNoteOff s
  | .envTick => Sys2Proof.Machine.execEnvTick s
  | .grTick => Sys2Proof.Machine.execGrTick s
  | .voiceTick => Sys2Proof.Machine.execVoiceTick s
  | .envApply => Sys2Proof.Machine.execEnvApply s
  | .voiceFill => Sys2Proof.Machine.execVoiceFill s

end Sys2Proof.Machine
end

