-- ==== Sys2Proof/Machine/Step.lean ====
section
/-! DEFINITION. Sys2Proof/Machine/Step.lean: one step of the machine is one thing the host does to it: one bus transaction,
complete with the command it carries, or the hardware reset input (`20_memory.md` rule R60, `10_state.md` rule
R20). -/

namespace Sys2Proof.Machine

/-- One step: take the first pending host input; run the command it carries, reject an illegal command word, or do
the plain access. With nothing pending the core waits and nothing changes (`10_state.md` R20; log 1). -/
def step (s : State) : Host.Outcome State Fault Refusal :=
  match s.pending with
  | [] => .next s
  | x :: rest =>
    match commandWordOf s.par x with
    | none => .next (plainInput x (s.setPending rest))
    | some w =>
      match decode w with
      | .ok i => exec i (s.setPending rest)
      | .error _ => .next (illegalCommand (s.setPending rest))

/-- `s` with the opcode-table word `w` of `nbits` bits as the very next thing the host does: a `WRITE` of it to `CMD`
(`30_encoding.md` R90, R97; log 2). -/
def State.withFetchWord (s : State) (nbits w : Nat) : State :=
  s.setPending (.write cmdAddr (tableWord nbits w) :: s.pending)

end Sys2Proof.Machine
end

