-- ==== Sys2Proof/Machine/HostProgram.lean ====
section
/-! DEFINITION. Sys2Proof/Machine/HostProgram.lean: the lines and pseudo-instructions of a host program as lists of bus
transactions (`30_encoding.md` rules R97 and R98). The text of the lines is not modelled (log 17). -/

namespace Sys2Proof.Machine.HostProgram

/-- `WR <target>, <value>` (`30_encoding.md` R97). -/
def wr (t : Target) (v : Word) : HostInput :=
  .write (targetAddr t) v

/-- `RD <target>` (`30_encoding.md` R97). -/
def rd (t : Target) : HostInput :=
  .read (targetAddr t)

/-- `CMD <mnemonic>` (`30_encoding.md` R97). -/
def cmd (i : Instr) : HostInput :=
  .write cmdAddr (encode i)

/-- `NOTEON x` (`30_encoding.md` R98). -/
def noteOnLine (x : Word) : List HostInput := [wr (.reg .arg0) x, cmd .noteOn]
/-- `NOTEOFF` (`30_encoding.md` R98). -/
def noteOffLine : List HostInput := [cmd .noteOff]
/-- `FREQ x` (`30_encoding.md` R98). -/
def freqLine (x : Word) : List HostInput := [wr (.reg .arg0) x, cmd .setFreq]
/-- `ATTACK x` (`30_encoding.md` R98). -/
def attackLine (x : Word) : List HostInput := [wr (.reg .pAttack) x, cmd .setAttack]
/-- `DECAY x` (`30_encoding.md` R98). -/
def decayLine (x : Word) : List HostInput := [wr (.reg .pDecay) x, cmd .setDecay]
/-- `SUSTAIN x` (`30_encoding.md` R98). -/
def sustainLine (x : Word) : List HostInput := [wr (.reg .pSustain) x, cmd .setSustain]
/-- `RELEASE x` (`30_encoding.md` R98). -/
def releaseLine (x : Word) : List HostInput := [wr (.reg .pRelease) x, cmd .setRelease]
/-- The row of `43_voice.md` R183 for `setAttack(v)`, `setDecay(v)`, `setSustain(v)` and `setRelease(v)`, transaction by
transaction as the row writes it. Each has the effect its own rule gives it: `ARG0 = v` is a plain write, and the command
reads what `30_encoding.md` R91 says it reads, as `10_state.md` R21 rules: its `P_*` register, and not `ARG0` (log 18). -/
def setterRow (i : Instr) (v : Word) : List HostInput :=
  [wr (.reg .arg0) v, cmd i]
/-- `setAttack(v)` and its like in full, committing `v`: the transactions of R183's row with the write of the register `p`,
one of `P_ATTACK`, `P_DECAY`, `P_SUSTAIN`, `P_RELEASE`, that R98's line for the same source operation has (log 18). -/
def setterOperation (p : Reg) (i : Instr) (v : Word) : List HostInput :=
  [wr (.reg .arg0) v, wr (.reg p) v, cmd i]
/-- `PARAMS a, d, s, r, m, res, shape` (`30_encoding.md` R98). -/
def paramsLine (p : ParamSet) : List HostInput :=
  [wr (.reg .pAttack) p.attack, wr (.reg .pDecay) p.decay, wr (.reg .pSustain) p.sustain,
    wr (.reg .pRelease) p.release, wr (.reg .pMaxamp) p.maxamp, wr (.reg .pRes) p.res,
    wr (.reg .pShape) p.shape, cmd .setParams]
/-- `SRATE d` (`30_encoding.md` R98). -/
def srateLine (d : DWord) : List HostInput :=
  [wr (.reg .pSrLo) (d.extractLsb' 0 32), wr (.reg .pSrHi) (d.extractLsb' 32 32), cmd .setSampleRate]
/-- `SOURCE len, hz` (`30_encoding.md` R98). -/
def sourceLine (len hz : Word) : List HostInput :=
  [wr (.reg .pSrcLen) len, wr (.reg .pGrainHz) hz, cmd .loadSource]
/-- `APPLY start, n` (`30_encoding.md` R98). -/
def applyLine (start n : Word) : List HostInput := [wr (.reg .arg0) start, wr (.reg .arg1) n, cmd .envApply]
/-- `FILL start, n` (`30_encoding.md` R98). -/
def fillLine (start n : Word) : List HostInput := [wr (.reg .arg0) start, wr (.reg .arg1) n, cmd .voiceFill]
/-- `SAMPLE` (`30_encoding.md` R98). -/
def sampleLine : List HostInput := [cmd .voiceTick, rd (.reg .voiceOut)]
/-- `ISACTIVE` (`30_encoding.md` R98): bit 3 of the word read. -/
def isActiveLine : List HostInput := [rd (.reg .status)]

end Sys2Proof.Machine.HostProgram
end

