-- ==== Sys2Proof/Safety.lean ====
section
/-! DEFINITION. Sys2Proof/Safety.lean: what counts as a sound state of the machine, and the vocabulary of the statements:
the invariants of `10_state.md` rules R34, R37 and R42, runs of commands, and what a configuration leaves. -/

namespace Sys2Proof.Machine

/-! ## Invariants -/

/-- The configuration is consistent (`10_state.md` R27, R29, R42): `CFG_VALID = PARAMS_VALID and SR_VALID`; what the valid
bits vouch for is valid; and the step rates are those of the active parameters and sample rate. -/
structure ConfigInv (a : Active) : Prop where
  cfgValid_eq : a.cfgValid = (a.paramsValid && a.srValid)
  params_valid : a.paramsValid = true → validate a.params = none
  sr_valid : a.srValid = true → sampleRateOk a.sr = true
  steps_eq : a.cfgValid = true → stepRates a.sr a.params = some a.steps

/-- The envelope invariants of `10_state.md` R34. -/
structure EnvInv (a : Active) (e : Env) : Prop where
  idle_amp : e.stage = .idle → e.amp = posZero32
  active_configured : e.stage ≠ .idle → a.cfgValid = true
  idx_le : a.cfgValid = true → ∀ g, (e.segs.get g).idx ≤ a.params.resolution - 1
  elapsed_lt : a.cfgValid = true → ∀ g, (e.segs.get g).elapsed < a.steps.get g

/-- The cursor of ring slot `j`. -/
def cursor (g : Grain) (j : Nat) : Nat :=
  g.cur.getD j 0

/-- The active cursors, oldest first (`10_state.md` R36). -/
def activeCursors (cap : Nat) (g : Grain) : List Nat :=
  (activeSlots cap g).map (cursor g)

/-- The ring invariants of `10_state.md` R36 and R37. `oldest_first` and `in_source` are R37's; `started` (between two
commands no active cursor stands at 0, since the tick that pushes a cursor also advances it) is what makes them
inductive, and is the model's own inference from `42_grain.md` R163. -/
structure RingInv (p : Config.Params) (g : Grain) : Prop where
  len_le : g.len ≤ p.lmax
  slots : g.cur.length = p.cap
  cur_le : ∀ c ∈ g.cur, c ≤ g.len
  head_lt : g.head < p.cap
  count_le : g.count ≤ p.cap
  tail_eq : g.tail = (g.head + g.count) % p.cap
  oldest_first : (activeCursors p.cap g).Pairwise (· > ·)
  in_source : ∀ c ∈ activeCursors p.cap g, c < g.len
  started : ∀ c ∈ activeCursors p.cap g, 1 ≤ c

/-- A sound state: the parameters within the bounds of `00_scope.md` R5, memory in canonical form, and the three
invariants. It holds at reset and every step keeps it. -/
structure Sound (s : State) : Prop where
  par : s.par.wellFormed = true
  ram : Memory.wf s.ram = true
  config : ConfigInv s.active
  env : EnvInv s.active s.env
  ring : RingInv s.par s.grain

/-- The tables in force are those of the active parameters: every entry `0..R` of a segment whose shape is built in
holds the value `40_config_tables.md` R111 and R112 give it, whatever `RAW` holds now. -/
def TablesBuilt (s : State) : Prop :=
  s.active.cfgValid = true → ∀ g i, i ≤ s.active.params.resolution → s.active.params.selector g < 2 →
    s.tab g i = tableEntry s.active.params (fun _ _ => 0) s.active.steps g i

/-! ## Runs -/

/-- Commands one after another, stopping at the first that gives no next state. -/
def execAll : List Instr → State → Host.Outcome State Fault Refusal
  | [], s => .next s
  | i :: is, s =>
    match exec i s with
    | .next t => execAll is t
    | .fault r => .fault r
    | .refused r => .refused r

/-- `k` steps of the machine. -/
def runSteps (k : Nat) (s : State) : Host.Outcome State Fault Refusal :=
  Sys2Proof.core.run k s

/-- The host does `x` on a core with nothing else pending. -/
def hostDo (x : HostInput) (s : State) : Host.Outcome State Fault Refusal :=
  step { s with pending := [x] }

/-- `n` times from buffer index `i` on: `VOICE_TICK`, then a host write of `VOICE_OUT` to `BUF[i]` (`43_voice.md` R182). -/
def fillByHand : Nat → Nat → State → Host.Outcome State Fault Refusal
  | 0, _, s => .next s
  | n + 1, i, s =>
    match hostDo (HostProgram.cmd .voiceTick) s with
    | .next u =>
      match hostDo (HostProgram.wr (.ram .buf i) u.results.voice) u with
      | .next v => fillByHand n (i + 1) v
      | .fault r => .fault r
      | .refused r => .refused r
    | .fault r => .fault r
    | .refused r => .refused r

/-- `n` times from buffer index `i` on: `ENV_TICK`, then a host write to `BUF[i]` of the word that stood there times
`ENV_OUT`, or of `+0.0` when the stage before the tick was Idle (`41_envelope.md` R139). -/
def applyByHand : Nat → Nat → State → Host.Outcome State Fault Refusal
  | 0, _, s => .next s
  | n + 1, i, s =>
    match hostDo (HostProgram.cmd .envTick) s with
    | .next u =>
      match hostDo (HostProgram.wr (.ram .buf i)
          (if s.env.stage = .idle then posZero32 else mul32 (s.buf i) u.results.env)) u with
      | .next v => applyByHand n (i + 1) v
      | .fault r => .fault r
      | .refused r => .refused r
    | .fault r => .fault r
    | .refused r => .refused r

/-- `env_next()` as the literal loop of `41_envelope.md` R134, with at most `fuel` passes of its body; `none` if it
would run on. -/
def envLoop (tab : Segment → Nat → Word) (a : Active) : Nat → Env → Option (Word × Env)
  | 0, _ => none
  | fuel + 1, e =>
    match e.stage with
    | .idle => some (posZero32, e)
    | .attack =>
      if ge32 e.amp a.params.maxamp then
        envLoop tab a fuel (segEnter tab a .decay { e with amp := a.params.maxamp, stage := .decay })
      else some ((segStep tab a .attack e).amp, segStep tab a .attack e)
    | .decay =>
      if le32 e.amp a.params.sustain then
        envLoop tab a fuel { e with amp := a.params.sustain, stage := .sustain }
      else some ((segStep tab a .decay e).amp, segStep tab a .decay e)
    | .sustain => some (a.params.sustain, { e with amp := a.params.sustain })
    | .release =>
      if le32 (segStep tab a .release e).amp posZero32 then
        some (posZero32, { segStep tab a .release e with amp := posZero32, stage := .idle })
      else some ((segStep tab a .release e).amp, segStep tab a .release e)

/-! ## Numbers -/

/-- The number a pattern of a binary format stands for, in units of the format's least subnormal, read from its sign,
exponent and fraction fields (`00_scope.md` R8): fraction `m` with exponent field 0 is `m` units, with exponent field
`e > 0` it is `(2^fracBits + m) · 2^(e−1)` units. By the same formula an infinity is one binade above every finite
number; of a NaN it says nothing. -/
def fieldsValue (expBits fracBits w : Nat) : Int :=
  let e := w / 2 ^ fracBits % 2 ^ expBits
  let m := w % 2 ^ fracBits
  let u := if e = 0 then m else (2 ^ fracBits + m) * 2 ^ (e - 1)
  if w / 2 ^ (expBits + fracBits) = 1 then -(u : Int) else u

/-- The number an `f32` stands for, in units of `2^−149` (`00_scope.md` R8). -/
def value32 (a : Word) : Int :=
  fieldsValue 8 23 a.toNat

/-- The number an `f64` stands for, in units of `2^−1074` (`00_scope.md` R8). -/
def value64 (a : DWord) : Int :=
  fieldsValue 11 52 a.toNat

/-- The `f32` zero a product or quotient of `a` and `b` is when it is a zero: negative when the signs differ. -/
def signedZero32 (a b : Word) : Word :=
  if a.toNat / 2 ^ 31 = b.toNat / 2 ^ 31 then 0x00000000#32 else 0x80000000#32

/-- The `f64` zero a product or quotient of `a` and `b` is when it is a zero: negative when the signs differ. -/
def signedZero64 (a b : DWord) : DWord :=
  if a.toNat / 2 ^ 63 = b.toNat / 2 ^ 63 then 0x0000000000000000#64 else 0x8000000000000000#64

/-- `r` is the `f32` nearest the number `n / d`, counted in units of `2^−149`, ties to even (`00_scope.md` R9; log 7): no
number of the format is nearer, and where another one is as near, `r` is the one with an even last bit. An infinity
takes part as the number one binade above the finite ones, `2^128`, which is where IEEE 754 puts the overflow. -/
def Nearest32 (n : Int) (d : Nat) (r : Word) : Prop :=
  r.toNat % 2 ^ 31 ≤ 0x7F800000 ∧
  ∀ w : Word, w.toNat % 2 ^ 31 ≤ 0x7F800000 →
    (n - value32 r * d).natAbs ≤ (n - value32 w * d).natAbs ∧
    ((n - value32 r * d).natAbs = (n - value32 w * d).natAbs → value32 w = value32 r ∨ r.toNat % 2 = 0)

/-- `r` is the `f64` nearest the number `n / d`, counted in units of `2^−1074`, ties to even (`00_scope.md` R9; log 7), an
infinity taking part as `2^1024`. -/
def Nearest64 (n : Int) (d : Nat) (r : DWord) : Prop :=
  r.toNat % 2 ^ 63 ≤ 0x7FF0000000000000 ∧
  ∀ w : DWord, w.toNat % 2 ^ 63 ≤ 0x7FF0000000000000 →
    (n - value64 r * d).natAbs ≤ (n - value64 w * d).natAbs ∧
    ((n - value64 r * d).natAbs = (n - value64 w * d).natAbs → value64 w = value64 r ∨ r.toNat % 2 = 0)

/-! ## What a command leaves -/

/-- A rejected transaction: `t` is `s` with `ERR` set, `ERRCODE` the code, response `ERROR`, and nothing else changed
(`60_exceptions.md` R202). -/
def RejectedAs (c : ErrCode) (s t : State) : Prop :=
  t = { s with error := ⟨true, c⟩, response := some ⟨false, 0⟩ }

/-- The word at bus address `a` as a read would return it: what was written there, else the address's free value. -/
def wordAt (s : State) (a : Nat) : Word :=
  (Memory.read s.ram a).getD (Config.powerOnWord s.era a)

/-- `a` is the address of an entry `0..R` of some table. -/
def IsTableAddr (res a : Nat) : Prop :=
  ∃ g i, i ≤ res ∧ a = ramAddr (.tab g) i

/-- `a` is the address of a word of `BUF[start .. start+n−1]`. -/
def IsBufAddr (start n a : Nat) : Prop :=
  ∃ i, start ≤ i ∧ i < start + n ∧ a = ramAddr .buf i

/-- `t` is `s` with parameters `p`, sample rate `sr` and step rates `steps` in force: all three tables rebuilt from the
shapes, the valid bits set, the envelope reset, response `OKAY`, every other word of memory and every other
register as it was (`40_config_tables.md` R112, R114, R115). -/
structure Configured (p : ParamSet) (sr : DWord) (steps : PerSeg Nat) (s t : State) : Prop where
  tables : ∀ g i, i ≤ p.resolution →
    t.tab g i = div32
      (match p.selector g with
        | 0 => div32 (nat32 i) (nat32 p.resolution)
        | 1 => neg32 (div32 (nat32 i) (nat32 p.resolution))
        | _ => s.raw g i)
      (nat32 (steps.get g))
  otherWords : ∀ a, ¬ IsTableAddr p.resolution a → wordAt t a = wordAt s a
  otherState : ∃ m, t = { s with
    ram := m
    active := { params := p, sr := sr, steps := steps, paramsValid := true, srValid := true, cfgValid := true }
    env := { stage := .idle, amp := 0, segs := ⟨⟨0, 0, 0⟩, ⟨0, 0, 0⟩, ⟨0, 0, 0⟩⟩, relStart := 0 }
    response := some ⟨true, 0⟩ }

/-- What a command that commits the parameter set `cand s` does (`40_config_tables.md` R113, R114; R117 where `guarded`, for
which a parameter set must be active): a rejection leaves only `ERR` and `ERRCODE`; without a sample rate the set
is stored and the envelope reset; with one the whole configuration is installed. -/
structure CommitSpec (i : Instr) (guarded : Bool) (cand : State → ParamSet) : Prop where
  noConfig : ∀ s, guarded = true → s.active.paramsValid = false →
    ∃ t, exec i s = .next t ∧ RejectedAs .eNocfg s t
  invalid : ∀ s c, (guarded = true → s.active.paramsValid = true) → validate (cand s) = some c →
    ∃ t, exec i s = .next t ∧ RejectedAs c s t
  overflow : ∀ s, (guarded = true → s.active.paramsValid = true) → validate (cand s) = none →
    s.active.srValid = true → stepRates s.active.sr (cand s) = none →
    ∃ t, exec i s = .next t ∧ RejectedAs .eStep s t
  stored : ∀ s, (guarded = true → s.active.paramsValid = true) → validate (cand s) = none →
    s.active.srValid = false →
    exec i s = .next { s with
      active := { s.active with params := cand s, paramsValid := true }
      env := { stage := .idle, amp := 0, segs := ⟨⟨0, 0, 0⟩, ⟨0, 0, 0⟩, ⟨0, 0, 0⟩⟩, relStart := 0 }
      response := some ⟨true, 0⟩ }
  installed : ∀ s steps, (guarded = true → s.active.paramsValid = true) → validate (cand s) = none →
    s.active.srValid = true → stepRates s.active.sr (cand s) = some steps →
    ∃ t, exec i s = .next t ∧ Configured (cand s) s.active.sr steps s t

/-- Two states the sample path cannot tell apart: they differ at most in the staging registers, in `RAW`, in the
error registers and in the latest response (`20_memory.md` R73). -/
structure SameToSamplePath (s t : State) : Prop where
  words : ∀ r i, (∀ g, r ≠ Region.raw g) → s.ramWord r i = t.ramWord r i
  rest : ∃ m, t = { s with ram := m, staging := t.staging, error := t.error, response := t.response }

/-- The commands of the sample path (`20_memory.md` R73). -/
def samplePath : List Instr :=
  [.envTick, .grTick, .voiceTick, .envApply, .voiceFill, .noteOn, .noteOff]

end Sys2Proof.Machine
end

