-- ==== Sys2Proof/Certificates/Slice0/Obligations.lean ====
section
/-! DEFINITION. Sys2Proof/Certificates/Slice0/Obligations.lean: the statements for the provers, from the numbered rules of the
spec. Each docstring names the rules it formalises and what, if anything, is the model's own choice. -/

open Sys2Proof Sys2Proof.Machine

/-! ## Encoding and stepping -/

/-- R60, R90. A `WRITE` to `CMD` (address `0x000000`) of a word that decodes to `i` is one step that runs `i`; the step adds
only that the transaction is no longer pending. That the host's transactions stand in `pending` is the model's
choice (log 1). -/
def Obligations.StepRunsDecodedCommand : Prop :=
  ∀ (s : State) (w : Word) (rest : List HostInput) (i : Instr),
    s.pending = .write 0x000000#24 w :: rest → decode w = .ok i →
    step s = exec i { s with pending := rest }

/-- R93. Every illegal command word, by the rule's own list, is rejected with `E_CMD` (12) and no other effect. -/
def Obligations.IllegalCommandWordRejected : Prop :=
  ErrCode.code .eCmd = 12 ∧
  ∀ (s : State) (w : Word) (rest : List HostInput),
    s.pending = .write 0x000000#24 w :: rest →
    (w.toNat / 256 ≠ 0 ∨
      (0x03 ≤ w.toNat % 256 ∧ w.toNat % 256 ≤ 0x0F) ∨ w.toNat % 256 = 0x16 ∨ w.toNat % 256 = 0x17 ∨
      (0x1A ≤ w.toNat % 256 ∧ w.toNat % 256 ≤ 0x1F) ∨ (0x22 ≤ w.toNat % 256 ∧ w.toNat % 256 ≤ 0x2F) ∨
      (0x33 ≤ w.toNat % 256 ∧ w.toNat % 256 ≤ 0x37) ∨ 0x3A ≤ w.toNat % 256) →
    step s = .next { s with pending := rest, error := ⟨true, .eCmd⟩, response := some ⟨false, 0⟩ }

/-- R92. The 18 command words of the opcode map. -/
def Obligations.OpcodeMapDecodes : Prop :=
  decode 0x00000000#32 = .ok .nop ∧ decode 0x00000001#32 = .ok .reset ∧ decode 0x00000002#32 = .ok .clrErr ∧
  decode 0x00000010#32 = .ok .setParams ∧ decode 0x00000011#32 = .ok .setAttack ∧
  decode 0x00000012#32 = .ok .setDecay ∧ decode 0x00000013#32 = .ok .setSustain ∧
  decode 0x00000014#32 = .ok .setRelease ∧ decode 0x00000015#32 = .ok .setSampleRate ∧
  decode 0x00000018#32 = .ok .loadSource ∧ decode 0x00000019#32 = .ok .setFreq ∧
  decode 0x00000020#32 = .ok .noteOn ∧ decode 0x00000021#32 = .ok .noteOff ∧
  decode 0x00000030#32 = .ok .envTick ∧ decode 0x00000031#32 = .ok .grTick ∧ decode 0x00000032#32 = .ok .voiceTick ∧
  decode 0x00000038#32 = .ok .envApply ∧ decode 0x00000039#32 = .ok .voiceFill

/-- R90, R92, R93. Over all `2^32` words: a word decodes to a command exactly when it is that command's word. -/
def Obligations.DecodeExactlyEncodedWords : Prop :=
  ∀ (w : Word) (i : Instr), decode w = .ok i ↔ w = encode i

/-! ## The bus and the registers -/

/-- R43, R60, R65. A `READ` of any register or RAM word is accepted, returns its value, and changes nothing else. The first
clause writes out the register map's `holds` column: the state element each of the 44 offsets shows (`CMD` reads as 0). -/
def Obligations.ReadReturnsValueAndChangesNothing : Prop :=
  (∀ (s : State) (rest : List HostInput) (x : Nat × Word),
    x ∈ [(0x00, 0), (0x01, statusWord s), (0x02, errcodeWord s), (0x03, BitVec.ofNat 32 s.par.cap),
      (0x04, s.args.arg0), (0x05, s.args.arg1), (0x06, s.results.env), (0x07, s.results.gr), (0x08, s.results.voice),
      (0x09, s.env.amp), (0x0A, BitVec.ofNat 32 s.grain.count), (0x0B, BitVec.ofNat 32 s.grain.head),
      (0x0C, BitVec.ofNat 32 s.grain.tail), (0x0D, s.grain.trig), (0x0E, s.grain.acc),
      (0x10, s.staging.params.attack), (0x11, s.staging.params.decay), (0x12, s.staging.params.sustain),
      (0x13, s.staging.params.release), (0x14, s.staging.params.maxamp), (0x15, s.staging.params.res),
      (0x16, s.staging.params.shape), (0x17, s.staging.srLo), (0x18, s.staging.srHi), (0x19, s.staging.srcLen),
      (0x1A, s.staging.grainHz),
      (0x20, s.active.params.attack), (0x21, s.active.params.decay), (0x22, s.active.params.sustain),
      (0x23, s.active.params.release), (0x24, s.active.params.maxamp), (0x25, s.active.params.res),
      (0x26, s.active.params.shape), (0x27, s.active.sr.extractLsb' 0 32), (0x28, s.active.sr.extractLsb' 32 32),
      (0x29, BitVec.ofNat 32 s.grain.len), (0x2A, s.grain.hz), (0x2B, s.grain.freq), (0x2C, s.noteAmp),
      (0x2D, BitVec.ofNat 32 s.active.steps.attack), (0x2E, BitVec.ofNat 32 s.active.steps.decay),
      (0x2F, BitVec.ofNat 32 s.active.steps.release), (0x30, BitVec.ofNat 32 s.par.lmax),
      (0x31, BitVec.ofNat 32 s.par.bmax)] →
    s.pending = .read (BitVec.ofNat 24 x.1) :: rest →
    step s = .next { s with pending := rest, response := some ⟨true, x.2⟩ }) ∧
  (∀ (s : State) (rest : List HostInput) (r : Reg),
    s.pending = .read (BitVec.ofNat 24 r.offset) :: rest →
    step s = .next { s with pending := rest, response := some ⟨true, r.read s⟩ }) ∧
  (∀ (s : State) (rest : List HostInput) (r : Region) (i : Nat),
    s.par.wellFormed = true → i < r.size s.par →
    s.pending = .read (BitVec.ofNat 24 (ramAddr r i)) :: rest →
    step s = .next { s with pending := rest, response := some ⟨true, wordAt s (ramAddr r i)⟩ })

/-- R21, R26, R43, R65. A `WRITE` of an RW register stores all 32 bits, whatever they are, and changes no other register, no
RAM word and no hidden state. The second clause writes out the register map's `holds` column for the 13 RW offsets: the
state element each of them stores to, all the rest of the state unchanged. -/
def Obligations.WriteStoresRegister : Prop :=
  (∀ (s : State) (rest : List HostInput) (r : Reg) (v : Word),
    r.access = .readWrite → s.pending = .write (BitVec.ofNat 24 r.offset) v :: rest →
    ∃ t, step s = .next t ∧ r.read t = v ∧ (∀ r', r' ≠ r → r'.read t = r'.read s) ∧
      t = { s with args := t.args, staging := t.staging, pending := rest, response := some ⟨true, 0⟩ }) ∧
  (∀ (s : State) (rest : List HostInput) (v : Word) (x : Nat × Args × Staging),
    x ∈ [(0x04, { s.args with arg0 := v }, s.staging), (0x05, { s.args with arg1 := v }, s.staging),
      (0x10, s.args, { s.staging with params := { s.staging.params with attack := v } }),
      (0x11, s.args, { s.staging with params := { s.staging.params with decay := v } }),
      (0x12, s.args, { s.staging with params := { s.staging.params with sustain := v } }),
      (0x13, s.args, { s.staging with params := { s.staging.params with release := v } }),
      (0x14, s.args, { s.staging with params := { s.staging.params with maxamp := v } }),
      (0x15, s.args, { s.staging with params := { s.staging.params with res := v } }),
      (0x16, s.args, { s.staging with params := { s.staging.params with shape := v } }),
      (0x17, s.args, { s.staging with srLo := v }), (0x18, s.args, { s.staging with srHi := v }),
      (0x19, s.args, { s.staging with srcLen := v }), (0x1A, s.args, { s.staging with grainHz := v })] →
    s.pending = .write (BitVec.ofNat 24 x.1) v :: rest →
    step s = .next { s with
      args := x.2.1, staging := x.2.2, pending := rest, response := some ⟨true, 0⟩ })

/-- R61, R65. A `WRITE` of a word of `RAW`, `SRC` or `BUF` stores it and changes no other word and no register. -/
def Obligations.WriteStoresRamWord : Prop :=
  ∀ (s : State) (rest : List HostInput) (r : Region) (i : Nat) (v : Word),
    s.par.wellFormed = true → (∀ g, r ≠ .tab g) → i < r.size s.par →
    s.pending = .write (BitVec.ofNat 24 (ramAddr r i)) v :: rest →
    ∃ t, step s = .next t ∧ wordAt t (ramAddr r i) = v ∧
      (∀ a, a ≠ ramAddr r i → wordAt t a = wordAt s a) ∧
      t = { s with ram := t.ram, pending := rest, response := some ⟨true, 0⟩ }

/-- R71 (a). A `READ` right after an accepted `WRITE` of the same RW register or RAM word returns the word written. -/
def Obligations.ReadAfterWriteReturnsWord : Prop :=
  (∀ (s : State) (rest : List HostInput) (r : Reg) (v : Word), r.access = .readWrite →
    s.pending = .write (BitVec.ofNat 24 r.offset) v :: .read (BitVec.ofNat 24 r.offset) :: rest →
    ∃ t, runSteps 2 s = .next t ∧ t.response = some ⟨true, v⟩ ∧ t.pending = rest) ∧
  (∀ (s : State) (rest : List HostInput) (r : Region) (i : Nat) (v : Word),
    s.par.wellFormed = true → (∀ g, r ≠ .tab g) → i < r.size s.par →
    s.pending = .write (BitVec.ofNat 24 (ramAddr r i)) v :: .read (BitVec.ofNat 24 (ramAddr r i)) :: rest →
    ∃ t, runSteps 2 s = .next t ∧ t.response = some ⟨true, v⟩ ∧ t.pending = rest)

/-- R66. A `WRITE` to a read-only register or to `TAB_A`, `TAB_D`, `TAB_R` is rejected with `E_RO` (14) and stores nothing;
a `READ` of `CMD` returns 0 with `OKAY`. -/
def Obligations.ReadOnlyWriteRejected : Prop :=
  ErrCode.code .eRo = 14 ∧
  (∀ (s : State) (rest : List HostInput) (r : Reg) (v : Word),
    r.access = .readOnly → s.pending = .write (BitVec.ofNat 24 r.offset) v :: rest →
    step s = .next { s with pending := rest, error := ⟨true, .eRo⟩, response := some ⟨false, 0⟩ }) ∧
  (∀ (s : State) (rest : List HostInput) (g : Segment) (i : Nat) (v : Word),
    i ≤ 4096 → s.pending = .write (BitVec.ofNat 24 (ramAddr (.tab g) i)) v :: rest →
    step s = .next { s with pending := rest, error := ⟨true, .eRo⟩, response := some ⟨false, 0⟩ }) ∧
  (∀ (s : State) (rest : List HostInput), s.pending = .read 0x000000#24 :: rest →
    step s = .next { s with pending := rest, response := some ⟨true, 0⟩ })

/-- R61, R43, R67. An access to a reserved region, to an offset beyond its region or to an unlisted register offset is
rejected with `E_ADDR` (13), read or write. -/
def Obligations.UnmappedAccessRejected : Prop :=
  ErrCode.code .eAddr = 13 ∧
  ∀ (s : State) (rest : List HostInput) (a : Addr) (v : Word),
    (9 ≤ a.toNat / 2 ^ 20 ∨
      (1 ≤ a.toNat / 2 ^ 20 ∧ a.toNat / 2 ^ 20 ≤ 6 ∧ 4097 ≤ a.toNat % 2 ^ 20) ∨
      (a.toNat / 2 ^ 20 = 7 ∧ s.par.lmax ≤ a.toNat % 2 ^ 20) ∨
      (a.toNat / 2 ^ 20 = 8 ∧ s.par.bmax ≤ a.toNat % 2 ^ 20) ∨
      (a.toNat / 2 ^ 20 = 0 ∧ (a.toNat % 2 ^ 20 = 0x0F ∨
        (0x1B ≤ a.toNat % 2 ^ 20 ∧ a.toNat % 2 ^ 20 ≤ 0x1F) ∨ 0x32 ≤ a.toNat % 2 ^ 20))) →
    (s.pending = .read a :: rest ∨ s.pending = .write a v :: rest) →
    step s = .next { s with pending := rest, error := ⟨true, .eAddr⟩, response := some ⟨false, 0⟩ }

/-- R24, R25, R201. The fields of `STATUS` and `ERRCODE` as a host reads them, with the five stage codes and the 15 rejection
codes as numbers. -/
def Obligations.StatusFieldsReadBack : Prop :=
  ∀ s : State,
    (statusWord s).toNat % 8 = (match s.env.stage with
      | .idle => 0 | .attack => 1 | .decay => 2 | .sustain => 3 | .release => 4) ∧
    ((statusWord s).toNat / 8 % 2 = 1 ↔ s.env.stage ≠ .idle) ∧
    ((statusWord s).toNat / 16 % 2 = 1 ↔ s.active.paramsValid = true) ∧
    ((statusWord s).toNat / 32 % 2 = 1 ↔ s.active.srValid = true) ∧
    ((statusWord s).toNat / 64 % 2 = 1 ↔ s.active.cfgValid = true) ∧
    ((statusWord s).toNat / 128 % 2 = 1 ↔ s.error.err = true) ∧
    (statusWord s).toNat / 256 = 0 ∧
    (errcodeWord s).toNat = (match s.error.code with
      | .none => 0 | .eRes => 1 | .eSr => 2 | .eDuration => 3 | .eMaxamp => 4 | .eSustain => 5 | .eShape => 6
      | .eStep => 7 | .eNocfg => 8 | .eFreq => 9 | .eSrclen => 10 | .eRange => 11 | .eCmd => 12 | .eAddr => 13
      | .eRo => 14)

/-! ## Reset -/

/-- R230 (a), R231. The hardware reset input puts every state element at its reset value, whatever the state. That it is
an entry of `pending`, has no response and starts a new era of unwritten RAM is the model's choice (logs 1, 5, 9). -/
def Obligations.HardwareResetState : Prop :=
  ∀ (s : State) (rest : List HostInput), s.pending = .hardReset :: rest →
    step s = .next
      { par := s.par
        args := ⟨0, 0⟩
        results := ⟨0, 0, 0⟩
        staging := { params := ⟨0, 0, 0, 0, 0, 0, 0x14#32⟩, srLo := 0, srHi := 0, srcLen := 0, grainHz := 0 }
        active := { params := ⟨0, 0, 0, 0, 0, 0, 0⟩, sr := 0, steps := ⟨0, 0, 0⟩, paramsValid := false,
                    srValid := false, cfgValid := false }
        env := { stage := .idle, amp := 0, segs := ⟨⟨0, 0, 0⟩, ⟨0, 0, 0⟩, ⟨0, 0, 0⟩⟩, relStart := 0 }
        grain := { len := 0, hz := 0, freq := 0, trig := 0x7F800000#32, acc := 0, head := 0, tail := 0, count := 0,
                   cur := List.replicate s.par.cap 0 }
        noteAmp := 0
        error := ⟨false, .none⟩
        ram := []
        era := s.era + 1
        pending := rest
        response := none }

/-- R191, R231. `RESET` (word `0x00000001`): every register and hidden element takes its reset value, the RAM arrays and the
constants are kept, and the command is accepted in every state. -/
def Obligations.ResetCommandState : Prop :=
  decode 0x00000001#32 = .ok .reset ∧
  ∀ s : State, exec .reset s = .next
    { s with
      args := ⟨0, 0⟩
      results := ⟨0, 0, 0⟩
      staging := { params := ⟨0, 0, 0, 0, 0, 0, 0x14#32⟩, srLo := 0, srHi := 0, srcLen := 0, grainHz := 0 }
      active := { params := ⟨0, 0, 0, 0, 0, 0, 0⟩, sr := 0, steps := ⟨0, 0, 0⟩, paramsValid := false,
                  srValid := false, cfgValid := false }
      env := { stage := .idle, amp := 0, segs := ⟨⟨0, 0, 0⟩, ⟨0, 0, 0⟩, ⟨0, 0, 0⟩⟩, relStart := 0 }
      grain := { len := 0, hz := 0, freq := 0, trig := 0x7F800000#32, acc := 0, head := 0, tail := 0, count := 0,
                 cur := List.replicate s.par.cap 0 }
      noteAmp := 0
      error := ⟨false, .none⟩
      response := some ⟨true, 0⟩ }

/-- R43, R231. The register map at reset, for any parameters: each listed offset holds the register the table names, with
the table's access and reset value; every other offset below `2^20` is unmapped. (The state element each register shows in
every state, and the one each RW register stores to: ReadReturnsValueAndChangesNothing, WriteStoresRegister.) -/
def Obligations.RegisterMapAtReset : Prop :=
  ∀ p : Config.Params,
    (∀ x ∈ ([(0x00, .cmd, .writeOnly, 0), (0x01, .status, .readOnly, 0), (0x02, .errcode, .readOnly, 0),
          (0x03, .cap, .readOnly, BitVec.ofNat 32 p.cap), (0x04, .arg0, .readWrite, 0), (0x05, .arg1, .readWrite, 0),
          (0x06, .envOut, .readOnly, 0), (0x07, .grOut, .readOnly, 0), (0x08, .voiceOut, .readOnly, 0),
          (0x09, .envAmp, .readOnly, 0), (0x0A, .grCount, .readOnly, 0), (0x0B, .grHead, .readOnly, 0),
          (0x0C, .grTail, .readOnly, 0), (0x0D, .trig, .readOnly, 0x7F800000#32), (0x0E, .acc, .readOnly, 0),
          (0x10, .pAttack, .readWrite, 0), (0x11, .pDecay, .readWrite, 0), (0x12, .pSustain, .readWrite, 0),
          (0x13, .pRelease, .readWrite, 0), (0x14, .pMaxamp, .readWrite, 0), (0x15, .pRes, .readWrite, 0),
          (0x16, .pShape, .readWrite, 0x14#32), (0x17, .pSrLo, .readWrite, 0), (0x18, .pSrHi, .readWrite, 0),
          (0x19, .pSrcLen, .readWrite, 0), (0x1A, .pGrainHz, .readWrite, 0),
          (0x20, .aAttack, .readOnly, 0), (0x21, .aDecay, .readOnly, 0), (0x22, .aSustain, .readOnly, 0),
          (0x23, .aRelease, .readOnly, 0), (0x24, .aMaxamp, .readOnly, 0), (0x25, .aRes, .readOnly, 0),
          (0x26, .aShape, .readOnly, 0), (0x27, .aSrLo, .readOnly, 0), (0x28, .aSrHi, .readOnly, 0),
          (0x29, .srcLen, .readOnly, 0), (0x2A, .grainHz, .readOnly, 0), (0x2B, .freq, .readOnly, 0),
          (0x2C, .noteAmp, .readOnly, 0), (0x2D, .stepA, .readOnly, 0), (0x2E, .stepD, .readOnly, 0),
          (0x2F, .stepR, .readOnly, 0), (0x30, .lmax, .readOnly, BitVec.ofNat 32 p.lmax),
          (0x31, .bmax, .readOnly, BitVec.ofNat 32 p.bmax)] : List (Nat × Reg × Access × Word)),
      regAt x.1 = some x.2.1 ∧ x.2.1.access = x.2.2.1 ∧ x.2.1.read (State.resetWith p) = x.2.2.2) ∧
    (∀ off, off = 0x0F ∨ (0x1B ≤ off ∧ off ≤ 0x1F) ∨ 0x32 ≤ off → regAt off = none)

/-- R34, R37, R42 at reset. The state after reset meets the model's invariants, whatever the open parameters are. -/
def Obligations.ResetMeetsInvariants : Prop :=
  Sound State.reset ∧ TablesBuilt State.reset

/-! ## System commands -/

/-- R190. `NOP` (word `0x00000000`) is accepted in every state and changes nothing. -/
def Obligations.NopChangesNothing : Prop :=
  decode 0x00000000#32 = .ok .nop ∧ ∀ s : State, exec .nop s = .next { s with response := some ⟨true, 0⟩ }

/-- R192. `CLR_ERR` (word `0x00000002`) clears `ERR` and `ERRCODE` and nothing else. -/
def Obligations.ClrErrClearsTheErrorRegisters : Prop :=
  decode 0x00000002#32 = .ok .clrErr ∧
  ∀ s : State, exec .clrErr s = .next { s with error := ⟨false, .none⟩, response := some ⟨true, 0⟩ }

/-! ## Configuration -/

/-- R113. `validate` accepts exactly the valid sets and reports the first failing check in the rule's order. -/
def Obligations.ValidateReportsFirstFailure : Prop :=
  ∀ p : ParamSet,
    let resOk : Prop := 2 ≤ p.res.toNat ∧ p.res.toNat ≤ 4096
    let durOk : Prop := (finite32 p.attack = true ∧ ge32 p.attack 0 = true) ∧
      (finite32 p.decay = true ∧ ge32 p.decay 0 = true) ∧ (finite32 p.release = true ∧ ge32 p.release 0 = true)
    let maxOk : Prop := finite32 p.maxamp = true ∧ gt32 p.maxamp 0 = true
    let susOk : Prop := finite32 p.sustain = true ∧ ge32 p.sustain 0 = true ∧ le32 p.sustain p.maxamp = true
    let shapeOk : Prop := p.shape.toNat < 64 ∧ p.shape.toNat % 4 ≠ 3 ∧ p.shape.toNat / 4 % 4 ≠ 3 ∧
      p.shape.toNat / 16 % 4 ≠ 3
    (validate p = none ↔ resOk ∧ durOk ∧ maxOk ∧ susOk ∧ shapeOk) ∧
    (validate p = some .eRes ↔ ¬ resOk) ∧
    (validate p = some .eDuration ↔ resOk ∧ ¬ durOk) ∧
    (validate p = some .eMaxamp ↔ resOk ∧ durOk ∧ ¬ maxOk) ∧
    (validate p = some .eSustain ↔ resOk ∧ durOk ∧ maxOk ∧ ¬ susOk) ∧
    (validate p = some .eShape ↔ resOk ∧ durOk ∧ maxOk ∧ susOk ∧ ¬ shapeOk)

/-- R116, R114, R112. `SET_PARAMS` (word `0x00000010`) commits the seven staging registers. -/
def Obligations.SetParamsCommitsStaging : Prop :=
  decode 0x00000010#32 = .ok .setParams ∧ CommitSpec .setParams false fun s => s.staging.params

/-- R117, R118, R119, R120. Each single-field setter commits the active set with its own staged field, and is rejected with
`E_NOCFG` while no set is active. That the operand is the `P_*` register those rules and R91 name, and not the `ARG0`
of R183's table, is the model's reading (log 18). -/
def Obligations.FieldSettersCommitOneField : Prop :=
  (decode 0x00000011#32 = .ok .setAttack ∧
    CommitSpec .setAttack true fun s => { s.active.params with attack := s.staging.params.attack }) ∧
  (decode 0x00000012#32 = .ok .setDecay ∧
    CommitSpec .setDecay true fun s => { s.active.params with decay := s.staging.params.decay }) ∧
  (decode 0x00000013#32 = .ok .setSustain ∧
    CommitSpec .setSustain true fun s => { s.active.params with sustain := s.staging.params.sustain }) ∧
  (decode 0x00000014#32 = .ok .setRelease ∧
    CommitSpec .setRelease true fun s => { s.active.params with release := s.staging.params.release })

/-- R121. `SET_SAMPLE_RATE` (word `0x00000015`): `E_SR`, then `E_STEP`, else the rate is stored and, with a parameter set
active, the whole configuration installed. The last clause takes the configuration invariant, under which the active
set is a valid one; `StepKeepsInvariants` states that every step keeps it. -/
def Obligations.SetSampleRateCommits : Prop :=
  decode 0x00000015#32 = .ok .setSampleRate ∧
  ∀ (s : State) (sr : DWord), sr = s.staging.srHi ++ s.staging.srLo →
    ((finite64 sr = false ∨ gt64 sr 0 = false) →
      ∃ t, exec .setSampleRate s = .next t ∧ RejectedAs .eSr s t) ∧
    (finite64 sr = true → gt64 sr 0 = true → s.active.paramsValid = true → stepRates sr s.active.params = none →
      ∃ t, exec .setSampleRate s = .next t ∧ RejectedAs .eStep s t) ∧
    (finite64 sr = true → gt64 sr 0 = true → s.active.paramsValid = false →
      exec .setSampleRate s = .next { s with
        active := { s.active with sr := sr, srValid := true }
        env := { stage := .idle, amp := 0, segs := ⟨⟨0, 0, 0⟩, ⟨0, 0, 0⟩, ⟨0, 0, 0⟩⟩, relStart := 0 }
        response := some ⟨true, 0⟩ }) ∧
    (∀ steps, ConfigInv s.active → finite64 sr = true → gt64 sr 0 = true → s.active.paramsValid = true →
      stepRates sr s.active.params = some steps →
      ∃ t, exec .setSampleRate s = .next t ∧ Configured s.active.params sr steps s t)

/-- R29, R36, R43, R110. The integer state elements as a host reads them: no 32-bit register loses a bit of its element, and in
force the three step rates lie in `1 .. 2^31 − 1` and are those of the active parameters. -/
def Obligations.IntegerRegistersShowTheirElements : Prop :=
  ∀ s : State, Sound s →
    (Reg.read s .cap).toNat = s.par.cap ∧ (Reg.read s .lmax).toNat = s.par.lmax ∧
    (Reg.read s .bmax).toNat = s.par.bmax ∧ (Reg.read s .srcLen).toNat = s.grain.len ∧
    (Reg.read s .grCount).toNat = s.grain.count ∧ (Reg.read s .grHead).toNat = s.grain.head ∧
    (Reg.read s .grTail).toNat = s.grain.tail ∧
    (s.active.cfgValid = true →
      (Reg.read s .stepA).toNat = s.active.steps.attack ∧ (Reg.read s .stepD).toNat = s.active.steps.decay ∧
      (Reg.read s .stepR).toNat = s.active.steps.release ∧
      ∀ g, stepRate s.active.sr s.active.params.res.toNat (s.active.params.duration g) = some (s.active.steps.get g) ∧
        1 ≤ s.active.steps.get g ∧ s.active.steps.get g ≤ 2 ^ 31 - 1)

/-- R110. The step rate, for every valid sample rate, resolution and duration, on the rule's own primitives (what those give:
ResultsAreCorrectlyRounded). With `x4 = max64(div64(max64(mul64(sr, cvt64(sec)), 1.0), nat64(res)), 1.0)` it is `OVERFLOW`
exactly when `x4` is not finite or is at least `2^31`, and otherwise `trunc64(x4)`: the greatest integer not above `x4`,
in `1 .. 2^31 − 1`. A zero-length segment, either zero, has step rate 1. -/
def Obligations.StepRateFollowsTheRule : Prop :=
  (∀ (sr x4 : DWord) (res : Nat) (sec : Word), finite64 sr = true → gt64 sr 0 = true → 2 ≤ res → res ≤ 4096 →
    finite32 sec = true → ge32 sec 0 = true →
    x4 = max64 (div64 (max64 (mul64 sr (cvt64 sec)) 0x3FF0000000000000#64) (nat64 res)) 0x3FF0000000000000#64 →
    (finite64 x4 = false ∨ ge64 x4 0x41E0000000000000#64 = true → stepRate sr res sec = none) ∧
    (finite64 x4 = true → ge64 x4 0x41E0000000000000#64 = false →
      stepRate sr res sec = some (trunc64 x4) ∧ 1 ≤ trunc64 x4 ∧ trunc64 x4 ≤ 2 ^ 31 - 1 ∧
      trunc64 x4 * 2 ^ 1074 ≤ value64 x4 ∧ value64 x4 < (trunc64 x4 + 1) * 2 ^ 1074)) ∧
  (∀ (sr : DWord) (res : Nat) (sec : Word), finite64 sr = true → gt64 sr 0 = true → 2 ≤ res → res ≤ 4096 →
    (sec = 0x00000000#32 ∨ sec = 0x80000000#32) → stepRate sr res sec = some 1)

/-- R30, R111, R112. The tables in force stay those of the active parameters: `TAB` is written only by a build, so after any
step every entry `0..R` of a segment with a built-in shape still has the value the rules give it. -/
def Obligations.TablesStayBuilt : Prop :=
  ∀ s t : State, Sound s → TablesBuilt s → step s = .next t → TablesBuilt t

/-- R122 (P6). Issuing `SET_PARAMS` with the staging registers equal to the active set is accepted, keeps parameters, sample
rate and step rates, puts the envelope in its reset state, and leaves the built-in tables as they were. -/
def Obligations.SetParamsIsIdempotent : Prop :=
  ∀ s : State, Sound s → TablesBuilt s → s.active.cfgValid = true → s.staging.params = s.active.params →
    ∃ t, exec .setParams s = .next t ∧ t.response = some ⟨true, 0⟩ ∧ t.active = s.active ∧
      t.env = { stage := .idle, amp := 0, segs := ⟨⟨0, 0, 0⟩, ⟨0, 0, 0⟩, ⟨0, 0, 0⟩⟩, relStart := 0 } ∧
      (∀ g i, i ≤ s.active.params.res.toNat → s.active.params.selector g < 2 → t.tab g i = s.tab g i) ∧
      t.grain = s.grain ∧ t.noteAmp = s.noteAmp ∧ t.results = s.results

/-- R234. From an unconfigured core the parameter set and the sample rate may be given in either order: both orders end in
the same configured state. -/
def Obligations.ConfigurationOrderIrrelevant : Prop :=
  ∀ (s : State) (steps : PerSeg Nat), s.active.paramsValid = false → s.active.srValid = false →
    validate s.staging.params = none → finite64 (s.staging.srHi ++ s.staging.srLo) = true →
    gt64 (s.staging.srHi ++ s.staging.srLo) 0 = true →
    stepRates (s.staging.srHi ++ s.staging.srLo) s.staging.params = some steps →
    ∃ t, execAll [.setParams, .setSampleRate] s = .next t ∧ execAll [.setSampleRate, .setParams] s = .next t ∧
      t.active.cfgValid = true

/-! ## The envelope -/

/-- R136. `NOTE_ON` (word `0x00000020`): `E_NOCFG` on an unconfigured core, else the three-way choice, from every stage. That
a `NOTE_ON` during a note is taken, a retrigger, where R136 would let a model refuse it, is the model's choice
(log 14). -/
def Obligations.NoteOnEntersAStage : Prop :=
  decode 0x00000020#32 = .ok .noteOn ∧
  ∀ s : State,
    (s.active.cfgValid = false → ∃ t, exec .noteOn s = .next t ∧ RejectedAs .eNocfg s t) ∧
    (s.active.cfgValid = true → gt32 s.active.params.attack 0 = true →
      exec .noteOn s = .next { s with
        noteAmp := s.args.arg0
        env := { s.env with
          stage := .attack
          segs := { s.env.segs with attack :=
            ⟨0, 0, mul32 (sub32 (s.tab .attack 1) (s.tab .attack 0)) s.active.params.maxamp⟩ } }
        response := some ⟨true, 0⟩ }) ∧
    (s.active.cfgValid = true → gt32 s.active.params.attack 0 = false → gt32 s.active.params.decay 0 = true →
      exec .noteOn s = .next { s with
        noteAmp := s.args.arg0
        env := { s.env with
          stage := .decay
          amp := s.active.params.maxamp
          segs := { s.env.segs with decay :=
            ⟨0, 0, mul32 (sub32 (s.tab .decay 1) (s.tab .decay 0))
              (sub32 s.active.params.maxamp s.active.params.sustain)⟩ } }
        response := some ⟨true, 0⟩ }) ∧
    (s.active.cfgValid = true → gt32 s.active.params.attack 0 = false → gt32 s.active.params.decay 0 = false →
      exec .noteOn s = .next { s with
        noteAmp := s.args.arg0
        env := { s.env with stage := .sustain, amp := s.active.params.sustain }
        response := some ⟨true, 0⟩ })

/-- R137. `NOTE_OFF` (word `0x00000021`): nothing in Idle; from any other stage Release, or Idle when `RELEASE` is zero. -/
def Obligations.NoteOffReleases : Prop :=
  decode 0x00000021#32 = .ok .noteOff ∧
  ∀ s : State,
    (s.env.stage = .idle → exec .noteOff s = .next { s with response := some ⟨true, 0⟩ }) ∧
    (s.env.stage ≠ .idle → gt32 s.active.params.release 0 = true →
      exec .noteOff s = .next { s with
        env := { s.env with
          stage := .release
          relStart := s.env.amp
          segs := { s.env.segs with release :=
            ⟨0, 0, mul32 (sub32 (s.tab .release 1) (s.tab .release 0)) s.env.amp⟩ } }
        response := some ⟨true, 0⟩ }) ∧
    (s.env.stage ≠ .idle → gt32 s.active.params.release 0 = false →
      exec .noteOff s = .next { s with
        env := { s.env with stage := .idle, amp := 0 }
        response := some ⟨true, 0⟩ })

/-- R134 and its inference "the loop body runs at most three times in one call". `env_next()` is the rule's loop, which ends
within three passes of its body for every table, configuration and envelope. -/
def Obligations.EnvNextIsTheLoop : Prop :=
  ∀ (tab : Segment → Nat → Word) (a : Active) (e : Env), envLoop tab a 3 e = some (envNext tab a e)

/-- R138, R134 (Idle and Sustain arms). `ENV_TICK` in Idle changes only `ENV_OUT`, to `+0.0`; in Sustain amplitude and
`ENV_OUT` are `SUSTAIN`. -/
def Obligations.EnvTickInIdleAndSustain : Prop :=
  ∀ s : State,
    (s.env.stage = .idle →
      exec .envTick s = .next { s with results := { s.results with env := 0 }, response := some ⟨true, 0⟩ }) ∧
    (s.env.stage = .sustain →
      exec .envTick s = .next { s with
        env := { s.env with amp := s.active.params.sustain }
        results := { s.results with env := s.active.params.sustain }
        response := some ⟨true, 0⟩ })

/-- R138, R134 (Attack arm), R133, R131. `ENV_TICK` in Attack below `MAXAMP`: count, at `STEP[A]` advance the index (clamped at
`R − 1`) and recompute the rate, then add the rate. At or above `MAXAMP` the same call enters Decay at `MAXAMP` and
goes on there, or falls through to Sustain. -/
def Obligations.EnvTickInAttack : Prop :=
  ∀ (s : State) (r : SegRec), s.env.stage = .attack →
    (ge32 s.env.amp s.active.params.maxamp = false →
      r = (if s.env.segs.attack.elapsed + 1 = s.active.steps.attack then
          ⟨0, min (s.env.segs.attack.idx + 1) (s.active.params.res.toNat - 1),
            mul32 (sub32 (s.tab .attack (min (s.env.segs.attack.idx + 1) (s.active.params.res.toNat - 1) + 1))
              (s.tab .attack (min (s.env.segs.attack.idx + 1) (s.active.params.res.toNat - 1))))
              s.active.params.maxamp⟩
        else { s.env.segs.attack with elapsed := s.env.segs.attack.elapsed + 1 }) →
      exec .envTick s = .next { s with
        env := { s.env with segs := { s.env.segs with attack := r }, amp := add32 s.env.amp r.rate }
        results := { s.results with env := add32 s.env.amp r.rate }
        response := some ⟨true, 0⟩ }) ∧
    (ge32 s.env.amp s.active.params.maxamp = true →
      le32 s.active.params.maxamp s.active.params.sustain = true →
      exec .envTick s = .next { s with
        env := { s.env with
          stage := .sustain
          amp := s.active.params.sustain
          segs := { s.env.segs with decay :=
            ⟨0, 0, mul32 (sub32 (s.tab .decay 1) (s.tab .decay 0))
              (sub32 s.active.params.maxamp s.active.params.sustain)⟩ } }
        results := { s.results with env := s.active.params.sustain }
        response := some ⟨true, 0⟩ }) ∧
    (ge32 s.env.amp s.active.params.maxamp = true →
      le32 s.active.params.maxamp s.active.params.sustain = false →
      r = (if 1 = s.active.steps.decay then
          ⟨0, min 1 (s.active.params.res.toNat - 1),
            mul32 (sub32 (s.tab .decay (min 1 (s.active.params.res.toNat - 1) + 1))
              (s.tab .decay (min 1 (s.active.params.res.toNat - 1))))
              (sub32 s.active.params.maxamp s.active.params.sustain)⟩
        else ⟨1, 0, mul32 (sub32 (s.tab .decay 1) (s.tab .decay 0))
              (sub32 s.active.params.maxamp s.active.params.sustain)⟩) →
      exec .envTick s = .next { s with
        env := { s.env with
          stage := .decay
          amp := add32 s.active.params.maxamp r.rate
          segs := { s.env.segs with decay := r } }
        results := { s.results with env := add32 s.active.params.maxamp r.rate }
        response := some ⟨true, 0⟩ })

/-- R138, R134 (Decay arm), R133, R131. `ENV_TICK` in Decay: at or below `SUSTAIN` the call goes on in Sustain at exactly
`SUSTAIN`; else count, advance, and add the rate, scaled by `MAXAMP − SUSTAIN`. -/
def Obligations.EnvTickInDecay : Prop :=
  ∀ (s : State) (r : SegRec), s.env.stage = .decay →
    (le32 s.env.amp s.active.params.sustain = true →
      exec .envTick s = .next { s with
        env := { s.env with stage := .sustain, amp := s.active.params.sustain }
        results := { s.results with env := s.active.params.sustain }
        response := some ⟨true, 0⟩ }) ∧
    (le32 s.env.amp s.active.params.sustain = false →
      r = (if s.env.segs.decay.elapsed + 1 = s.active.steps.decay then
          ⟨0, min (s.env.segs.decay.idx + 1) (s.active.params.res.toNat - 1),
            mul32 (sub32 (s.tab .decay (min (s.env.segs.decay.idx + 1) (s.active.params.res.toNat - 1) + 1))
              (s.tab .decay (min (s.env.segs.decay.idx + 1) (s.active.params.res.toNat - 1))))
              (sub32 s.active.params.maxamp s.active.params.sustain)⟩
        else { s.env.segs.decay with elapsed := s.env.segs.decay.elapsed + 1 }) →
      exec .envTick s = .next { s with
        env := { s.env with segs := { s.env.segs with decay := r }, amp := add32 s.env.amp r.rate }
        results := { s.results with env := add32 s.env.amp r.rate }
        response := some ⟨true, 0⟩ })

/-- R138, R134 (Release arm), R133, R131. `ENV_TICK` in Release: count, advance, and add the rate, scaled by `REL_START`; if
that leaves the amplitude at or below zero the same call returns exactly `+0.0` with the stage Idle. -/
def Obligations.EnvTickInRelease : Prop :=
  ∀ (s : State) (r : SegRec), s.env.stage = .release →
    r = (if s.env.segs.release.elapsed + 1 = s.active.steps.release then
        ⟨0, min (s.env.segs.release.idx + 1) (s.active.params.res.toNat - 1),
          mul32 (sub32 (s.tab .release (min (s.env.segs.release.idx + 1) (s.active.params.res.toNat - 1) + 1))
            (s.tab .release (min (s.env.segs.release.idx + 1) (s.active.params.res.toNat - 1))))
            s.env.relStart⟩
      else { s.env.segs.release with elapsed := s.env.segs.release.elapsed + 1 }) →
    (le32 (add32 s.env.amp r.rate) 0 = true →
      exec .envTick s = .next { s with
        env := { s.env with stage := .idle, amp := 0, segs := { s.env.segs with release := r } }
        results := { s.results with env := 0 }
        response := some ⟨true, 0⟩ }) ∧
    (le32 (add32 s.env.amp r.rate) 0 = false →
      exec .envTick s = .next { s with
        env := { s.env with segs := { s.env.segs with release := r }, amp := add32 s.env.amp r.rate }
        results := { s.results with env := add32 s.env.amp r.rate }
        response := some ⟨true, 0⟩ })

/-- R134 (P3). Once in Sustain, every number of `ENV_TICK`s leaves the stage Sustain, and each returns `SUSTAIN` exactly. -/
def Obligations.SustainHoldsUntilNoteOff : Prop :=
  ∀ (k : Nat) (s : State), s.env.stage = .sustain →
    execAll (List.replicate (k + 1) .envTick) s = .next { s with
      env := { s.env with amp := s.active.params.sustain }
      results := { s.results with env := s.active.params.sustain }
      response := some ⟨true, 0⟩ }

/-- R135. Every change of `STAGE` any step makes, and its cause: the transition table. A block command makes several of its
element transitions, all of them rows of the table. -/
def Obligations.StageChangesOnlyByTheTable : Prop :=
  ∀ (s t : State) (x : HostInput) (rest : List HostInput), s.pending = x :: rest → step s = .next t →
    t.env.stage ≠ s.env.stage →
    (x = .hardReset ∧ t.env.stage = .idle) ∨
    ∃ w i, x = .write 0x000000#24 w ∧ decode w = .ok i ∧ match i with
      | .noteOn => s.active.cfgValid = true ∧
          (t.env.stage = .attack ∨ t.env.stage = .decay ∨ t.env.stage = .sustain)
      | .noteOff => s.env.stage ≠ .idle ∧ (t.env.stage = .release ∨ t.env.stage = .idle)
      | .envTick | .voiceTick | .envApply | .voiceFill =>
          (s.env.stage = .attack ∧ (t.env.stage = .decay ∨ t.env.stage = .sustain)) ∨
          (s.env.stage = .decay ∧ t.env.stage = .sustain) ∨ (s.env.stage = .release ∧ t.env.stage = .idle)
      | .setParams | .setAttack | .setDecay | .setSustain | .setRelease | .setSampleRate | .reset =>
          t.env.stage = .idle
      | .nop | .clrErr | .loadSource | .setFreq | .grTick => False

/-! ## Block commands -/

/-- R139. `ENV_APPLY` (word `0x00000038`) leaves exactly the state, and the buffer words, that the per-sample path leaves: `n`
times an `ENV_TICK` and a host write to `BUF[start+i]` of its word times `ENV_OUT`, or of `+0.0` where the stage
before the tick is Idle. What the host still has pending (put aside while the path is run by hand) stays as it is. -/
def Obligations.EnvApplyIsElementByElement : Prop :=
  decode 0x00000038#32 = .ok .envApply ∧
  ∀ s : State, s.par.wellFormed = true → 0 < s.args.arg1.toNat →
    s.args.arg0.toNat + s.args.arg1.toNat ≤ s.par.bmax →
    ∃ t, applyByHand s.args.arg1.toNat s.args.arg0.toNat { s with pending := [] } = .next t ∧
      exec .envApply s = .next { t with pending := s.pending }

/-- R139 (Scenario C). In Idle `ENV_APPLY` stores `+0.0` in every word of the range, whatever it held, and nothing else changes
but `ENV_OUT`. -/
def Obligations.EnvApplyInIdleZeroFills : Prop :=
  ∀ s : State, s.par.wellFormed = true → s.env.stage = .idle → 0 < s.args.arg1.toNat →
    s.args.arg0.toNat + s.args.arg1.toNat ≤ s.par.bmax →
    ∃ t, exec .envApply s = .next t ∧
      (∀ i, s.args.arg0.toNat ≤ i → i < s.args.arg0.toNat + s.args.arg1.toNat → t.buf i = 0) ∧
      (∀ a, ¬ IsBufAddr s.args.arg0.toNat s.args.arg1.toNat a → wordAt t a = wordAt s a) ∧
      t = { s with ram := t.ram, results := { s.results with env := 0 }, response := some ⟨true, 0⟩ }

/-- R139. In Sustain `ENV_APPLY` multiplies every word of the range by `SUSTAIN` and leaves the stage Sustain. -/
def Obligations.EnvApplyInSustainIsConstantGain : Prop :=
  ∀ s : State, s.par.wellFormed = true → s.env.stage = .sustain → 0 < s.args.arg1.toNat →
    s.args.arg0.toNat + s.args.arg1.toNat ≤ s.par.bmax →
    ∃ t, exec .envApply s = .next t ∧
      (∀ i, s.args.arg0.toNat ≤ i → i < s.args.arg0.toNat + s.args.arg1.toNat →
        t.buf i = mul32 (s.buf i) s.active.params.sustain) ∧
      (∀ a, ¬ IsBufAddr s.args.arg0.toNat s.args.arg1.toNat a → wordAt t a = wordAt s a) ∧
      t = { s with
        ram := t.ram
        env := { s.env with amp := s.active.params.sustain }
        results := { s.results with env := s.active.params.sustain }
        response := some ⟨true, 0⟩ }

/-- R139, R182. A block command whose range ends beyond `BMAX`, the sum taken without wrap-around, is rejected with `E_RANGE`
(11); one with `n = 0` inside the buffer is accepted and does nothing. -/
def Obligations.BlockRangeChecked : Prop :=
  ErrCode.code .eRange = 11 ∧
  ∀ (s : State) (i : Instr), i = .envApply ∨ i = .voiceFill →
    (s.par.bmax < s.args.arg0.toNat + s.args.arg1.toNat →
      ∃ t, exec i s = .next t ∧ RejectedAs .eRange s t) ∧
    (s.args.arg0.toNat ≤ s.par.bmax → s.args.arg1 = 0 → exec i s = .next { s with response := some ⟨true, 0⟩ })

/-- R182. `VOICE_FILL` (word `0x00000039`) leaves exactly the state, and the buffer words, that `n` `VOICE_TICK`s each followed
by a host write of `VOICE_OUT` to `BUF[start+i]` leave. What the host still has pending (put aside while they are run by hand) stays as it
is. -/
def Obligations.VoiceFillIsTicksAndWrites : Prop :=
  decode 0x00000039#32 = .ok .voiceFill ∧
  ∀ s : State, s.par.wellFormed = true → 0 < s.args.arg1.toNat →
    s.args.arg0.toNat + s.args.arg1.toNat ≤ s.par.bmax →
    ∃ t, fillByHand s.args.arg1.toNat s.args.arg0.toNat { s with pending := [] } = .next t ∧
      exec .voiceFill s = .next { t with pending := s.pending }

/-! ## The grain scheduler -/

/-- R163, R164. One `GR_TICK` (word `0x00000031`) with a source: the accumulator advances by 1 and, if it then exceeds `TRIG`
and there is room, a cursor is pushed and `TRIG` taken off; `GR_OUT` is the sum of the source words at the active
cursors, oldest first, from `+0.0`; each cursor advances by one and is retired at `L`; nothing else changes. -/
def Obligations.GrTickSumsActiveGrains : Prop :=
  decode 0x00000031#32 = .ok .grTick ∧
  ∀ (s : State) (cs : List Nat), RingInv s.par s.grain → 0 < s.grain.len →
    cs = activeCursors s.par.cap s.grain
      ++ (if gt32 (add32 s.grain.acc 0x3F800000#32) s.grain.trig = true ∧ s.grain.count < s.par.cap then [0] else []) →
    ∃ t, exec .grTick s = .next t ∧
      t.results.gr = cs.foldl (fun o c => add32 o (s.src c)) 0 ∧
      activeCursors s.par.cap t.grain = (cs.map (· + 1)).filter (· ≠ s.grain.len) ∧
      t.grain.count = ((cs.map (· + 1)).filter (· ≠ s.grain.len)).length ∧
      t.grain.head = (s.grain.head + (cs.length - t.grain.count)) % s.par.cap ∧
      t.grain.tail = (t.grain.head + t.grain.count) % s.par.cap ∧
      t.grain.acc = (if gt32 (add32 s.grain.acc 0x3F800000#32) s.grain.trig = true ∧ s.grain.count < s.par.cap then
          sub32 (add32 s.grain.acc 0x3F800000#32) s.grain.trig
        else add32 s.grain.acc 0x3F800000#32) ∧
      t = { s with
        grain := { s.grain with acc := t.grain.acc, head := t.grain.head, tail := t.grain.tail,
                                count := t.grain.count, cur := t.grain.cur }
        results := { s.results with gr := t.results.gr }
        response := some ⟨true, 0⟩ }

/-- R163, R164, R165 (`L = 0`). With no source every `GR_TICK` gives `+0.0` and leaves no active cursor: when the advanced
accumulator exceeds `TRIG` a grain is pushed, `TRIG` taken off, and the guard retires it in the same call, so that
`HEAD` and `TAIL` advance together; else only the accumulator advances. Nothing else changes. -/
def Obligations.GrTickWithoutSourceIsSilent : Prop :=
  ∀ s : State, RingInv s.par s.grain → s.grain.len = 0 →
    s.grain.count = 0 ∧
    (gt32 (add32 s.grain.acc 0x3F800000#32) s.grain.trig = true →
      exec .grTick s = .next { s with
        grain := { s.grain with
          acc := sub32 (add32 s.grain.acc 0x3F800000#32) s.grain.trig
          head := (s.grain.head + 1) % s.par.cap
          tail := (s.grain.tail + 1) % s.par.cap }
        results := { s.results with gr := 0 }
        response := some ⟨true, 0⟩ }) ∧
    (gt32 (add32 s.grain.acc 0x3F800000#32) s.grain.trig = false →
      exec .grTick s = .next { s with
        grain := { s.grain with acc := add32 s.grain.acc 0x3F800000#32 }
        results := { s.results with gr := 0 }
        response := some ⟨true, 0⟩ })

/-- R165 (`TRIG = +Inf`). With no pitch set and no grain playing, any number of `GR_TICK`s triggers nothing: the ring stays as
it is and every result is `+0.0`. -/
def Obligations.NothingTriggersAtInfinity : Prop :=
  ∀ (k : Nat) (s : State), s.grain.trig = 0x7F800000#32 → s.grain.count = 0 →
    ∃ t, execAll (List.replicate (k + 1) .grTick) s = .next t ∧ t.results.gr = 0 ∧
      t = { s with
        grain := { s.grain with acc := t.grain.acc }
        results := { s.results with gr := 0 }
        response := some ⟨true, 0⟩ }

/-- R166 (P5), R163. A grain plays the source exactly once. Any number `k` of `GR_TICK`s moves every active cursor on by
exactly `k` and retires exactly those that reach `L` on the way; behind them stand the grains pushed meanwhile, whose
cursors are at least 1 and at most `k`. (Each tick sums the source words at the cursors: GrTickSumsActiveGrains.) The tick that pushes a grain into an empty ring gives the source's
word 0 and leaves its cursor at 1, or gone when `L = 1`. A single grain at any offset `c`, nothing else triggering,
gives word `c + k` at its `k`-th further tick (counted from 0) and is gone after the tick that gave word `L − 1`. -/
def Obligations.GrainPlaysTheSourceExactlyOnce : Prop :=
  (∀ (k : Nat) (s : State), RingInv s.par s.grain → 0 < s.grain.len →
    ∃ (t : State) (new : List Nat), execAll (List.replicate k .grTick) s = .next t ∧
      activeCursors s.par.cap t.grain
        = ((activeCursors s.par.cap s.grain).map (· + k)).filter (· < s.grain.len) ++ new ∧
      (∀ c ∈ new, 1 ≤ c ∧ c ≤ k) ∧ t.grain.len = s.grain.len ∧ (∀ i, t.src i = s.src i)) ∧
  (∀ s : State, RingInv s.par s.grain → 0 < s.grain.len → s.grain.count = 0 →
    gt32 (add32 s.grain.acc 0x3F800000#32) s.grain.trig = true →
    ∃ t, exec .grTick s = .next t ∧ t.results.gr = add32 0 (s.src 0) ∧
      activeCursors s.par.cap t.grain = (if s.grain.len = 1 then [] else [1])) ∧
  (∀ (k c : Nat) (s : State), s.grain.trig = 0x7F800000#32 → s.grain.cur.length = s.par.cap →
    s.grain.head < s.par.cap → s.grain.count = 1 → cursor s.grain s.grain.head = c → c + k < s.grain.len →
    ∃ t, execAll (List.replicate (k + 1) .grTick) s = .next t ∧
      t.results.gr = add32 0 (s.src (c + k)) ∧
      activeCursors s.par.cap t.grain = (if c + k + 1 = s.grain.len then [] else [c + k + 1]))

/-- R161. `LOAD_SOURCE` (word `0x00000018`): `E_SRCLEN` beyond `LMAX`, else length and fundamental are latched, the ring emptied,
the accumulator cleared and the pitch forgotten. -/
def Obligations.LoadSourceBindsAndEmptiesTheRing : Prop :=
  decode 0x00000018#32 = .ok .loadSource ∧
  ∀ s : State,
    (s.par.lmax < s.staging.srcLen.toNat → ∃ t, exec .loadSource s = .next t ∧ RejectedAs .eSrclen s t) ∧
    (s.staging.srcLen.toNat ≤ s.par.lmax →
      exec .loadSource s = .next { s with
        grain := { len := s.staging.srcLen.toNat, hz := s.staging.grainHz, freq := 0, trig := 0x7F800000#32,
                   acc := 0, head := 0, tail := 0, count := 0, cur := List.replicate s.par.cap 0 }
        response := some ⟨true, 0⟩ })

/-- R162, R160. `SET_FREQ` (word `0x00000019`): `E_FREQ` unless the operand is finite and positive, else `FREQ` and `TRIG` are set
and nothing else. -/
def Obligations.SetFreqSetsTheInterval : Prop :=
  decode 0x00000019#32 = .ok .setFreq ∧
  ∀ s : State,
    ((finite32 s.args.arg0 = false ∨ gt32 s.args.arg0 0 = false) →
      ∃ t, exec .setFreq s = .next t ∧ RejectedAs .eFreq s t) ∧
    (finite32 s.args.arg0 = true → gt32 s.args.arg0 0 = true →
      exec .setFreq s = .next { s with
        grain := { s.grain with
          freq := s.args.arg0
          trig := div32 (mul32 (nat32 s.grain.len) s.grain.hz) (mul32 0x40000000#32 s.args.arg0) }
        response := some ⟨true, 0⟩ })

/-! ## The voice -/

/-- R180, R181. `VOICE_TICK` (word `0x00000032`): in Idle only `ENV_OUT` and `VOICE_OUT` change, to `+0.0`; else it is one
`ENV_TICK` and one `GR_TICK` of the same state, with `VOICE_OUT = (e × g) × NOTE_AMP`. -/
def Obligations.VoiceTickIsTheProduct : Prop :=
  decode 0x00000032#32 = .ok .voiceTick ∧
  ∀ s : State,
    (s.env.stage = .idle →
      exec .voiceTick s = .next { s with
        results := { s.results with env := 0, voice := 0 }
        response := some ⟨true, 0⟩ }) ∧
    (s.env.stage ≠ .idle →
      ∃ te tg, exec .envTick s = .next te ∧ exec .grTick s = .next tg ∧
        exec .voiceTick s = .next { s with
          env := te.env
          grain := tg.grain
          results := { env := te.results.env, gr := tg.results.gr,
                       voice := mul32 (mul32 te.results.env tg.results.gr) s.noteAmp }
          response := some ⟨true, 0⟩ })

/-! ## Rejections -/

/-- R202, R203. Rejections are precise: whatever the transaction, an `ERROR` response means that only `ERR`, `ERRCODE` and the
response changed, with a code other than 0, and read data 0. -/
def Obligations.RejectionsArePrecise : Prop :=
  ∀ (s t : State) (x : HostInput) (rest : List HostInput) (d : Word), s.pending = x :: rest → step s = .next t →
    t.response = some ⟨false, d⟩ →
    d = 0 ∧ t.error.err = true ∧ t.error.code ≠ .none ∧
      t = { s with pending := rest, error := t.error, response := some ⟨false, 0⟩ }

/-- R202. `ERR` is sticky: an accepted transaction other than `CLR_ERR` and `RESET` leaves `ERR` and `ERRCODE` as they were. -/
def Obligations.AcceptedTransactionsKeepTheError : Prop :=
  ∀ (s t : State) (x : HostInput) (rest : List HostInput) (d : Word), s.pending = x :: rest → step s = .next t →
    t.response = some ⟨true, d⟩ → x ≠ .write 0x000000#24 0x00000001#32 → x ≠ .write 0x000000#24 0x00000002#32 →
    t.error = s.error

/-- R213, R203. Which command can be rejected with what, in every state: a command leaves either an `OKAY` response or one of
the codes its procedure tests for. For the four single-field setters that is every code of `validate`, `E_NOCFG` and
`E_STEP`; R213's own, shorter lists for them hold from a sound state, where the rest of the set is already valid, and
stand in FieldSettersRaiseOnlyTheirCodes. For every other command the list is R213's. -/
def Obligations.RejectionCodesOfEachCommand : Prop :=
  ∀ (s : State) (i : Instr), ∃ t, exec i s = .next t ∧
    (t.response = some ⟨true, 0⟩ ∨ (t.response = some ⟨false, 0⟩ ∧ t.error.err = true ∧
      t.error.code ∈ (match i with
        | .setParams => [ErrCode.eRes, .eDuration, .eMaxamp, .eSustain, .eShape, .eStep]
        | .setAttack | .setDecay | .setRelease | .setSustain =>
            [.eNocfg, .eRes, .eDuration, .eMaxamp, .eSustain, .eShape, .eStep]
        | .setSampleRate => [.eSr, .eStep]
        | .loadSource => [.eSrclen]
        | .setFreq => [.eFreq]
        | .noteOn => [.eNocfg]
        | .envApply | .voiceFill => [.eRange]
        | .nop | .reset | .clrErr | .noteOff | .envTick | .grTick | .voiceTick => [])))

/-- R213. From a sound state the single-field setters are rejected only with `E_NOCFG`, `E_DURATION` and `E_STEP`, and
`SET_SUSTAIN` only with `E_NOCFG` and `E_SUSTAIN`: the rest of the set is already valid. -/
def Obligations.FieldSettersRaiseOnlyTheirCodes : Prop :=
  ∀ (s t : State) (i : Instr), Sound s → exec i s = .next t → t.response = some ⟨false, 0⟩ →
    (i = .setAttack ∨ i = .setDecay ∨ i = .setRelease →
      t.error.code = .eNocfg ∨ t.error.code = .eDuration ∨ t.error.code = .eStep) ∧
    (i = .setSustain → t.error.code = .eNocfg ∨ t.error.code = .eSustain)

/-! ## Invariants and whole-machine rules -/

/-- R34, R37, R42, R5. Every step from a sound state leads to a sound state: parameters in bounds, memory in canonical
form, configuration consistent, envelope and ring invariants. -/
def Obligations.StepKeepsInvariants : Prop :=
  ∀ s t : State, Sound s → step s = .next t → Sound t

/-- R36, R37, R166. Every step keeps the ring invariants by themselves; in particular the active count never exceeds `C` and
every active cursor lies inside the source. -/
def Obligations.StepKeepsRingInvariants : Prop :=
  ∀ s t : State, s.par.wellFormed = true → RingInv s.par s.grain → step s = .next t →
    RingInv t.par t.grain ∧ t.grain.count ≤ t.par.cap ∧
      ∀ c ∈ activeCursors t.par.cap t.grain, c < t.grain.len

/-- R73. The snapshot rule: run on two states that differ at most in the staging registers, `RAW`, the error registers and
the latest response, a command of the sample path leaves states that differ at most there. -/
def Obligations.SamplePathReadsOnlyActiveState : Prop :=
  ∀ (s t s' t' : State) (i : Instr), i ∈ samplePath → SameToSamplePath s t →
    exec i s = .next s' → exec i t = .next t' →
    SameToSamplePath s' t' ∧ s'.response = t'.response

/-! ## Frames -/

/-- R70, R136, R137, R138, R161, R162, R164, R181. What the commands that store nothing leave alone: memory and everything
not named. A tick of the scheduler leaves the source's length and fundamental, the frequency and the interval. -/
def Obligations.TickAndNoteFrames : Prop :=
  ∀ s t : State,
    (exec .noteOn s = .next t → t = { s with
      noteAmp := t.noteAmp, env := t.env, error := t.error, response := t.response }) ∧
    (exec .noteOff s = .next t → t = { s with env := t.env, response := t.response }) ∧
    (exec .envTick s = .next t → t = { s with
      env := t.env, results := { s.results with env := t.results.env }, response := t.response }) ∧
    (exec .grTick s = .next t → t = { s with
      grain := { s.grain with acc := t.grain.acc, head := t.grain.head, tail := t.grain.tail,
                              count := t.grain.count, cur := t.grain.cur }
      results := { s.results with gr := t.results.gr }, response := t.response }) ∧
    (exec .voiceTick s = .next t → t = { s with
      env := t.env, results := t.results, response := t.response
      grain := { s.grain with acc := t.grain.acc, head := t.grain.head, tail := t.grain.tail,
                              count := t.grain.count, cur := t.grain.cur } }) ∧
    (exec .loadSource s = .next t → t = { s with
      grain := t.grain, error := t.error, response := t.response }) ∧
    (exec .setFreq s = .next t → t = { s with
      grain := { s.grain with freq := t.grain.freq, trig := t.grain.trig }, error := t.error, response := t.response })

/-- R70, R139, R163, R182. The block commands write only `BUF[start .. start+n−1]`: every other word of memory, and every
register they do not name, is unchanged. `VOICE_FILL` moves the scheduler as its ticks do: the source's length and
fundamental, the frequency and the interval stay. -/
def Obligations.BlockCommandFrames : Prop :=
  ∀ s t : State,
    (exec .envApply s = .next t →
      (∀ a, ¬ IsBufAddr s.args.arg0.toNat s.args.arg1.toNat a → wordAt t a = wordAt s a) ∧
      t = { s with ram := t.ram, env := t.env, results := { s.results with env := t.results.env },
                   error := t.error, response := t.response }) ∧
    (exec .voiceFill s = .next t →
      (∀ a, ¬ IsBufAddr s.args.arg0.toNat s.args.arg1.toNat a → wordAt t a = wordAt s a) ∧
      t = { s with
        ram := t.ram, env := t.env, results := t.results, error := t.error, response := t.response
        grain := { s.grain with acc := t.grain.acc, head := t.grain.head, tail := t.grain.tail,
                                count := t.grain.count, cur := t.grain.cur } })

/-- R70, R114, R115, R121. The configuration commands write no word but the entries `0..R` of the tables, `R` the resolution in
force after them, and no register but the active ones, the envelope's, `ERR` and `ERRCODE`. -/
def Obligations.ConfigurationCommandFrames : Prop :=
  ∀ (s t : State) (i : Instr),
    i = .setParams ∨ i = .setAttack ∨ i = .setDecay ∨ i = .setSustain ∨ i = .setRelease ∨ i = .setSampleRate →
    exec i s = .next t →
    (∀ a, ¬ IsTableAddr t.active.params.res.toNat a → wordAt t a = wordAt s a) ∧
    t = { s with ram := t.ram, active := t.active, env := t.env, error := t.error, response := t.response }

/-! ## Numbers -/

/-- R8, R9, R12. The primitives of both formats are IEEE 754's under round-to-nearest, ties-to-even, R9's own mode; that the
model takes this arithmetic and not the uninterpreted record R9 allows is its choice (log 7). Every sum, difference,
product, quotient and conversion of a natural number is the number of the format nearest the exact result, with the sign
IEEE 754 gives. So where the exact result is a number of the format other than zero, the primitive returns exactly it;
where it is zero, the zero of the sign IEEE 754 gives; a finite number other than zero over a zero is an infinity of the
signs' product; outside the invalid operations of R10 an operand that is an infinity makes the result one, but a finite
number over an infinity is a zero of the signs' product; `add32(x, +0.0) = x` for every non-NaN `x` other than `−0.0`. `cvt64` is always exact, `nat64` up to `2^53`, and `trunc64` is the greatest integer not
above its operand. -/
def Obligations.ResultsAreCorrectlyRounded : Prop :=
  (∀ a b : Word, finite32 a = true → finite32 b = true →
    Nearest32 (value32 a + value32 b) 1 (add32 a b) ∧ Nearest32 (value32 a - value32 b) 1 (sub32 a b) ∧
    Nearest32 (value32 a * value32 b) (2 ^ 149) (mul32 a b) ∧
    (mul32 a b).toNat / 2 ^ 31 = (a.toNat / 2 ^ 31 + b.toNat / 2 ^ 31) % 2 ∧
    (value32 b ≠ 0 →
      Nearest32 (value32 a * 2 ^ 149 * (value32 b).sign) (value32 b).natAbs (div32 a b) ∧
      (div32 a b).toNat / 2 ^ 31 = (a.toNat / 2 ^ 31 + b.toNat / 2 ^ 31) % 2)) ∧
  (∀ a b : DWord, finite64 a = true → finite64 b = true →
    Nearest64 (value64 a * value64 b) (2 ^ 1074) (mul64 a b) ∧
    (mul64 a b).toNat / 2 ^ 63 = (a.toNat / 2 ^ 63 + b.toNat / 2 ^ 63) % 2 ∧
    (value64 b ≠ 0 →
      Nearest64 (value64 a * 2 ^ 1074 * (value64 b).sign) (value64 b).natAbs (div64 a b) ∧
      (div64 a b).toNat / 2 ^ 63 = (a.toNat / 2 ^ 63 + b.toNat / 2 ^ 63) % 2)) ∧
  (∀ n : Nat, Nearest32 (n * 2 ^ 149) 1 (nat32 n) ∧ (nat32 n).toNat < 2 ^ 31 ∧
    Nearest64 (n * 2 ^ 1074) 1 (nat64 n) ∧ (nat64 n).toNat < 2 ^ 63) ∧
  (∀ a b : Word, finite32 a = true → finite32 b = true →
    (∀ z : Word, finite32 z = true → value32 z ≠ 0 →
      (value32 a + value32 b = value32 z → add32 a b = z) ∧
      (value32 a - value32 b = value32 z → sub32 a b = z) ∧
      (value32 a * value32 b = value32 z * 2 ^ 149 → mul32 a b = z) ∧
      (value32 b ≠ 0 → value32 a * 2 ^ 149 = value32 z * value32 b → div32 a b = z)) ∧
    (value32 a + value32 b = 0 →
      add32 a b = if a = 0x80000000#32 ∧ b = 0x80000000#32 then 0x80000000#32 else 0x00000000#32) ∧
    (value32 a - value32 b = 0 →
      sub32 a b = if a = 0x80000000#32 ∧ b = 0x00000000#32 then 0x80000000#32 else 0x00000000#32) ∧
    (value32 a * value32 b = 0 → mul32 a b = signedZero32 a b) ∧
    (value32 a = 0 → value32 b ≠ 0 → div32 a b = signedZero32 a b) ∧
    (value32 a ≠ 0 → value32 b = 0 → div32 a b = signedZero32 a b ||| 0x7F800000#32)) ∧
  (∀ a b : DWord, finite64 a = true → finite64 b = true →
    (∀ z : DWord, finite64 z = true → value64 z ≠ 0 →
      (value64 a * value64 b = value64 z * 2 ^ 1074 → mul64 a b = z) ∧
      (value64 b ≠ 0 → value64 a * 2 ^ 1074 = value64 z * value64 b → div64 a b = z)) ∧
    (value64 a * value64 b = 0 → mul64 a b = signedZero64 a b) ∧
    (value64 a = 0 → value64 b ≠ 0 → div64 a b = signedZero64 a b) ∧
    (value64 a ≠ 0 → value64 b = 0 → div64 a b = signedZero64 a b ||| 0x7FF0000000000000#64)) ∧
  (∀ i j x : Word, i.toNat % 2 ^ 31 = 0x7F800000 → j.toNat % 2 ^ 31 = 0x7F800000 → finite32 x = true →
    add32 i x = i ∧ add32 x i = i ∧ sub32 i x = i ∧ sub32 x i = neg32 i ∧ add32 i i = i ∧ sub32 i (neg32 i) = i ∧
    (value32 x ≠ 0 → mul32 i x = signedZero32 i x ||| 0x7F800000#32 ∧ mul32 x i = signedZero32 x i ||| 0x7F800000#32) ∧
    mul32 i j = signedZero32 i j ||| 0x7F800000#32 ∧ div32 i x = signedZero32 i x ||| 0x7F800000#32 ∧
    div32 x i = signedZero32 x i) ∧
  (∀ i j x : DWord, i.toNat % 2 ^ 63 = 0x7FF0000000000000 → j.toNat % 2 ^ 63 = 0x7FF0000000000000 → finite64 x = true →
    (value64 x ≠ 0 → mul64 i x = signedZero64 i x ||| 0x7FF0000000000000#64 ∧
      mul64 x i = signedZero64 x i ||| 0x7FF0000000000000#64) ∧
    mul64 i j = signedZero64 i j ||| 0x7FF0000000000000#64 ∧ div64 i x = signedZero64 i x ||| 0x7FF0000000000000#64 ∧
    div64 x i = signedZero64 x i) ∧
  (∀ a : Word, finite32 a = true → value64 (cvt64 a) = value32 a * 2 ^ 925 ∧ finite64 (cvt64 a) = true ∧
    (cvt64 a).toNat / 2 ^ 63 = a.toNat / 2 ^ 31) ∧
  (∀ n : Nat, n ≤ 2 ^ 53 → value64 (nat64 n) = n * 2 ^ 1074) ∧
  (∀ a : DWord, finite64 a = true → 2 ^ 1074 ≤ value64 a →
    trunc64 a * 2 ^ 1074 ≤ value64 a ∧ value64 a < (trunc64 a + 1) * 2 ^ 1074) ∧
  (∀ x : Word, isNaN32 x = false → x ≠ 0x80000000#32 → add32 x 0x00000000#32 = x)

/-- R10, R11. A NaN operand, every NaN result, and the invalid operations `∞−∞`, `0×∞`, `0÷0`, `∞÷∞` give the canonical quiet
NaN; `neg32` inverts bit 31 and nothing else. In both formats a pattern is finite exactly when its exponent field is not all
ones, every comparison with a NaN is false, and on numbers, infinities included, the comparisons are the order of the
numbers, `+0.0` and `−0.0` being equal; `max64(a, b)` is `b` where `a < b` and `a` otherwise, a NaN on either side included. -/
def Obligations.NanIsCanonicalAndNumbersAreOrdered : Prop :=
  (∀ a : Word, (finite32 a = true ↔ a.toNat / 2 ^ 23 % 2 ^ 8 ≠ 255) ∧
    (isNaN32 a = true ↔ a.toNat / 2 ^ 23 % 2 ^ 8 = 255 ∧ a.toNat % 2 ^ 23 ≠ 0)) ∧
  (∀ a b : Word, isNaN32 a = true ∨ isNaN32 b = true →
    add32 a b = 0x7FC00000#32 ∧ sub32 a b = 0x7FC00000#32 ∧ mul32 a b = 0x7FC00000#32 ∧ div32 a b = 0x7FC00000#32 ∧
    lt32 a b = false ∧ le32 a b = false ∧ gt32 a b = false ∧ ge32 a b = false) ∧
  (∀ a b r : Word, r = add32 a b ∨ r = sub32 a b ∨ r = mul32 a b ∨ r = div32 a b → isNaN32 r = true →
    r = 0x7FC00000#32) ∧
  (∀ i ∈ [0x7F800000#32, 0xFF800000#32], ∀ j ∈ [0x7F800000#32, 0xFF800000#32],
    ∀ z ∈ [0x00000000#32, 0x80000000#32], ∀ y ∈ [0x00000000#32, 0x80000000#32],
    sub32 i i = 0x7FC00000#32 ∧ add32 i (neg32 i) = 0x7FC00000#32 ∧ mul32 z i = 0x7FC00000#32 ∧
      mul32 i z = 0x7FC00000#32 ∧ div32 z y = 0x7FC00000#32 ∧ div32 i j = 0x7FC00000#32) ∧
  (∀ a : Word, (neg32 a).toNat % 2 ^ 31 = a.toNat % 2 ^ 31 ∧ ((neg32 a).toNat / 2 ^ 31 ≠ a.toNat / 2 ^ 31)) ∧
  (∀ a b : Word, isNaN32 a = false → isNaN32 b = false →
    (lt32 a b = true ↔ value32 a < value32 b) ∧ (le32 a b = true ↔ value32 a ≤ value32 b) ∧
    (gt32 a b = true ↔ value32 b < value32 a) ∧ (ge32 a b = true ↔ value32 b ≤ value32 a)) ∧
  (∀ a : DWord, finite64 a = true ↔ a.toNat / 2 ^ 52 % 2 ^ 11 ≠ 2047) ∧
  (∀ a b : DWord, (a.toNat / 2 ^ 52 % 2 ^ 11 = 2047 ∧ a.toNat % 2 ^ 52 ≠ 0) ∨
      (b.toNat / 2 ^ 52 % 2 ^ 11 = 2047 ∧ b.toNat % 2 ^ 52 ≠ 0) →
    lt64 a b = false ∧ gt64 a b = false ∧ ge64 a b = false ∧ max64 a b = a) ∧
  (∀ a b : DWord, a.toNat % 2 ^ 63 ≤ 0x7FF0000000000000 → b.toNat % 2 ^ 63 ≤ 0x7FF0000000000000 →
    (lt64 a b = true ↔ value64 a < value64 b) ∧ (gt64 a b = true ↔ value64 b < value64 a) ∧
    (ge64 a b = true ↔ value64 b ≤ value64 a) ∧
    max64 a b = if value64 a < value64 b then b else a)

/-- R12. `nat32(n)` is exact for `n ≤ 2^24`: its value, counted in units of `2^−149`, is `n · 2^149`. -/
def Obligations.NaturalConversionIsExact : Prop :=
  ∀ n : Nat, n ≤ 2 ^ 24 →
    (unpack32 (nat32 n)).neg = false ∧ finite32 (nat32 n) = true ∧
      binary32.units (unpack32 (nat32 n)).mag = n * 2 ^ 149
end

