-- ==== Sys2Proof/Laws/State.lean ====
section
/-! SUPPORT. Sys2Proof/Laws/State.lean: one lemma per field per whole-field update of `Sys2Proof/Machine/Ops.lean`, so that
no later proof unfolds a record update. -/

namespace Sys2Proof.Machine.State

variable (s : State)

@[simp] theorem setArgs_par (v : Args) : (s.setArgs v).par = s.par := rfl
@[simp] theorem setArgs_args (v : Args) : (s.setArgs v).args = v := rfl
@[simp] theorem setArgs_results (v : Args) : (s.setArgs v).results = s.results := rfl
@[simp] theorem setArgs_staging (v : Args) : (s.setArgs v).staging = s.staging := rfl
@[simp] theorem setArgs_active (v : Args) : (s.setArgs v).active = s.active := rfl
@[simp] theorem setArgs_env (v : Args) : (s.setArgs v).env = s.env := rfl
@[simp] theorem setArgs_grain (v : Args) : (s.setArgs v).grain = s.grain := rfl
@[simp] theorem setArgs_noteAmp (v : Args) : (s.setArgs v).noteAmp = s.noteAmp := rfl
@[simp] theorem setArgs_error (v : Args) : (s.setArgs v).error = s.error := rfl
@[simp] theorem setArgs_ram (v : Args) : (s.setArgs v).ram = s.ram := rfl
@[simp] theorem setArgs_era (v : Args) : (s.setArgs v).era = s.era := rfl
@[simp] theorem setArgs_pending (v : Args) : (s.setArgs v).pending = s.pending := rfl
@[simp] theorem setArgs_response (v : Args) : (s.setArgs v).response = s.response := rfl

@[simp] theorem setResults_par (v : Results) : (s.setResults v).par = s.par := rfl
@[simp] theorem setResults_args (v : Results) : (s.setResults v).args = s.args := rfl
@[simp] theorem setResults_results (v : Results) : (s.setResults v).results = v := rfl
@[simp] theorem setResults_staging (v : Results) : (s.setResults v).staging = s.staging := rfl
@[simp] theorem setResults_active (v : Results) : (s.setResults v).active = s.active := rfl
@[simp] theorem setResults_env (v : Results) : (s.setResults v).env = s.env := rfl
@[simp] theorem setResults_grain (v : Results) : (s.setResults v).grain = s.grain := rfl
@[simp] theorem setResults_noteAmp (v : Results) : (s.setResults v).noteAmp = s.noteAmp := rfl
@[simp] theorem setResults_error (v : Results) : (s.setResults v).error = s.error := rfl
@[simp] theorem setResults_ram (v : Results) : (s.setResults v).ram = s.ram := rfl
@[simp] theorem setResults_era (v : Results) : (s.setResults v).era = s.era := rfl
@[simp] theorem setResults_pending (v : Results) : (s.setResults v).pending = s.pending := rfl
@[simp] theorem setResults_response (v : Results) : (s.setResults v).response = s.response := rfl

@[simp] theorem setStaging_par (v : Staging) : (s.setStaging v).par = s.par := rfl
@[simp] theorem setStaging_args (v : Staging) : (s.setStaging v).args = s.args := rfl
@[simp] theorem setStaging_results (v : Staging) : (s.setStaging v).results = s.results := rfl
@[simp] theorem setStaging_staging (v : Staging) : (s.setStaging v).staging = v := rfl
@[simp] theorem setStaging_active (v : Staging) : (s.setStaging v).active = s.active := rfl
@[simp] theorem setStaging_env (v : Staging) : (s.setStaging v).env = s.env := rfl
@[simp] theorem setStaging_grain (v : Staging) : (s.setStaging v).grain = s.grain := rfl
@[simp] theorem setStaging_noteAmp (v : Staging) : (s.setStaging v).noteAmp = s.noteAmp := rfl
@[simp] theorem setStaging_error (v : Staging) : (s.setStaging v).error = s.error := rfl
@[simp] theorem setStaging_ram (v : Staging) : (s.setStaging v).ram = s.ram := rfl
@[simp] theorem setStaging_era (v : Staging) : (s.setStaging v).era = s.era := rfl
@[simp] theorem setStaging_pending (v : Staging) : (s.setStaging v).pending = s.pending := rfl
@[simp] theorem setStaging_response (v : Staging) : (s.setStaging v).response = s.response := rfl

@[simp] theorem setActive_par (v : Active) : (s.setActive v).par = s.par := rfl
@[simp] theorem setActive_args (v : Active) : (s.setActive v).args = s.args := rfl
@[simp] theorem setActive_results (v : Active) : (s.setActive v).results = s.results := rfl
@[simp] theorem setActive_staging (v : Active) : (s.setActive v).staging = s.staging := rfl
@[simp] theorem setActive_active (v : Active) : (s.setActive v).active = v := rfl
@[simp] theorem setActive_env (v : Active) : (s.setActive v).env = s.env := rfl
@[simp] theorem setActive_grain (v : Active) : (s.setActive v).grain = s.grain := rfl
@[simp] theorem setActive_noteAmp (v : Active) : (s.setActive v).noteAmp = s.noteAmp := rfl
@[simp] theorem setActive_error (v : Active) : (s.setActive v).error = s.error := rfl
@[simp] theorem setActive_ram (v : Active) : (s.setActive v).ram = s.ram := rfl
@[simp] theorem setActive_era (v : Active) : (s.setActive v).era = s.era := rfl
@[simp] theorem setActive_pending (v : Active) : (s.setActive v).pending = s.pending := rfl
@[simp] theorem setActive_response (v : Active) : (s.setActive v).response = s.response := rfl

@[simp] theorem setEnv_par (v : Env) : (s.setEnv v).par = s.par := rfl
@[simp] theorem setEnv_args (v : Env) : (s.setEnv v).args = s.args := rfl
@[simp] theorem setEnv_results (v : Env) : (s.setEnv v).results = s.results := rfl
@[simp] theorem setEnv_staging (v : Env) : (s.setEnv v).staging = s.staging := rfl
@[simp] theorem setEnv_active (v : Env) : (s.setEnv v).active = s.active := rfl
@[simp] theorem setEnv_env (v : Env) : (s.setEnv v).env = v := rfl
@[simp] theorem setEnv_grain (v : Env) : (s.setEnv v).grain = s.grain := rfl
@[simp] theorem setEnv_noteAmp (v : Env) : (s.setEnv v).noteAmp = s.noteAmp := rfl
@[simp] theorem setEnv_error (v : Env) : (s.setEnv v).error = s.error := rfl
@[simp] theorem setEnv_ram (v : Env) : (s.setEnv v).ram = s.ram := rfl
@[simp] theorem setEnv_era (v : Env) : (s.setEnv v).era = s.era := rfl
@[simp] theorem setEnv_pending (v : Env) : (s.setEnv v).pending = s.pending := rfl
@[simp] theorem setEnv_response (v : Env) : (s.setEnv v).response = s.response := rfl

@[simp] theorem setGrain_par (v : Grain) : (s.setGrain v).par = s.par := rfl
@[simp] theorem setGrain_args (v : Grain) : (s.setGrain v).args = s.args := rfl
@[simp] theorem setGrain_results (v : Grain) : (s.setGrain v).results = s.results := rfl
@[simp] theorem setGrain_staging (v : Grain) : (s.setGrain v).staging = s.staging := rfl
@[simp] theorem setGrain_active (v : Grain) : (s.setGrain v).active = s.active := rfl
@[simp] theorem setGrain_env (v : Grain) : (s.setGrain v).env = s.env := rfl
@[simp] theorem setGrain_grain (v : Grain) : (s.setGrain v).grain = v := rfl
@[simp] theorem setGrain_noteAmp (v : Grain) : (s.setGrain v).noteAmp = s.noteAmp := rfl
@[simp] theorem setGrain_error (v : Grain) : (s.setGrain v).error = s.error := rfl
@[simp] theorem setGrain_ram (v : Grain) : (s.setGrain v).ram = s.ram := rfl
@[simp] theorem setGrain_era (v : Grain) : (s.setGrain v).era = s.era := rfl
@[simp] theorem setGrain_pending (v : Grain) : (s.setGrain v).pending = s.pending := rfl
@[simp] theorem setGrain_response (v : Grain) : (s.setGrain v).response = s.response := rfl

@[simp] theorem setNoteAmp_par (v : Word) : (s.setNoteAmp v).par = s.par := rfl
@[simp] theorem setNoteAmp_args (v : Word) : (s.setNoteAmp v).args = s.args := rfl
@[simp] theorem setNoteAmp_results (v : Word) : (s.setNoteAmp v).results = s.results := rfl
@[simp] theorem setNoteAmp_staging (v : Word) : (s.setNoteAmp v).staging = s.staging := rfl
@[simp] theorem setNoteAmp_active (v : Word) : (s.setNoteAmp v).active = s.active := rfl
@[simp] theorem setNoteAmp_env (v : Word) : (s.setNoteAmp v).env = s.env := rfl
@[simp] theorem setNoteAmp_grain (v : Word) : (s.setNoteAmp v).grain = s.grain := rfl
@[simp] theorem setNoteAmp_noteAmp (v : Word) : (s.setNoteAmp v).noteAmp = v := rfl
@[simp] theorem setNoteAmp_error (v : Word) : (s.setNoteAmp v).error = s.error := rfl
@[simp] theorem setNoteAmp_ram (v : Word) : (s.setNoteAmp v).ram = s.ram := rfl
@[simp] theorem setNoteAmp_era (v : Word) : (s.setNoteAmp v).era = s.era := rfl
@[simp] theorem setNoteAmp_pending (v : Word) : (s.setNoteAmp v).pending = s.pending := rfl
@[simp] theorem setNoteAmp_response (v : Word) : (s.setNoteAmp v).response = s.response := rfl

@[simp] theorem setError_par (v : ErrorReg) : (s.setError v).par = s.par := rfl
@[simp] theorem setError_args (v : ErrorReg) : (s.setError v).args = s.args := rfl
@[simp] theorem setError_results (v : ErrorReg) : (s.setError v).results = s.results := rfl
@[simp] theorem setError_staging (v : ErrorReg) : (s.setError v).staging = s.staging := rfl
@[simp] theorem setError_active (v : ErrorReg) : (s.setError v).active = s.active := rfl
@[simp] theorem setError_env (v : ErrorReg) : (s.setError v).env = s.env := rfl
@[simp] theorem setError_grain (v : ErrorReg) : (s.setError v).grain = s.grain := rfl
@[simp] theorem setError_noteAmp (v : ErrorReg) : (s.setError v).noteAmp = s.noteAmp := rfl
@[simp] theorem setError_error (v : ErrorReg) : (s.setError v).error = v := rfl
@[simp] theorem setError_ram (v : ErrorReg) : (s.setError v).ram = s.ram := rfl
@[simp] theorem setError_era (v : ErrorReg) : (s.setError v).era = s.era := rfl
@[simp] theorem setError_pending (v : ErrorReg) : (s.setError v).pending = s.pending := rfl
@[simp] theorem setError_response (v : ErrorReg) : (s.setError v).response = s.response := rfl

@[simp] theorem setRam_par (v : Memory) : (s.setRam v).par = s.par := rfl
@[simp] theorem setRam_args (v : Memory) : (s.setRam v).args = s.args := rfl
@[simp] theorem setRam_results (v : Memory) : (s.setRam v).results = s.results := rfl
@[simp] theorem setRam_staging (v : Memory) : (s.setRam v).staging = s.staging := rfl
@[simp] theorem setRam_active (v : Memory) : (s.setRam v).active = s.active := rfl
@[simp] theorem setRam_env (v : Memory) : (s.setRam v).env = s.env := rfl
@[simp] theorem setRam_grain (v : Memory) : (s.setRam v).grain = s.grain := rfl
@[simp] theorem setRam_noteAmp (v : Memory) : (s.setRam v).noteAmp = s.noteAmp := rfl
@[simp] theorem setRam_error (v : Memory) : (s.setRam v).error = s.error := rfl
@[simp] theorem setRam_ram (v : Memory) : (s.setRam v).ram = v := rfl
@[simp] theorem setRam_era (v : Memory) : (s.setRam v).era = s.era := rfl
@[simp] theorem setRam_pending (v : Memory) : (s.setRam v).pending = s.pending := rfl
@[simp] theorem setRam_response (v : Memory) : (s.setRam v).response = s.response := rfl

@[simp] theorem setPending_par (v : List HostInput) : (s.setPending v).par = s.par := rfl
@[simp] theorem setPending_args (v : List HostInput) : (s.setPending v).args = s.args := rfl
@[simp] theorem setPending_results (v : List HostInput) : (s.setPending v).results = s.results := rfl
@[simp] theorem setPending_staging (v : List HostInput) : (s.setPending v).staging = s.staging := rfl
@[simp] theorem setPending_active (v : List HostInput) : (s.setPending v).active = s.active := rfl
@[simp] theorem setPending_env (v : List HostInput) : (s.setPending v).env = s.env := rfl
@[simp] theorem setPending_grain (v : List HostInput) : (s.setPending v).grain = s.grain := rfl
@[simp] theorem setPending_noteAmp (v : List HostInput) : (s.setPending v).noteAmp = s.noteAmp := rfl
@[simp] theorem setPending_error (v : List HostInput) : (s.setPending v).error = s.error := rfl
@[simp] theorem setPending_ram (v : List HostInput) : (s.setPending v).ram = s.ram := rfl
@[simp] theorem setPending_era (v : List HostInput) : (s.setPending v).era = s.era := rfl
@[simp] theorem setPending_pending (v : List HostInput) : (s.setPending v).pending = v := rfl
@[simp] theorem setPending_response (v : List HostInput) : (s.setPending v).response = s.response := rfl

@[simp] theorem setResponse_par (v : Option Response) : (s.setResponse v).par = s.par := rfl
@[simp] theorem setResponse_args (v : Option Response) : (s.setResponse v).args = s.args := rfl
@[simp] theorem setResponse_results (v : Option Response) : (s.setResponse v).results = s.results := rfl
@[simp] theorem setResponse_staging (v : Option Response) : (s.setResponse v).staging = s.staging := rfl
@[simp] theorem setResponse_active (v : Option Response) : (s.setResponse v).active = s.active := rfl
@[simp] theorem setResponse_env (v : Option Response) : (s.setResponse v).env = s.env := rfl
@[simp] theorem setResponse_grain (v : Option Response) : (s.setResponse v).grain = s.grain := rfl
@[simp] theorem setResponse_noteAmp (v : Option Response) : (s.setResponse v).noteAmp = s.noteAmp := rfl
@[simp] theorem setResponse_error (v : Option Response) : (s.setResponse v).error = s.error := rfl
@[simp] theorem setResponse_ram (v : Option Response) : (s.setResponse v).ram = s.ram := rfl
@[simp] theorem setResponse_era (v : Option Response) : (s.setResponse v).era = s.era := rfl
@[simp] theorem setResponse_pending (v : Option Response) : (s.setResponse v).pending = s.pending := rfl
@[simp] theorem setResponse_response (v : Option Response) : (s.setResponse v).response = v := rfl

@[simp] theorem accept_par : s.accept.par = s.par := rfl
@[simp] theorem accept_args : s.accept.args = s.args := rfl
@[simp] theorem accept_results : s.accept.results = s.results := rfl
@[simp] theorem accept_staging : s.accept.staging = s.staging := rfl
@[simp] theorem accept_active : s.accept.active = s.active := rfl
@[simp] theorem accept_env : s.accept.env = s.env := rfl
@[simp] theorem accept_grain : s.accept.grain = s.grain := rfl
@[simp] theorem accept_noteAmp : s.accept.noteAmp = s.noteAmp := rfl
@[simp] theorem accept_error : s.accept.error = s.error := rfl
@[simp] theorem accept_ram : s.accept.ram = s.ram := rfl
@[simp] theorem accept_era : s.accept.era = s.era := rfl
@[simp] theorem accept_pending : s.accept.pending = s.pending := rfl
@[simp] theorem accept_response : s.accept.response = some okayResponse := rfl

@[simp] theorem reject_par (c : ErrCode) : (s.reject c).par = s.par := rfl
@[simp] theorem reject_args (c : ErrCode) : (s.reject c).args = s.args := rfl
@[simp] theorem reject_results (c : ErrCode) : (s.reject c).results = s.results := rfl
@[simp] theorem reject_staging (c : ErrCode) : (s.reject c).staging = s.staging := rfl
@[simp] theorem reject_active (c : ErrCode) : (s.reject c).active = s.active := rfl
@[simp] theorem reject_env (c : ErrCode) : (s.reject c).env = s.env := rfl
@[simp] theorem reject_grain (c : ErrCode) : (s.reject c).grain = s.grain := rfl
@[simp] theorem reject_noteAmp (c : ErrCode) : (s.reject c).noteAmp = s.noteAmp := rfl
@[simp] theorem reject_error (c : ErrCode) : (s.reject c).error = ⟨true, c⟩ := rfl
@[simp] theorem reject_ram (c : ErrCode) : (s.reject c).ram = s.ram := rfl
@[simp] theorem reject_era (c : ErrCode) : (s.reject c).era = s.era := rfl
@[simp] theorem reject_pending (c : ErrCode) : (s.reject c).pending = s.pending := rfl
@[simp] theorem reject_response (c : ErrCode) : (s.reject c).response = some errorResponse := rfl

@[simp] theorem putRam_par (r : Region) (i : Nat) (v : Word) : (s.putRam r i v).par = s.par := rfl
@[simp] theorem putRam_args (r : Region) (i : Nat) (v : Word) : (s.putRam r i v).args = s.args := rfl
@[simp] theorem putRam_results (r : Region) (i : Nat) (v : Word) : (s.putRam r i v).results = s.results := rfl
@[simp] theorem putRam_staging (r : Region) (i : Nat) (v : Word) : (s.putRam r i v).staging = s.staging := rfl
@[simp] theorem putRam_active (r : Region) (i : Nat) (v : Word) : (s.putRam r i v).active = s.active := rfl
@[simp] theorem putRam_env (r : Region) (i : Nat) (v : Word) : (s.putRam r i v).env = s.env := rfl
@[simp] theorem putRam_grain (r : Region) (i : Nat) (v : Word) : (s.putRam r i v).grain = s.grain := rfl
@[simp] theorem putRam_noteAmp (r : Region) (i : Nat) (v : Word) : (s.putRam r i v).noteAmp = s.noteAmp := rfl
@[simp] theorem putRam_error (r : Region) (i : Nat) (v : Word) : (s.putRam r i v).error = s.error := rfl
@[simp] theorem putRam_ram (r : Region) (i : Nat) (v : Word) : (s.putRam r i v).ram = Memory.write s.ram (ramAddr r i) v := rfl
@[simp] theorem putRam_era (r : Region) (i : Nat) (v : Word) : (s.putRam r i v).era = s.era := rfl
@[simp] theorem putRam_pending (r : Region) (i : Nat) (v : Word) : (s.putRam r i v).pending = s.pending := rfl
@[simp] theorem putRam_response (r : Region) (i : Nat) (v : Word) : (s.putRam r i v).response = s.response := rfl

@[simp] theorem putEnvOut_par (v : Word) : (s.putEnvOut v).par = s.par := rfl
@[simp] theorem putEnvOut_args (v : Word) : (s.putEnvOut v).args = s.args := rfl
@[simp] theorem putEnvOut_results (v : Word) : (s.putEnvOut v).results = { s.results with env := v } := rfl
@[simp] theorem putEnvOut_staging (v : Word) : (s.putEnvOut v).staging = s.staging := rfl
@[simp] theorem putEnvOut_active (v : Word) : (s.putEnvOut v).active = s.active := rfl
@[simp] theorem putEnvOut_env (v : Word) : (s.putEnvOut v).env = s.env := rfl
@[simp] theorem putEnvOut_grain (v : Word) : (s.putEnvOut v).grain = s.grain := rfl
@[simp] theorem putEnvOut_noteAmp (v : Word) : (s.putEnvOut v).noteAmp = s.noteAmp := rfl
@[simp] theorem putEnvOut_error (v : Word) : (s.putEnvOut v).error = s.error := rfl
@[simp] theorem putEnvOut_ram (v : Word) : (s.putEnvOut v).ram = s.ram := rfl
@[simp] theorem putEnvOut_era (v : Word) : (s.putEnvOut v).era = s.era := rfl
@[simp] theorem putEnvOut_pending (v : Word) : (s.putEnvOut v).pending = s.pending := rfl
@[simp] theorem putEnvOut_response (v : Word) : (s.putEnvOut v).response = s.response := rfl

@[simp] theorem putGrOut_par (v : Word) : (s.putGrOut v).par = s.par := rfl
@[simp] theorem putGrOut_args (v : Word) : (s.putGrOut v).args = s.args := rfl
@[simp] theorem putGrOut_results (v : Word) : (s.putGrOut v).results = { s.results with gr := v } := rfl
@[simp] theorem putGrOut_staging (v : Word) : (s.putGrOut v).staging = s.staging := rfl
@[simp] theorem putGrOut_active (v : Word) : (s.putGrOut v).active = s.active := rfl
@[simp] theorem putGrOut_env (v : Word) : (s.putGrOut v).env = s.env := rfl
@[simp] theorem putGrOut_grain (v : Word) : (s.putGrOut v).grain = s.grain := rfl
@[simp] theorem putGrOut_noteAmp (v : Word) : (s.putGrOut v).noteAmp = s.noteAmp := rfl
@[simp] theorem putGrOut_error (v : Word) : (s.putGrOut v).error = s.error := rfl
@[simp] theorem putGrOut_ram (v : Word) : (s.putGrOut v).ram = s.ram := rfl
@[simp] theorem putGrOut_era (v : Word) : (s.putGrOut v).era = s.era := rfl
@[simp] theorem putGrOut_pending (v : Word) : (s.putGrOut v).pending = s.pending := rfl
@[simp] theorem putGrOut_response (v : Word) : (s.putGrOut v).response = s.response := rfl

@[simp] theorem putVoiceOut_par (v : Word) : (s.putVoiceOut v).par = s.par := rfl
@[simp] theorem putVoiceOut_args (v : Word) : (s.putVoiceOut v).args = s.args := rfl
@[simp] theorem putVoiceOut_results (v : Word) : (s.putVoiceOut v).results = { s.results with voice := v } := rfl
@[simp] theorem putVoiceOut_staging (v : Word) : (s.putVoiceOut v).staging = s.staging := rfl
@[simp] theorem putVoiceOut_active (v : Word) : (s.putVoiceOut v).active = s.active := rfl
@[simp] theorem putVoiceOut_env (v : Word) : (s.putVoiceOut v).env = s.env := rfl
@[simp] theorem putVoiceOut_grain (v : Word) : (s.putVoiceOut v).grain = s.grain := rfl
@[simp] theorem putVoiceOut_noteAmp (v : Word) : (s.putVoiceOut v).noteAmp = s.noteAmp := rfl
@[simp] theorem putVoiceOut_error (v : Word) : (s.putVoiceOut v).error = s.error := rfl
@[simp] theorem putVoiceOut_ram (v : Word) : (s.putVoiceOut v).ram = s.ram := rfl
@[simp] theorem putVoiceOut_era (v : Word) : (s.putVoiceOut v).era = s.era := rfl
@[simp] theorem putVoiceOut_pending (v : Word) : (s.putVoiceOut v).pending = s.pending := rfl
@[simp] theorem putVoiceOut_response (v : Word) : (s.putVoiceOut v).response = s.response := rfl

end Sys2Proof.Machine.State
end

