-- ==== Sys2Proof/Laws/Memory.lean ====
section
/-! SUPPORT. Sys2Proof/Laws/Memory.lean: the laws of RAM: read after write, writes leave other addresses alone and keep the
canonical form, equal memories are equal lists, and no two RAM words share an address. -/

namespace Sys2Proof.Machine

namespace Memory

theorem read_write_same (m : Memory) (a : Nat) (v : Word) : read (write m a v) a = some v := by
  induction m with
  | nil => simp [write, read]
  | cons x m ih =>
    unfold write
    split
    · simp [read]
    · split
      · simp [read]
      · rename_i h1 h2
        simp [read, ih, Ne.symm h2]

theorem read_write_other (m : Memory) {a b : Nat} (v : Word) (h : b ≠ a) : read (write m a v) b = read m b := by
  induction m with
  | nil => simp [write, read, h.symm]
  | cons x m ih =>
    unfold write
    split
    · simp [read, h.symm]
    · split
      · rename_i h1 h2
        subst h2
        simp [read, h.symm]
      · simp [read, ih]

/-- Read after write at any two addresses. -/
theorem read_write (m : Memory) (a b : Nat) (v : Word) :
    read (write m a v) b = if b = a then some v else read m b := by
  split
  · subst b
    exact read_write_same m a v
  · exact read_write_other m v ‹_›

/-- Every address listed after `a` is above it. -/
theorem wf_cons {x : Nat × Word} {m : Memory} : wf (x :: m) = true ↔ wf m = true ∧ ∀ y ∈ m, x.1 < y.1 := by
  induction m generalizing x with
  | nil => simp [wf]
  | cons y m ih =>
    simp only [wf, Bool.and_eq_true, decide_eq_true_eq, List.mem_cons, forall_eq_or_imp]
    constructor
    · rintro ⟨h1, h2⟩
      exact ⟨h2, h1, fun z hz => h1.trans ((ih.mp h2).2 z hz)⟩
    · rintro ⟨h1, h2, _⟩
      exact ⟨h2, h1⟩

theorem mem_write {m : Memory} {a : Nat} {v : Word} {y : Nat × Word} (h : y ∈ write m a v) : y = (a, v) ∨ y ∈ m := by
  induction m with
  | nil => simpa [write] using h
  | cons x m ih =>
    unfold write at h
    split at h
    · simpa using h
    · split at h
      · simp only [List.mem_cons] at h ⊢
        tauto
      · simp only [List.mem_cons] at h ⊢
        rcases h with h | h
        · tauto
        · have := ih h
          tauto

/-- A write keeps the canonical form. -/
theorem wf_write {m : Memory} (a : Nat) (v : Word) (h : wf m = true) : wf (write m a v) = true := by
  induction m with
  | nil => simp [write, wf]
  | cons x m ih =>
    obtain ⟨hm, hx⟩ := wf_cons.mp h
    unfold write
    split
    · rename_i h1
      refine wf_cons.mpr ⟨h, ?_⟩
      intro y hy
      rcases List.mem_cons.mp hy with rfl | hy
      · exact h1
      · exact h1.trans (hx y hy)
    · split
      · rename_i h1 h2
        refine wf_cons.mpr ⟨hm, ?_⟩
        subst h2
        exact hx
      · rename_i h1 h2
        refine wf_cons.mpr ⟨ih hm, ?_⟩
        intro y hy
        rcases mem_write hy with rfl | hy
        · exact lt_of_le_of_ne (Nat.le_of_not_lt h1) (Ne.symm h2)
        · exact hx y hy

theorem read_none_of_below {m : Memory} {a : Nat} (h : ∀ y ∈ m, a < y.1) : read m a = none := by
  induction m with
  | nil => rfl
  | cons x m ih =>
    have hx := h x (by simp)
    simp only [read]
    rw [if_neg (by omega)]
    exact ih fun y hy => h y (List.mem_cons_of_mem _ hy)

/-- In canonical form, equal memories are equal data. -/
theorem ext_of_wf {m n : Memory} (hm : wf m = true) (hn : wf n = true) (h : ∀ a, read m a = read n a) : m = n := by
  induction m generalizing n with
  | nil =>
    cases n with
    | nil => rfl
    | cons y n =>
      have := h y.1
      simp [read] at this
  | cons x m ih =>
    cases n with
    | nil =>
      have := h x.1
      simp [read] at this
    | cons y n =>
      obtain ⟨hm', hx⟩ := wf_cons.mp hm
      obtain ⟨hn', hy⟩ := wf_cons.mp hn
      have key : x.1 = y.1 := by
        rcases Nat.lt_trichotomy x.1 y.1 with hlt | heq | hgt
        · have h1 := h x.1
          have h2 : read (y :: n) x.1 = none := read_none_of_below fun z hz => by
            rcases List.mem_cons.mp hz with rfl | hz
            · exact hlt
            · exact hlt.trans (hy z hz)
          rw [h2] at h1
          simp [read] at h1
        · exact heq
        · have h1 := h y.1
          have h2 : read (x :: m) y.1 = none := read_none_of_below fun z hz => by
            rcases List.mem_cons.mp hz with rfl | hz
            · exact hgt
            · exact hgt.trans (hx z hz)
          rw [h2] at h1
          simp [read] at h1
      have hv : x.2 = y.2 := by
        have := h x.1
        simpa [read, key] using this
      have hrest : m = n := by
        refine ih hm' hn' fun a => ?_
        by_cases ha : x.1 = a
        · subst ha
          rw [read_none_of_below hx, read_none_of_below (by rw [key]; exact hy)]
        · have := h a
          simpa [read, ha, key ▸ ha] using this
      rw [hrest, Prod.ext key hv]

end Memory

/-! ## Addresses of RAM words -/

theorem Region.code_lt (r : Region) : r.code < 9 := by
  cases r with
  | raw g => cases g <;> decide
  | tab g => cases g <;> decide
  | src => decide
  | buf => decide

theorem Region.code_inj {r r' : Region} (h : r.code = r'.code) : r = r' := by
  cases r with
  | raw g => cases g <;> (cases r' with | raw g' => cases g' <;> simp_all [Region.code] | tab g' => cases g' <;> simp_all [Region.code] | _ => simp_all [Region.code])
  | tab g => cases g <;> (cases r' with | raw g' => cases g' <;> simp_all [Region.code] | tab g' => cases g' <;> simp_all [Region.code] | _ => simp_all [Region.code])
  | src => cases r' with | raw g' => cases g' <;> simp_all [Region.code] | tab g' => cases g' <;> simp_all [Region.code] | _ => simp_all [Region.code]
  | buf => cases r' with | raw g' => cases g' <;> simp_all [Region.code] | tab g' => cases g' <;> simp_all [Region.code] | _ => simp_all [Region.code]

/-- Two RAM words of the address map share an address only if they are the same word. -/
theorem ramAddr_inj {r r' : Region} {i i' : Nat} (hi : i < 2 ^ 20) (hi' : i' < 2 ^ 20)
    (h : ramAddr r i = ramAddr r' i') : r = r' ∧ i = i' := by
  unfold ramAddr at h
  have hc : r.code = r'.code := by omega
  exact ⟨Region.code_inj hc, by omega⟩

/-- Within the bounds of the parameters a region fits its 20-bit offsets. -/
theorem Region.size_le {p : Config.Params} (h : p.wellFormed = true) (r : Region) : r.size p ≤ 2 ^ 20 := by
  simp only [Config.Params.wellFormed, Bool.and_eq_true, decide_eq_true_eq] at h
  cases r <;> simp only [Region.size, Config.rMax] <;> omega

namespace State

theorem ramWord_putRam_same (s : State) (r : Region) (i : Nat) (v : Word) : (s.putRam r i v).ramWord r i = v := by
  simp [ramWord, Memory.read_write_same]

theorem ramWord_putRam_other (s : State) {r r' : Region} {i i' : Nat} (v : Word)
    (h : ramAddr r' i' ≠ ramAddr r i) : (s.putRam r i v).ramWord r' i' = s.ramWord r' i' := by
  simp [ramWord, Memory.read_write_other _ _ h]

/-- A RAM word depends on the memory and the era alone. -/
theorem ramWord_congr {s t : State} (hr : s.ram = t.ram) (he : s.era = t.era) (r : Region) (i : Nat) :
    s.ramWord r i = t.ramWord r i := by
  simp [ramWord, hr, he]

end State

end Sys2Proof.Machine
end

