-- ==== Sys2Proof/Laws/Envelope.lean ====
section
/-! SUPPORT. Sys2Proof/Laws/Envelope.lean: what the envelope engine can do: where a sample leaves the stage, and that every
operation keeps the envelope invariants of `10_state.md` R34. -/

namespace Sys2Proof.Machine

theorem PerSeg.get_set {α : Type} (x : PerSeg α) (g g' : Segment) (v : α) :
    (x.set g v).get g' = if g' = g then v else x.get g' := by
  cases g <;> cases g' <;> rfl

@[simp] theorem PerSeg.get_all {α : Type} (v : α) (g : Segment) : (PerSeg.all v).get g = v := by
  cases g <;> rfl

/-! ## Stages and amplitudes -/

@[simp] theorem segEnter_stage (tab : Segment → Nat → Word) (a : Active) (g : Segment) (e : Env) :
    (segEnter tab a g e).stage = e.stage := rfl
@[simp] theorem segEnter_amp (tab : Segment → Nat → Word) (a : Active) (g : Segment) (e : Env) :
    (segEnter tab a g e).amp = e.amp := rfl
@[simp] theorem segEnter_relStart (tab : Segment → Nat → Word) (a : Active) (g : Segment) (e : Env) :
    (segEnter tab a g e).relStart = e.relStart := rfl
@[simp] theorem segEnter_segs (tab : Segment → Nat → Word) (a : Active) (g : Segment) (e : Env) :
    (segEnter tab a g e).segs = e.segs.set g ⟨0, 0, segRate tab a e g 0⟩ := rfl
@[simp] theorem segStep_stage (tab : Segment → Nat → Word) (a : Active) (g : Segment) (e : Env) :
    (segStep tab a g e).stage = e.stage := rfl
@[simp] theorem segStep_relStart (tab : Segment → Nat → Word) (a : Active) (g : Segment) (e : Env) :
    (segStep tab a g e).relStart = e.relStart := rfl
@[simp] theorem segStep_segs (tab : Segment → Nat → Word) (a : Active) (g : Segment) (e : Env) :
    (segStep tab a g e).segs = e.segs.set g (segCount tab a g e) := rfl
@[simp] theorem segStep_amp (tab : Segment → Nat → Word) (a : Active) (g : Segment) (e : Env) :
    (segStep tab a g e).amp = add32 e.amp (segCount tab a g e).rate := rfl

/-- Where one call of the Decay arm ends (`41_envelope.md` R134). -/
theorem envDecay_cases (tab : Segment → Nat → Word) (a : Active) (e : Env) :
    (le32 e.amp a.params.sustain = true ∧
      envDecay tab a e = (a.params.sustain, { e with amp := a.params.sustain, stage := .sustain })) ∨
    (le32 e.amp a.params.sustain = false ∧
      envDecay tab a e = ((segStep tab a .decay e).amp, segStep tab a .decay e)) := by
  unfold envDecay envSustain
  cases h : le32 e.amp a.params.sustain
  · exact .inr ⟨rfl, rfl⟩
  · exact .inl ⟨rfl, rfl⟩

/-- Where one call of the Attack arm ends (`41_envelope.md` R134). -/
theorem envAttack_cases (tab : Segment → Nat → Word) (a : Active) (e : Env) :
    (ge32 e.amp a.params.maxamp = true ∧
      envAttack tab a e
        = envDecay tab a (segEnter tab a .decay { e with amp := a.params.maxamp, stage := .decay })) ∨
    (ge32 e.amp a.params.maxamp = false ∧
      envAttack tab a e = ((segStep tab a .attack e).amp, segStep tab a .attack e)) := by
  unfold envAttack
  cases h : ge32 e.amp a.params.maxamp
  · exact .inr ⟨rfl, rfl⟩
  · exact .inl ⟨rfl, rfl⟩

/-- Where one call of the Release arm ends (`41_envelope.md` R134). -/
theorem envRelease_cases (tab : Segment → Nat → Word) (a : Active) (e : Env) :
    (le32 (segStep tab a .release e).amp posZero32 = true ∧
      envRelease tab a e
        = (posZero32, { segStep tab a .release e with amp := posZero32, stage := .idle })) ∨
    (le32 (segStep tab a .release e).amp posZero32 = false ∧
      envRelease tab a e = ((segStep tab a .release e).amp, segStep tab a .release e)) := by
  unfold envRelease
  cases h : le32 (segStep tab a .release e).amp posZero32
  · exact .inr ⟨rfl, if_neg (by rw [h]; decide)⟩
  · exact .inl ⟨rfl, if_pos h⟩

/-- The sample returned is the amplitude left (`41_envelope.md` R134), in Idle `+0.0`. -/
theorem envNext_fst (tab : Segment → Nat → Word) (a : Active) (e : Env) (h : e.stage ≠ .idle) :
    (envNext tab a e).1 = (envNext tab a e).2.amp := by
  unfold envNext
  cases hs : e.stage with
  | idle => exact absurd hs h
  | attack =>
    rcases envAttack_cases tab a e with ⟨-, h1⟩ | ⟨-, h1⟩
    · dsimp only
      rw [h1]
      rcases envDecay_cases tab a (segEnter tab a .decay { e with amp := a.params.maxamp, stage := .decay })
        with ⟨-, h2⟩ | ⟨-, h2⟩ <;> rw [h2]
    · dsimp only
      rw [h1]
  | decay =>
    rcases envDecay_cases tab a e with ⟨-, h1⟩ | ⟨-, h1⟩ <;> dsimp only <;> rw [h1]
  | sustain => rfl
  | release =>
    rcases envRelease_cases tab a e with ⟨-, h1⟩ | ⟨-, h1⟩ <;> dsimp only <;> rw [h1]

/-- The stages one sample can lead to (`41_envelope.md` R134, R135). -/
theorem envNext_stage (tab : Segment → Nat → Word) (a : Active) (e : Env) :
    (envNext tab a e).2.stage = e.stage ∨
    (e.stage = .attack ∧ ((envNext tab a e).2.stage = .decay ∨ (envNext tab a e).2.stage = .sustain)) ∨
    (e.stage = .decay ∧ (envNext tab a e).2.stage = .sustain) ∨
    (e.stage = .release ∧ (envNext tab a e).2.stage = .idle) := by
  unfold envNext
  cases hs : e.stage with
  | idle => exact .inl hs
  | attack =>
    dsimp only
    rcases envAttack_cases tab a e with ⟨-, h1⟩ | ⟨-, h1⟩ <;> rw [h1]
    · rcases envDecay_cases tab a (segEnter tab a .decay { e with amp := a.params.maxamp, stage := .decay })
        with ⟨-, h2⟩ | ⟨-, h2⟩ <;> rw [h2]
      · exact .inr (.inl ⟨rfl, .inr rfl⟩)
      · exact .inr (.inl ⟨rfl, .inl rfl⟩)
    · exact .inl hs
  | decay =>
    dsimp only
    rcases envDecay_cases tab a e with ⟨-, h1⟩ | ⟨-, h1⟩ <;> rw [h1]
    · exact .inr (.inr (.inl ⟨rfl, rfl⟩))
    · exact .inl hs
  | sustain => exact .inl hs
  | release =>
    dsimp only
    rcases envRelease_cases tab a e with ⟨-, h1⟩ | ⟨-, h1⟩ <;> rw [h1]
    · exact .inr (.inr (.inr ⟨rfl, rfl⟩))
    · exact .inl hs

/-! ## The invariants -/

/-- The records of `10_state.md` R34: index and elapsed counter in range. -/
def SegsOk (a : Active) (e : Env) : Prop :=
  a.cfgValid = true → ∀ g, (e.segs.get g).idx ≤ a.params.resolution - 1 ∧ (e.segs.get g).elapsed < a.steps.get g

theorem SegsOk.enter {tab : Segment → Nat → Word} {a : Active} {e : Env} (g : Segment)
    (hp : a.cfgValid = true → ∀ g, 1 ≤ a.steps.get g) (h : SegsOk a e) : SegsOk a (segEnter tab a g e) := by
  intro hc g'
  simp only [segEnter_segs, PerSeg.get_set]
  have := hp hc g'
  split
  · exact ⟨Nat.zero_le _, this⟩
  · exact h hc g'

theorem SegsOk.step {tab : Segment → Nat → Word} {a : Active} {e : Env} (g : Segment)
    (hp : a.cfgValid = true → ∀ g, 1 ≤ a.steps.get g) (h : SegsOk a e) : SegsOk a (segStep tab a g e) := by
  intro hc g'
  simp only [segStep_segs, PerSeg.get_set]
  have h1 := hp hc g
  have h2 := h hc g
  split
  · rename_i hg
    subst hg
    simp only [segCount]
    split
    · exact ⟨by dsimp only; omega, by dsimp only; omega⟩
    · exact ⟨by dsimp only; omega, by dsimp only; omega⟩
  · exact h hc g'

/-- The envelope with amplitude or stage replaced has the same records. -/
theorem SegsOk.congr {a : Active} {e e' : Env} (hs : e'.segs = e.segs) (h : SegsOk a e) : SegsOk a e' := by
  intro hc g
  rw [hs]
  exact h hc g

theorem EnvInv.segsOk {a : Active} {e : Env} (h : EnvInv a e) : SegsOk a e :=
  fun hc g => ⟨h.idx_le hc g, h.elapsed_lt hc g⟩

theorem EnvInv.mk' {a : Active} {e : Env} (h1 : e.stage = .idle → e.amp = posZero32)
    (h2 : e.stage ≠ .idle → a.cfgValid = true) (h3 : SegsOk a e) : EnvInv a e :=
  ⟨h1, h2, fun hc g => (h3 hc g).1, fun hc g => (h3 hc g).2⟩

/-- One sample keeps the envelope invariants (`10_state.md` R34). -/
theorem EnvInv.next {tab : Segment → Nat → Word} {a : Active} {e : Env}
    (hp : a.cfgValid = true → ∀ g, 1 ≤ a.steps.get g) (h : EnvInv a e) : EnvInv a (envNext tab a e).2 := by
  unfold envNext
  cases hs : e.stage with
  | idle => exact h
  | attack =>
    have hc : a.cfgValid = true := h.active_configured (by rw [hs]; decide)
    dsimp only
    rcases envAttack_cases tab a e with ⟨-, h1⟩ | ⟨-, h1⟩ <;> rw [h1]
    · have hok := SegsOk.enter (tab := tab) .decay hp
        (SegsOk.congr (e' := { e with amp := a.params.maxamp, stage := .decay }) rfl h.segsOk)
      rcases envDecay_cases tab a (segEnter tab a .decay { e with amp := a.params.maxamp, stage := .decay })
        with ⟨-, h2⟩ | ⟨-, h2⟩ <;> rw [h2]
      · exact EnvInv.mk' (by simp) (fun _ => hc) (hok.congr rfl)
      · exact EnvInv.mk' (by simp) (fun _ => hc) (hok.step .decay hp)
    · exact EnvInv.mk' (by simp [hs]) (fun _ => hc) (h.segsOk.step .attack hp)
  | decay =>
    have hc : a.cfgValid = true := h.active_configured (by rw [hs]; decide)
    dsimp only
    rcases envDecay_cases tab a e with ⟨-, h1⟩ | ⟨-, h1⟩ <;> rw [h1]
    · exact EnvInv.mk' (by simp) (fun _ => hc) (h.segsOk.congr rfl)
    · exact EnvInv.mk' (by simp [hs]) (fun _ => hc) (h.segsOk.step .decay hp)
  | sustain =>
    exact EnvInv.mk' (by simp [envSustain, hs]) (fun _ => h.active_configured (by rw [hs]; decide))
      (h.segsOk.congr rfl)
  | release =>
    have hc : a.cfgValid = true := h.active_configured (by rw [hs]; decide)
    dsimp only
    rcases envRelease_cases tab a e with ⟨-, h1⟩ | ⟨-, h1⟩ <;> rw [h1]
    · exact EnvInv.mk' (by simp) (fun _ => hc) ((h.segsOk.step .release hp).congr rfl)
    · exact EnvInv.mk' (by simp [hs]) (fun _ => hc) (h.segsOk.step .release hp)

/-- `NOTE_ON` on a configured core keeps the envelope invariants. -/
theorem EnvInv.noteOn {tab : Segment → Nat → Word} {a : Active} {e : Env}
    (hp : a.cfgValid = true → ∀ g, 1 ≤ a.steps.get g) (hc : a.cfgValid = true) (h : EnvInv a e) :
    EnvInv a (envNoteOn tab a e) := by
  unfold envNoteOn
  split
  · exact EnvInv.mk' (by simp) (fun _ => hc) (SegsOk.enter .attack hp (h.segsOk.congr rfl))
  · split
    · exact EnvInv.mk' (by simp) (fun _ => hc) (SegsOk.enter .decay hp (h.segsOk.congr rfl))
    · exact EnvInv.mk' (by simp) (fun _ => hc) (h.segsOk.congr rfl)

/-- `NOTE_OFF` keeps the envelope invariants. -/
theorem EnvInv.noteOff {tab : Segment → Nat → Word} {a : Active} {e : Env}
    (hp : a.cfgValid = true → ∀ g, 1 ≤ a.steps.get g) (h : EnvInv a e) : EnvInv a (envNoteOff tab a e) := by
  unfold envNoteOff
  split
  · exact h
  · rename_i hs
    have hc : a.cfgValid = true := h.active_configured hs
    split
    · exact EnvInv.mk' (by simp) (fun _ => hc) (SegsOk.enter .release hp (h.segsOk.congr rfl))
    · exact EnvInv.mk' (by simp) (fun _ => hc) (h.segsOk.congr rfl)

theorem EnvInv.reset (a : Active) (hp : a.cfgValid = true → ∀ g, 1 ≤ a.steps.get g) : EnvInv a Env.reset :=
  EnvInv.mk' (fun _ => rfl) (fun h => absurd rfl h) fun hc g => by
    have := hp hc g
    simp only [Env.reset, PerSeg.get_all]
    exact ⟨Nat.zero_le _, this⟩

end Sys2Proof.Machine
end

