-- ==== Sys2Proof/Laws/Float.lean ====
section
/-! SUPPORT. Sys2Proof/Laws/Float.lean: the laws of the floating-point primitives: rounding an exact value returns it, a
rounded magnitude is never above infinity, packing and unpacking, NaN, and the order. -/

namespace Sys2Proof.Machine

namespace Format

theorem nearestEven_mul (n d : Nat) (hd : 0 < d) : nearestEven (n * d) d = n := by
  simp [nearestEven, Nat.mul_div_cancel _ hd, Nat.mul_mod_left, hd]

/-- Rounding never gives more than an infinity. -/
theorem round_le (f : Format) (a b : Nat) : f.round a b ≤ f.infMag :=
  min_le_right _ _

theorem round_zero (f : Format) (b : Nat) : f.round 0 b = 0 := by
  simp [round, nearestEven]

/-- A finite magnitude's value has the binade its exponent field says. -/
theorem log2_units (f : Format) (mag : Nat) : (f.units mag).log2 - f.fracBits = mag / 2 ^ f.fracBits - 1 := by
  have hpos : 0 < 2 ^ f.fracBits := Nat.pow_pos (by decide)
  have hm : mag % 2 ^ f.fracBits < 2 ^ f.fracBits := Nat.mod_lt _ hpos
  unfold units
  dsimp only
  split
  · rename_i he
    rw [he]
    by_cases h0 : mag % 2 ^ f.fracBits = 0
    · simp [h0]
    · have := (Nat.log2_lt h0).mpr hm
      omega
  · rename_i he
    have hne : (2 ^ f.fracBits + mag % 2 ^ f.fracBits) * 2 ^ (mag / 2 ^ f.fracBits - 1) ≠ 0 := by positivity
    have : ((2 ^ f.fracBits + mag % 2 ^ f.fracBits) * 2 ^ (mag / 2 ^ f.fracBits - 1)).log2
        = f.fracBits + (mag / 2 ^ f.fracBits - 1) := by
      rw [Nat.log2_eq_iff hne]
      constructor
      · rw [pow_add]
        exact Nat.mul_le_mul_right _ (by omega)
      · rw [show f.fracBits + (mag / 2 ^ f.fracBits - 1) + 1 = (f.fracBits + 1) + (mag / 2 ^ f.fracBits - 1) by omega,
          pow_add]
        refine Nat.mul_lt_mul_of_pos_right ?_ (by positivity)
        rw [pow_succ]
        omega
    omega

/-- Rounding a finite number's own value returns it (`00_scope.md` R9: "on operands whose exact result is representable
the result is that exact value"). -/
theorem round_units (f : Format) {mag d : Nat} (hd : 0 < d) (h : mag < f.infMag) :
    f.round (f.units mag * d) d = mag := by
  have hpos : 0 < 2 ^ f.fracBits := Nat.pow_pos (by decide)
  unfold round
  rw [Nat.mul_div_cancel _ hd]
  dsimp only
  rw [log2_units]
  have key : (mag / 2 ^ f.fracBits - 1) * 2 ^ f.fracBits
      + nearestEven (f.units mag * d) (d * 2 ^ (mag / 2 ^ f.fracBits - 1)) = mag := by
    unfold units
    dsimp only
    split
    · rename_i he
      rw [he]
      simp only [Nat.zero_sub, Nat.zero_mul, pow_zero, Nat.mul_one, Nat.zero_add]
      rw [nearestEven_mul _ _ hd]
      have := Nat.div_add_mod mag (2 ^ f.fracBits)
      rw [he] at this
      omega
    · rename_i he
      rw [show (2 ^ f.fracBits + mag % 2 ^ f.fracBits) * 2 ^ (mag / 2 ^ f.fracBits - 1) * d
        = (2 ^ f.fracBits + mag % 2 ^ f.fracBits) * (d * 2 ^ (mag / 2 ^ f.fracBits - 1)) by ring]
      rw [nearestEven_mul _ _ (by positivity)]
      have h1 := Nat.div_add_mod mag (2 ^ f.fracBits)
      obtain ⟨e, he'⟩ : ∃ e, mag / 2 ^ f.fracBits = e + 1 := ⟨_, (Nat.succ_pred_eq_of_ne_zero he).symm⟩
      rw [he'] at h1 ⊢
      simp only [Nat.add_sub_cancel]
      rw [Nat.mul_comm] at h1
      rw [Nat.add_mul] at h1
      omega
  rw [key]
  exact min_eq_left h.le

/-- Values rise with magnitudes. -/
theorem units_mono (f : Format) {a b : Nat} (h : a ≤ b) : f.units a ≤ f.units b := by
  have hpos : 0 < 2 ^ f.fracBits := Nat.pow_pos (by decide)
  have hq : a / 2 ^ f.fracBits ≤ b / 2 ^ f.fracBits := Nat.div_le_div_right h
  have hma : a % 2 ^ f.fracBits < 2 ^ f.fracBits := Nat.mod_lt _ hpos
  have hmb : b % 2 ^ f.fracBits < 2 ^ f.fracBits := Nat.mod_lt _ hpos
  have ha := Nat.div_add_mod a (2 ^ f.fracBits)
  have hb := Nat.div_add_mod b (2 ^ f.fracBits)
  unfold units
  dsimp only
  rcases Nat.eq_or_lt_of_le hq with heq | hlt
  · have hmod : a % 2 ^ f.fracBits ≤ b % 2 ^ f.fracBits := by
      rw [heq] at ha
      omega
    rw [heq]
    split
    · exact hmod
    · exact Nat.mul_le_mul_right _ (by omega)
  · have hb0 : b / 2 ^ f.fracBits ≠ 0 := Nat.ne_of_gt (Nat.lt_of_le_of_lt (Nat.zero_le _) hlt)
    rw [if_neg hb0]
    split
    · calc a % 2 ^ f.fracBits ≤ 2 ^ f.fracBits + b % 2 ^ f.fracBits := by omega
        _ ≤ _ := Nat.le_mul_of_pos_right _ (by positivity)
    · calc (2 ^ f.fracBits + a % 2 ^ f.fracBits) * 2 ^ (a / 2 ^ f.fracBits - 1)
          ≤ (2 ^ f.fracBits * 2) * 2 ^ (a / 2 ^ f.fracBits - 1) := Nat.mul_le_mul_right _ (by omega)
        _ = 2 ^ f.fracBits * 2 ^ (a / 2 ^ f.fracBits - 1 + 1) := by ring
        _ ≤ 2 ^ f.fracBits * 2 ^ (b / 2 ^ f.fracBits - 1) :=
            Nat.mul_le_mul_left _ (Nat.pow_le_pow_right (by decide) (by
              generalize a / 2 ^ f.fracBits = x at *
              generalize b / 2 ^ f.fracBits = y at *
              omega))
        _ ≤ _ := Nat.mul_le_mul_right _ (by omega)

end Format

/-! ## Results of the primitives as magnitudes -/

theorem binary32_infMag : binary32.infMag = 0x7F800000 := by decide

theorem binary64_infMag : binary64.infMag = 0x7FF0000000000000 := by decide

theorem Fp.not_nan {f : Format} {a : Fp} : a.isNaN f = false ↔ a.mag ≤ f.infMag := by
  simp [Fp.isNaN]

theorem Fp.add_mag {f : Format} {a b c : Fp} (h : Fp.add f a b = some c) : c.mag ≤ f.infMag := by
  simp only [Fp.add] at h
  split at h
  · cases h
  · rename_i hn
    rw [Bool.not_eq_true, Bool.or_eq_false_iff] at hn
    obtain ⟨ha, hb⟩ := hn
    repeat' split at h
    all_goals first
      | cases h; done
      | (cases h; first
          | exact Format.round_le _ _ _
          | exact Nat.zero_le _
          | exact Fp.not_nan.mp ha
          | exact Fp.not_nan.mp hb)

theorem Fp.mul_mag {f : Format} {a b c : Fp} (h : Fp.mul f a b = some c) : c.mag ≤ f.infMag := by
  simp only [Fp.mul] at h
  repeat' split at h
  all_goals first
    | cases h; done
    | (cases h; first | exact Format.round_le _ _ _ | exact Nat.le_refl _)

theorem Fp.div_mag {f : Format} {a b c : Fp} (h : Fp.div f a b = some c) : c.mag ≤ f.infMag := by
  simp only [Fp.div] at h
  repeat' split at h
  all_goals first
    | cases h; done
    | (cases h; first | exact Format.round_le _ _ _ | exact Nat.le_refl _ | exact Nat.zero_le _)

theorem unpack32_mag_lt (w : Word) : (unpack32 w).mag < 2 ^ 31 :=
  Nat.mod_lt _ (by decide)

theorem unpack64_mag_lt (w : DWord) : (unpack64 w).mag < 2 ^ 63 :=
  Nat.mod_lt _ (by decide)

theorem unpack32_pack32 {a : Fp} (h : a.mag < 2 ^ 31) : unpack32 (pack32 (some a)) = a := by
  obtain ⟨s, m⟩ := a
  simp only at h
  simp only [pack32, unpack32, BitVec.toNat_ofNat]
  cases s
  · simp only [Bool.false_eq_true, ↓reduceIte, Nat.zero_add]
    rw [Nat.mod_eq_of_lt (by omega : m < 2 ^ 32), Nat.mod_eq_of_lt h]
    simp only [Fp.mk.injEq, and_true, decide_eq_false_iff_not]
    omega
  · simp only [↓reduceIte]
    rw [Nat.mod_eq_of_lt (by omega : 2 ^ 31 + m < 2 ^ 32)]
    simp only [Fp.mk.injEq, decide_eq_true_eq]
    omega

theorem unpack64_pack64 {a : Fp} (h : a.mag < 2 ^ 63) : unpack64 (pack64 (some a)) = a := by
  obtain ⟨s, m⟩ := a
  simp only at h
  simp only [pack64, unpack64, BitVec.toNat_ofNat]
  cases s
  · simp only [Bool.false_eq_true, ↓reduceIte, Nat.zero_add]
    rw [Nat.mod_eq_of_lt (by omega : m < 2 ^ 64), Nat.mod_eq_of_lt h]
    simp only [Fp.mk.injEq, and_true, decide_eq_false_iff_not]
    omega
  · simp only [↓reduceIte]
    rw [Nat.mod_eq_of_lt (by omega : 2 ^ 63 + m < 2 ^ 64)]
    simp only [Fp.mk.injEq, decide_eq_true_eq]
    omega

theorem pack32_unpack32 (w : Word) : pack32 (some (unpack32 w)) = w := by
  apply BitVec.eq_of_toNat_eq
  have := w.isLt
  simp only [pack32, unpack32, BitVec.toNat_ofNat, decide_eq_true_eq]
  split <;> omega

/-- A packed result is the canonical NaN or no NaN at all (`00_scope.md` R10). -/
theorem pack32_canonical {x : Option Fp} (hx : ∀ c, x = some c → c.mag ≤ binary32.infMag) :
    pack32 x = 0x7FC00000#32 ∨ isNaN32 (pack32 x) = false := by
  cases x with
  | none => exact .inl rfl
  | some c =>
    right
    have hc := hx c rfl
    rw [binary32_infMag] at hc
    simp only [isNaN32, unpack32_pack32 (show c.mag < 2 ^ 31 by omega), Fp.isNaN, binary32_infMag,
      decide_eq_false_iff_not]
    omega

theorem add32_canonical (a b : Word) : add32 a b = 0x7FC00000#32 ∨ isNaN32 (add32 a b) = false :=
  pack32_canonical fun _ h => Fp.add_mag h

theorem mul32_canonical (a b : Word) : mul32 a b = 0x7FC00000#32 ∨ isNaN32 (mul32 a b) = false :=
  pack32_canonical fun _ h => Fp.mul_mag h

theorem div32_canonical (a b : Word) : div32 a b = 0x7FC00000#32 ∨ isNaN32 (div32 a b) = false :=
  pack32_canonical fun _ h => Fp.div_mag h

/-! ## The order -/

/-- No number exceeds `+Inf` (`42_grain.md` R165). -/
theorem gt32_posInf (a : Word) : gt32 a posInf32 = false := by
  have h31 : (unpack32 posInf32) = ⟨false, 0x7F800000⟩ := by decide
  simp only [gt32, lt32, Fp.lt, h31, Fp.isNaN, binary32_infMag, Fp.key]
  by_cases hn : 0x7F800000 < (unpack32 a).mag
  · simp [hn]
  · simp only [lt_self_iff_false, decide_false, Bool.not_false, Bool.true_and, Bool.false_eq_true, ↓reduceIte]
    have : ¬ ((0x7F800000 : Nat) : Int) < (if (unpack32 a).neg = true then -((unpack32 a).mag : Int) else (unpack32 a).mag) := by
      split <;> omega
    simpa [Nat.not_lt.mp hn] using this

end Sys2Proof.Machine
end

