-- ==== Sys2Proof/Laws/Grain.lean ====
section
/-! SUPPORT. Sys2Proof/Laws/Grain.lean: what one call of the grain scheduler can do under the ring invariants: the sum, the
cursors it leaves, and that the invariants are kept (`10_state.md` R37, `42_grain.md` R163, R166). -/

namespace Sys2Proof.Machine

/-! ## Slots -/

theorem activeSlots_length (cap : Nat) (g : Grain) : (activeSlots cap g).length = g.count := by
  simp [activeSlots]

theorem activeSlots_lt {cap : Nat} {g : Grain} (hc : 0 < cap) {j : Nat} (h : j ∈ activeSlots cap g) : j < cap := by
  simp only [activeSlots, List.mem_map, List.mem_range] at h
  obtain ⟨k, -, rfl⟩ := h
  exact Nat.mod_lt _ hc

theorem mod_add_inj {cap h a b : Nat} (ha : a < cap) (hb : b < cap) (e : (h + a) % cap = (h + b) % cap) : a = b := by
  have h1 : (h + a) ≡ (h + b) [MOD cap] := e
  exact Nat.ModEq.eq_of_lt_of_lt (Nat.ModEq.add_left_cancel' h h1) ha hb

theorem activeSlots_nodup {cap : Nat} {g : Grain} (h : g.count ≤ cap) : (activeSlots cap g).Nodup := by
  refine List.Nodup.map_on ?_ List.nodup_range
  intro a ha b hb e
  rw [List.mem_range] at ha hb
  exact mod_add_inj (by omega) (by omega) e

/-- The oldest slot is the head; the rest are the slots of the ring with the head popped. -/
theorem activeSlots_cons {cap : Nat} {g : Grain} (hc : 0 < g.count) (hh : g.head < cap) :
    activeSlots cap g = g.head :: activeSlots cap (grRetire cap g) := by
  obtain ⟨n, hn⟩ : ∃ n, g.count = n + 1 := ⟨_, (Nat.succ_pred_eq_of_pos hc).symm⟩
  simp only [activeSlots, grRetire, hn, Nat.add_sub_cancel]
  rw [List.range_succ_eq_map, List.map_cons, Nat.add_zero, Nat.mod_eq_of_lt hh, List.map_map]
  congr 1
  refine List.map_congr_left fun k _ => ?_
  simp only [Function.comp_apply, Nat.mod_add_mod]
  congr 1
  omega

/-- Pushing adds the old tail as the newest slot. -/
theorem activeSlots_push {cap : Nat} {g : Grain} (ht : g.tail = (g.head + g.count) % cap) :
    activeSlots cap (grPush cap g) = activeSlots cap g ++ [g.tail] := by
  simp [activeSlots, grPush, List.range_succ, ht]

/-- The active slots depend on the head and the count alone. -/
theorem activeSlots_congr {cap : Nat} {g g' : Grain} (hh : g'.head = g.head) (hn : g'.count = g.count) :
    activeSlots cap g' = activeSlots cap g := by
  simp [activeSlots, hh, hn]

theorem getD_set (l : List Nat) (i j v : Nat) (hi : i < l.length) :
    (l.set i v).getD j 0 = if j = i then v else l.getD j 0 := by
  simp only [List.getD_eq_getElem?_getD, List.getElem?_set]
  by_cases h : i = j
  · subst h
    simp [hi]
  · simp [h, Ne.symm h]

/-! ## Advancing cursors -/

/-- The cursor array with the cursors of `js` advanced by one. -/
def bump (cur : List Nat) (js : List Nat) : List Nat :=
  js.foldl (fun cur j => cur.set j (cur.getD j 0 + 1)) cur

theorem bump_length (cur js : List Nat) : (bump cur js).length = cur.length := by
  induction js generalizing cur with
  | nil => rfl
  | cons j js ih =>
    rw [bump, List.foldl_cons]
    exact (ih _).trans (List.length_set ..)

theorem bump_getD {cur js : List Nat} (hn : js.Nodup) (hl : ∀ j ∈ js, j < cur.length) (i : Nat) :
    (bump cur js).getD i 0 = if i ∈ js then cur.getD i 0 + 1 else cur.getD i 0 := by
  induction js generalizing cur with
  | nil => simp [bump]
  | cons j js ih =>
    obtain ⟨hj, hn'⟩ := List.nodup_cons.mp hn
    rw [bump, List.foldl_cons]
    have := ih (cur := cur.set j (cur.getD j 0 + 1)) hn' (fun k hk => by
      rw [List.length_set]
      exact hl k (List.mem_cons_of_mem _ hk))
    rw [bump] at this
    rw [this]
    have hjl := hl j (by simp)
    simp only [getD_set _ _ _ _ hjl, List.mem_cons]
    by_cases hij : i = j
    · subst hij
      simp [hj]
    · simp [hij]

/-- Where no cursor reaches the end of the source, a pass adds up the words at the cursors and advances them. -/
theorem grSum_no_retire {cap : Nat} {src : Nat → Word} {js : List Nat} {o : Word} {g : Grain} (hn : js.Nodup)
    (hl : ∀ j ∈ js, j < g.cur.length) (hc : ∀ j ∈ js, cursor g j + 1 < g.len) :
    grSum cap src js (o, g)
      = ((js.map (cursor g)).foldl (fun o c => add32 o (src c)) o, { g with cur := bump g.cur js }) := by
  induction js generalizing o g with
  | nil => rfl
  | cons j js ih =>
    obtain ⟨hj, hn'⟩ := List.nodup_cons.mp hn
    have hcj := hc j (by simp)
    have hlj := hl j (by simp)
    have hvisit : grVisit cap src j (o, g)
        = (add32 o (src (cursor g j)), { g with cur := g.cur.set j (cursor g j + 1) }) := by
      unfold grVisit
      unfold cursor at hcj ⊢
      dsimp only
      rw [if_neg (by omega), if_neg (by omega)]
    rw [grSum, List.foldl_cons, hvisit]
    have hcur : ∀ k ∈ js, cursor { g with cur := g.cur.set j (cursor g j + 1) } k = cursor g k := by
      intro k hk
      have hkj : k ≠ j := fun h => hj (h ▸ hk)
      exact (getD_set _ _ _ _ hlj).trans (if_neg hkj)
    have := ih (o := add32 o (src (cursor g j))) (g := { g with cur := g.cur.set j (cursor g j + 1) }) hn'
      (fun k hk => by simpa using hl k (List.mem_cons_of_mem _ hk))
      (fun k hk => by
        rw [hcur k hk]
        exact hc k (List.mem_cons_of_mem _ hk))
    rw [grSum] at this
    rw [this]
    rw [List.map_cons, List.foldl_cons]
    congr 1
    rw [List.map_congr_left hcur]

/-! ## The ring before the sum -/

/-- What holds of the ring between the push and the sum of one call (`42_grain.md` R163). -/
structure RingPre (p : Config.Params) (g : Grain) : Prop where
  len_le : g.len ≤ p.lmax
  slots : g.cur.length = p.cap
  cur_le : ∀ c ∈ g.cur, c ≤ g.len
  head_lt : g.head < p.cap
  count_le : g.count ≤ p.cap
  tail_eq : g.tail = (g.head + g.count) % p.cap
  oldest_first : (activeCursors p.cap g).Pairwise (· > ·)
  in_source : 0 < g.len → ∀ c ∈ activeCursors p.cap g, c < g.len
  no_source : g.len = 0 → g.count ≤ 1

theorem RingInv.count_zero {p : Config.Params} {g : Grain} (h : RingInv p g) (hl : g.len = 0) : g.count = 0 := by
  by_contra hc
  have hne : activeCursors p.cap g ≠ [] := by
    intro he
    have := congrArg List.length he
    simp [activeCursors, activeSlots] at this
    omega
  obtain ⟨c, hcm⟩ := List.exists_mem_of_ne_nil _ hne
  have := h.in_source c hcm
  omega

theorem activeCursors_push {p : Config.Params} {g : Grain} (h : RingInv p g) (hc : g.count < p.cap) :
    activeCursors p.cap (grPush p.cap g) = activeCursors p.cap g ++ [0] := by
  have hcap : 0 < p.cap := by omega
  have htl : g.tail < g.cur.length := by
    rw [h.slots, h.tail_eq]
    exact Nat.mod_lt _ hcap
  simp only [activeCursors]
  rw [activeSlots_push h.tail_eq, List.map_append]
  congr 1
  · refine List.map_congr_left fun j hj => ?_
    have hne : j ≠ g.tail := by
      intro he
      simp only [activeSlots, List.mem_map, List.mem_range] at hj
      obtain ⟨k, hk, rfl⟩ := hj
      rw [h.tail_eq] at he
      have := mod_add_inj (by omega) hc he
      omega
    exact (getD_set _ _ _ _ htl).trans (if_neg hne)
  · rw [List.map_singleton]
    exact congrArg (fun x => [x]) ((getD_set _ _ _ _ htl).trans (if_pos rfl))

/-- Steps 1 and 2 of one call, in the two cases (`42_grain.md` R163). -/
theorem grTrigger_cases (cap : Nat) (g : Grain) :
    (gt32 (add32 g.acc one32) g.trig = true ∧ g.count < cap ∧
      grTrigger cap g = grPush cap { g with acc := add32 g.acc one32 }) ∨
    ((gt32 (add32 g.acc one32) g.trig = false ∨ cap ≤ g.count) ∧
      grTrigger cap g = { g with acc := add32 g.acc one32 }) := by
  unfold grTrigger
  dsimp only
  split
  · rename_i h
    rw [Bool.and_eq_true, decide_eq_true_eq] at h
    exact .inl ⟨h.1, h.2, rfl⟩
  · rename_i h
    rw [Bool.and_eq_true, decide_eq_true_eq, not_and_or, Bool.not_eq_true, Nat.not_lt] at h
    exact .inr ⟨h, rfl⟩

theorem RingInv.acc {p : Config.Params} {g : Grain} (h : RingInv p g) (v : Word) :
    RingInv p { g with acc := v } :=
  ⟨h.len_le, h.slots, h.cur_le, h.head_lt, h.count_le, h.tail_eq, h.oldest_first, h.in_source, h.started⟩

theorem RingInv.toPre {p : Config.Params} {g : Grain} (h : RingInv p g) : RingPre p g :=
  ⟨h.len_le, h.slots, h.cur_le, h.head_lt, h.count_le, h.tail_eq, h.oldest_first, fun _ => h.in_source,
    fun hl => by rw [h.count_zero hl]; exact Nat.zero_le _⟩

theorem RingInv.push {p : Config.Params} {g : Grain} (h : RingInv p g) (hc : g.count < p.cap) :
    RingPre p (grPush p.cap g) where
  len_le := h.len_le
  slots := by simp [grPush, h.slots]
  cur_le := by
    intro c hcm
    rcases List.mem_or_eq_of_mem_set hcm with hm | rfl
    · exact h.cur_le c hm
    · exact Nat.zero_le _
  head_lt := h.head_lt
  count_le := hc
  tail_eq := by
    simp only [grPush, h.tail_eq, Nat.mod_add_mod]
    congr 1
  oldest_first := by
    rw [activeCursors_push h hc, List.pairwise_append]
    refine ⟨h.oldest_first, List.pairwise_singleton _ _, ?_⟩
    intro a ha b hb
    rw [List.mem_singleton] at hb
    subst hb
    exact h.started a ha
  in_source := by
    intro hl c hcm
    rw [activeCursors_push h hc, List.mem_append, List.mem_singleton] at hcm
    rcases hcm with hm | rfl
    · exact h.in_source c hm
    · exact hl
  no_source := by
    intro hl
    have := h.count_zero hl
    simp [grPush, this]

theorem grTrigger_pre {p : Config.Params} {g : Grain} (h : RingInv p g) : RingPre p (grTrigger p.cap g) := by
  rcases grTrigger_cases p.cap g with ⟨-, hc, e⟩ | ⟨-, e⟩ <;> rw [e]
  · exact (h.acc _).push hc
  · exact (h.acc _).toPre

theorem grTrigger_len (cap : Nat) (g : Grain) : (grTrigger cap g).len = g.len := by
  rcases grTrigger_cases cap g with ⟨-, -, e⟩ | ⟨-, e⟩ <;> simp only [e, grPush]

/-! ## The sum -/

theorem getD_le {l : List Nat} {b : Nat} (h : ∀ c ∈ l, c ≤ b) (i : Nat) : l.getD i 0 ≤ b := by
  rw [List.getD_eq_getElem?_getD]
  cases hi : l[i]? with
  | none => exact Nat.zero_le _
  | some c => exact h c (List.mem_of_getElem? hi)

theorem mem_getD {l : List Nat} {c : Nat} (h : c ∈ l) : ∃ i, i < l.length ∧ l.getD i 0 = c := by
  obtain ⟨i, hi, rfl⟩ := List.mem_iff_getElem.mp h
  exact ⟨i, hi, by simp [hi]⟩

/-- The sum of one call: the source words at the cursors active after the push, oldest first, from `+0.0`; every
active cursor advances by one and the oldest is retired if it reaches the end of the source (`42_grain.md` R163). -/
theorem grSum_spec {p : Config.Params} {src : Nat → Word} {g : Grain} (h : RingPre p g) (hl : 0 < g.len) :
    (grSum p.cap src (activeSlots p.cap g) (posZero32, g)).1
        = (activeCursors p.cap g).foldl (fun o c => add32 o (src c)) posZero32 ∧
    activeCursors p.cap (grSum p.cap src (activeSlots p.cap g) (posZero32, g)).2
        = ((activeCursors p.cap g).map (· + 1)).filter (· ≠ g.len) ∧
    RingInv p (grSum p.cap src (activeSlots p.cap g) (posZero32, g)).2 := by
  have hcap : 0 < p.cap := by have := h.head_lt; omega
  have hsl : ∀ j ∈ activeSlots p.cap g, j < g.cur.length := fun j hj => by
    rw [h.slots]
    exact activeSlots_lt hcap hj
  have hnd := activeSlots_nodup h.count_le
  have hin := h.in_source hl
  by_cases hret : ∃ j ∈ activeSlots p.cap g, cursor g j + 1 = g.len
  · -- the head retires
    have hc0 : 0 < g.count := by
      obtain ⟨j, hj, -⟩ := hret
      rw [← activeSlots_length p.cap g]
      exact List.length_pos_of_mem hj
    have hcons := activeSlots_cons hc0 h.head_lt
    have hof := h.oldest_first
    simp only [activeCursors] at hof hin
    rw [hcons] at hnd hsl hret hof hin
    rw [List.map_cons, List.pairwise_cons] at hof
    obtain ⟨hhead, hnd'⟩ := List.nodup_cons.mp hnd
    have hhl := hsl g.head (by simp)
    have hhin := hin (cursor g g.head) (by simp)
    have hhe : cursor g g.head + 1 = g.len := by
      obtain ⟨j, hj, he⟩ := hret
      rcases List.mem_cons.mp hj with rfl | hj
      · exact he
      · have := hof.1 (cursor g j) (List.mem_map_of_mem hj)
        omega
    have hlt : ∀ j ∈ activeSlots p.cap (grRetire p.cap g), cursor g j + 1 < g.len := fun j hj => by
      have := hof.1 (cursor g j) (List.mem_map_of_mem hj)
      omega
    have hvisit : grVisit p.cap src g.head (posZero32, g)
        = (add32 posZero32 (src (cursor g g.head)),
            grRetire p.cap { g with cur := g.cur.set g.head (cursor g g.head + 1) }) := by
      unfold grVisit
      unfold cursor at hhe hhin ⊢
      dsimp only
      rw [if_neg (by omega), if_pos hhe]
    have hcur : ∀ j ∈ activeSlots p.cap (grRetire p.cap g),
        cursor (grRetire p.cap { g with cur := g.cur.set g.head (cursor g g.head + 1) }) j = cursor g j := by
      intro j hj
      have hne : j ≠ g.head := fun e => hhead (e ▸ hj)
      exact (getD_set _ _ _ _ hhl).trans (if_neg hne)
    have hsum := grSum_no_retire (cap := p.cap) (src := src) (o := add32 posZero32 (src (cursor g g.head)))
      (g := grRetire p.cap { g with cur := g.cur.set g.head (cursor g g.head + 1) }) hnd'
      (fun j hj => by simpa [grRetire] using hsl j (List.mem_cons_of_mem _ hj))
      (fun j hj => by
        rw [hcur j hj]
        exact hlt j hj)
    have hall : grSum p.cap src (activeSlots p.cap g) (posZero32, g)
        = (((activeSlots p.cap (grRetire p.cap g)).map (cursor g)).foldl (fun o c => add32 o (src c))
              (add32 posZero32 (src (cursor g g.head))),
            { grRetire p.cap { g with cur := g.cur.set g.head (cursor g g.head + 1) } with
              cur := bump (g.cur.set g.head (cursor g g.head + 1)) (activeSlots p.cap (grRetire p.cap g)) }) := by
      rw [hcons, grSum, List.foldl_cons, hvisit]
      rw [grSum] at hsum
      rw [hsum, List.map_congr_left hcur]
      rfl
    rw [hall]
    have hslots : activeSlots p.cap
        { grRetire p.cap { g with cur := g.cur.set g.head (cursor g g.head + 1) } with
          cur := bump (g.cur.set g.head (cursor g g.head + 1)) (activeSlots p.cap (grRetire p.cap g)) }
        = activeSlots p.cap (grRetire p.cap g) := activeSlots_congr rfl rfl
    have hbump : ∀ i, (bump (g.cur.set g.head (cursor g g.head + 1)) (activeSlots p.cap (grRetire p.cap g))).getD i 0
        = if i ∈ activeSlots p.cap (grRetire p.cap g) then cursor g i + 1
          else if i = g.head then cursor g g.head + 1 else cursor g i := by
      intro i
      rw [bump_getD hnd' (fun j hj => by simpa using hsl j (List.mem_cons_of_mem _ hj))]
      simp only [getD_set _ _ _ _ hhl]
      by_cases hi : i ∈ activeSlots p.cap (grRetire p.cap g)
      · have hne : i ≠ g.head := fun e => hhead (e ▸ hi)
        simp [hi, hne, cursor]
      · simp [hi, cursor]
    have hnew : activeCursors p.cap
        { grRetire p.cap { g with cur := g.cur.set g.head (cursor g g.head + 1) } with
          cur := bump (g.cur.set g.head (cursor g g.head + 1)) (activeSlots p.cap (grRetire p.cap g)) }
        = ((activeSlots p.cap (grRetire p.cap g)).map (cursor g)).map (· + 1) := by
      simp only [activeCursors]
      rw [hslots, List.map_map]
      refine List.map_congr_left fun j hj => ?_
      rw [cursor, hbump j, if_pos hj]
      rfl
    have hfilter : (((activeSlots p.cap g).map (cursor g)).map (· + 1)).filter (· ≠ g.len)
        = ((activeSlots p.cap (grRetire p.cap g)).map (cursor g)).map (· + 1) := by
      rw [hcons, List.map_cons, List.map_cons, List.filter_cons_of_neg (by simpa using hhe)]
      rw [List.filter_eq_self]
      intro c hc
      simp only [List.map_map, List.mem_map, Function.comp_apply] at hc
      obtain ⟨j, hj, rfl⟩ := hc
      have := hlt j hj
      simp only [ne_eq, decide_not, Bool.not_eq_eq_eq_not, Bool.not_true, decide_eq_false_iff_not]
      omega
    refine ⟨?_, ?_, ?_⟩
    · simp only [activeCursors]
      rw [hcons, List.map_cons, List.foldl_cons]
    · rw [hnew]
      exact hfilter.symm
    · refine ⟨h.len_le, ?_, ?_, ?_, ?_, ?_, ?_, ?_, ?_⟩
      · simp [bump_length, h.slots]
      · intro c hc
        dsimp only at hc
        obtain ⟨i, -, rfl⟩ := mem_getD hc
        rw [hbump i]
        have hle := getD_le h.cur_le i
        change cursor g i ≤ g.len at hle
        split
        · rename_i hi
          exact (hlt i hi).le
        · split
          · exact hhe.le
          · exact hle
      · exact Nat.mod_lt _ hcap
      · have := h.count_le
        simp only [grRetire]
        omega
      · simp only [grRetire, h.tail_eq, Nat.mod_add_mod]
        congr 1
        omega
      · rw [hnew]
        rw [List.pairwise_map]
        exact hof.2.imp fun hab => Nat.add_lt_add_right hab 1
      · rw [hnew]
        intro c hc
        simp only [List.map_map, List.mem_map, Function.comp_apply] at hc
        obtain ⟨j, hj, rfl⟩ := hc
        exact hlt j hj
      · rw [hnew]
        intro c hc
        simp only [List.map_map, List.mem_map, Function.comp_apply] at hc
        obtain ⟨j, hj, rfl⟩ := hc
        omega
  · -- no cursor retires
    have hlt : ∀ j ∈ activeSlots p.cap g, cursor g j + 1 < g.len := fun j hj => by
      have h1 := hin (cursor g j) (List.mem_map_of_mem hj)
      have h2 : cursor g j + 1 ≠ g.len := fun e => hret ⟨j, hj, e⟩
      omega
    have hall := grSum_no_retire (cap := p.cap) (src := src) (o := posZero32) hnd hsl hlt
    rw [hall]
    have hslots : activeSlots p.cap { g with cur := bump g.cur (activeSlots p.cap g) } = activeSlots p.cap g :=
      activeSlots_congr rfl rfl
    have hbump : ∀ i, (bump g.cur (activeSlots p.cap g)).getD i 0
        = if i ∈ activeSlots p.cap g then cursor g i + 1 else cursor g i := fun i => bump_getD hnd hsl i
    have hnew : activeCursors p.cap { g with cur := bump g.cur (activeSlots p.cap g) }
        = (activeCursors p.cap g).map (· + 1) := by
      simp only [activeCursors]
      rw [hslots, List.map_map]
      refine List.map_congr_left fun j hj => ?_
      rw [cursor, hbump j, if_pos hj]
      rfl
    refine ⟨rfl, ?_, ?_⟩
    · rw [hnew]
      symm
      rw [List.filter_eq_self]
      intro c hc
      simp only [activeCursors, List.map_map, List.mem_map, Function.comp_apply] at hc
      obtain ⟨j, hj, rfl⟩ := hc
      have := hlt j hj
      simp only [ne_eq, decide_not, Bool.not_eq_eq_eq_not, Bool.not_true, decide_eq_false_iff_not]
      omega
    · refine ⟨h.len_le, ?_, ?_, h.head_lt, h.count_le, h.tail_eq, ?_, ?_, ?_⟩
      · simp [bump_length, h.slots]
      · intro c hc
        dsimp only at hc
        obtain ⟨i, -, rfl⟩ := mem_getD hc
        rw [hbump i]
        have hle := getD_le h.cur_le i
        change cursor g i ≤ g.len at hle
        split
        · rename_i hi
          exact (hlt i hi).le
        · exact hle
      · rw [hnew, List.pairwise_map]
        exact h.oldest_first.imp fun hab => Nat.add_lt_add_right hab 1
      · rw [hnew]
        intro c hc
        simp only [activeCursors, List.map_map, List.mem_map, Function.comp_apply] at hc
        obtain ⟨j, hj, rfl⟩ := hc
        exact hlt j hj
      · rw [hnew]
        intro c hc
        simp only [activeCursors, List.map_map, List.mem_map, Function.comp_apply] at hc
        obtain ⟨j, hj, rfl⟩ := hc
        omega

/-- What a sum does to the ring's counters: the head moves on by as many slots as the count falls; the tail, the interval and
the accumulator stay (`42_grain.md` R163). -/
theorem grSum_counters {cap : Nat} {src : Nat → Word} (slots : List Nat) (x : Word × Grain) (hh : x.2.head < cap) :
    ∃ k, k ≤ slots.length ∧ (grSum cap src slots x).2.head = (x.2.head + k) % cap ∧
      (grSum cap src slots x).2.count = x.2.count - k ∧
      (grSum cap src slots x).2 = { x.2 with
        head := (grSum cap src slots x).2.head
        count := (grSum cap src slots x).2.count
        cur := (grSum cap src slots x).2.cur } := by
  have hcap : 0 < cap := by omega
  induction slots generalizing x with
  | nil => exact ⟨0, Nat.le_refl _, (Nat.mod_eq_of_lt hh).symm, rfl, rfl⟩
  | cons j js ih =>
    have key : ∃ k, k ≤ 1 ∧ (grVisit cap src j x).2.head = (x.2.head + k) % cap ∧
        (grVisit cap src j x).2.count = x.2.count - k ∧
        (grVisit cap src j x).2 = { x.2 with
          head := (grVisit cap src j x).2.head
          count := (grVisit cap src j x).2.count
          cur := (grVisit cap src j x).2.cur } := by
      unfold grVisit
      dsimp only
      split
      · exact ⟨1, Nat.le_refl _, rfl, rfl, rfl⟩
      · split
        · exact ⟨1, Nat.le_refl _, rfl, rfl, rfl⟩
        · exact ⟨0, Nat.zero_le _, (Nat.mod_eq_of_lt hh).symm, rfl, rfl⟩
    obtain ⟨k, hk, h1, h2, h3⟩ := key
    obtain ⟨k', hk', h1', h2', h3'⟩ := ih (grVisit cap src j x) (by rw [h1]; exact Nat.mod_lt _ hcap)
    have e : grSum cap src (j :: js) x = grSum cap src js (grVisit cap src j x) := rfl
    refine ⟨k + k', by rw [List.length_cons]; omega, ?_, ?_, ?_⟩
    · rw [e, h1', h1, Nat.mod_add_mod, Nat.add_assoc]
    · rw [e, h2', h2, Nat.sub_sub]
    · rw [e]
      rw [h3'] 
      generalize grSum cap src js (grVisit cap src j x) = u at *
      generalize grVisit cap src j x = v at *
      rw [h3]

/-- What one call does to the ring (`42_grain.md` R163). -/
theorem grNext_counters {p : Config.Params} {src : Nat → Word} {g : Grain} (h : RingInv p g) :
    (grNext p.cap src g).2.head
        = (g.head + ((grTrigger p.cap g).count - (grNext p.cap src g).2.count)) % p.cap ∧
      (grNext p.cap src g).2 = { grTrigger p.cap g with
        head := (grNext p.cap src g).2.head
        count := (grNext p.cap src g).2.count
        cur := (grNext p.cap src g).2.cur } := by
  have hh : (grTrigger p.cap g).head = g.head := by
    rcases grTrigger_cases p.cap g with ⟨-, -, e⟩ | ⟨-, e⟩ <;> simp only [e, grPush]
  obtain ⟨k, hk, h1, h2, h3⟩ := grSum_counters (cap := p.cap) (src := src) (activeSlots p.cap (grTrigger p.cap g))
    (posZero32, grTrigger p.cap g) (by rw [hh]; exact h.head_lt)
  rw [activeSlots_length] at hk
  refine ⟨?_, h3⟩
  change (grSum _ _ _ _).2.head = (g.head + (_ - (grSum _ _ _ _).2.count)) % _
  rw [h1, h2, hh]
  dsimp only
  congr 2
  omega

/-- One cursor's visit leaves the source, the frequency, the interval, the accumulator and the tail. -/
theorem grVisit_frame (cap : Nat) (src : Nat → Word) (j : Nat) (x : Word × Grain) :
    (grVisit cap src j x).2 = { x.2 with
      head := (grVisit cap src j x).2.head
      count := (grVisit cap src j x).2.count
      cur := (grVisit cap src j x).2.cur } := by
  unfold grVisit
  dsimp only
  split
  · rfl
  · split <;> rfl

/-- A call of the scheduler, in any state, changes the accumulator and the ring alone (`42_grain.md` R163). -/
theorem grNext_frame (cap : Nat) (src : Nat → Word) (g : Grain) :
    (grNext cap src g).2 = { g with
      acc := (grNext cap src g).2.acc
      head := (grNext cap src g).2.head
      tail := (grNext cap src g).2.tail
      count := (grNext cap src g).2.count
      cur := (grNext cap src g).2.cur } := by
  have hsum : ∀ (slots : List Nat) (x : Word × Grain), (grSum cap src slots x).2 = { x.2 with
      head := (grSum cap src slots x).2.head
      count := (grSum cap src slots x).2.count
      cur := (grSum cap src slots x).2.cur } := by
    intro slots
    induction slots with
    | nil => exact fun _ => rfl
    | cons j js ih =>
      intro x
      have h := ih (grVisit cap src j x)
      rw [grVisit_frame] at h
      exact h
  have h : (grNext cap src g).2 = { grTrigger cap g with
      head := (grNext cap src g).2.head
      count := (grNext cap src g).2.count
      cur := (grNext cap src g).2.cur } := hsum _ _
  rcases grTrigger_cases cap g with ⟨-, -, e⟩ | ⟨-, e⟩
  · rw [e] at h
    rw [h]
    rfl
  · rw [e] at h
    rw [h]

/-- With an empty source a pushed grain is retired by the guard in the same call (`42_grain.md` R163, R165). -/
theorem grSum_no_source {p : Config.Params} {src : Nat → Word} {g : Grain} (h : RingPre p g) (hl : g.len = 0) :
    grSum p.cap src (activeSlots p.cap g) (posZero32, g)
        = (posZero32, if g.count = 0 then g else grRetire p.cap g) := by
  have hcnt := h.no_source hl
  by_cases hc : g.count = 0
  · simp [activeSlots, grSum, hc]
  · have hc1 : g.count = 1 := by omega
    have hcons := activeSlots_cons (show 0 < g.count by omega) h.head_lt
    have hnil : activeSlots p.cap (grRetire p.cap g) = [] := by
      simp [activeSlots, grRetire, hc1]
    rw [hcons, hnil, grSum, List.foldl_cons, List.foldl_nil, if_neg hc]
    unfold grVisit
    dsimp only
    rw [if_pos (by omega)]

theorem grNext_no_source {p : Config.Params} {src : Nat → Word} {g : Grain} (h : RingInv p g) (hl : g.len = 0) :
    (grNext p.cap src g).1 = posZero32 ∧ (grNext p.cap src g).2.count = 0 ∧ RingInv p (grNext p.cap src g).2 := by
  have hpre := grTrigger_pre h
  have hl1 : (grTrigger p.cap g).len = 0 := (grTrigger_len p.cap g).trans hl
  have hcap : 0 < p.cap := by have := h.head_lt; omega
  unfold grNext
  dsimp only
  rw [grSum_no_source hpre hl1]
  have hcnt := hpre.no_source hl1
  refine ⟨rfl, ?_, ?_⟩
  · dsimp only
    split
    · assumption
    · simp only [grRetire]
      omega
  · dsimp only
    split
    · rename_i hc
      have hnil : activeCursors p.cap (grTrigger p.cap g) = [] := by simp [activeCursors, activeSlots, hc]
      exact ⟨hpre.len_le, hpre.slots, hpre.cur_le, hpre.head_lt, hpre.count_le, hpre.tail_eq, hpre.oldest_first,
        by simp [hnil], by simp [hnil]⟩
    · rename_i hc
      have hnil : activeCursors p.cap (grRetire p.cap (grTrigger p.cap g)) = [] := by
        have : (grTrigger p.cap g).count = 1 := by omega
        simp [activeCursors, activeSlots, grRetire, this]
      refine ⟨hpre.len_le, hpre.slots, hpre.cur_le, Nat.mod_lt _ hcap, ?_, ?_, by simp [hnil], by simp [hnil],
        by simp [hnil]⟩
      · have := hpre.count_le
        simp only [grRetire]
        omega
      · simp only [grRetire, hpre.tail_eq, Nat.mod_add_mod]
        congr 1
        omega

/-- One call keeps the ring invariants (`10_state.md` R37). -/
theorem RingInv.next {p : Config.Params} {src : Nat → Word} {g : Grain} (h : RingInv p g) :
    RingInv p (grNext p.cap src g).2 := by
  rcases Nat.eq_zero_or_pos g.len with hl | hl
  · exact (grNext_no_source h hl).2.2
  · exact (grSum_spec (grTrigger_pre h) (by rw [grTrigger_len]; exact hl)).2.2

/-- A freshly loaded scheduler meets the ring invariants (`42_grain.md` R161). -/
theorem RingInv.load {p : Config.Params} (hp : 0 < p.cap) {len : Nat} (hl : len ≤ p.lmax) (hz : Word) :
    RingInv p (grLoad p.cap len hz) where
  len_le := hl
  slots := by simp [grLoad]
  cur_le := by
    intro c hc
    simp only [grLoad, List.mem_replicate] at hc
    omega
  head_lt := hp
  count_le := Nat.zero_le _
  tail_eq := by simp [grLoad]
  oldest_first := by simp [activeCursors, activeSlots, grLoad]
  in_source := by simp [activeCursors, activeSlots, grLoad]
  started := by simp [activeCursors, activeSlots, grLoad]

/-- The scheduler at reset meets the ring invariants. -/
theorem RingInv.reset {p : Config.Params} (hp : 0 < p.cap) : RingInv p (Grain.reset p.cap) where
  len_le := Nat.zero_le _
  slots := by simp [Grain.reset]
  cur_le := by
    intro c hc
    simp only [Grain.reset, List.mem_replicate] at hc
    omega
  head_lt := hp
  count_le := Nat.zero_le _
  tail_eq := by simp [Grain.reset]
  oldest_first := by simp [activeCursors, activeSlots, Grain.reset]
  in_source := by simp [activeCursors, activeSlots, Grain.reset]
  started := by simp [activeCursors, activeSlots, Grain.reset]

/-- A frequency change leaves the ring alone. -/
theorem RingInv.freq {p : Config.Params} {g : Grain} (h : RingInv p g) (f t : Word) :
    RingInv p { g with freq := f, trig := t } :=
  ⟨h.len_le, h.slots, h.cur_le, h.head_lt, h.count_le, h.tail_eq, h.oldest_first, h.in_source, h.started⟩

end Sys2Proof.Machine
end

