-- ==== Sys2Proof/Laws/Block.lean ====
section
/-! SUPPORT. Sys2Proof/Laws/Block.lean: what one voice tick and the two block commands can do: the fields they change, the
words they write, and an induction principle for each loop. -/

namespace Sys2Proof.Machine

theorem wordAt_ramAddr (s : State) (r : Region) (i : Nat) : wordAt s (ramAddr r i) = s.ramWord r i := rfl

theorem wordAt_putRam (s : State) (r : Region) (i : Nat) (v : Word) (a : Nat) :
    wordAt (s.putRam r i v) a = if a = ramAddr r i then v else wordAt s a := by
  simp only [wordAt, State.putRam_ram, State.putRam_era, Memory.read_write]
  split <;> rfl

theorem wordAt_congr {s t : State} (hr : s.ram = t.ram) (he : s.era = t.era) (a : Nat) : wordAt s a = wordAt t a := by
  simp [wordAt, hr, he]

/-! ## One voice tick -/

/-- A voice tick in Idle (`43_voice.md` R180). -/
theorem voiceTick_idle {s : State} (h : s.env.stage = .idle) :
    voiceTick s = (posZero32, (s.putEnvOut posZero32).putVoiceOut posZero32) :=
  if_pos h

/-- A voice tick in any other stage (`43_voice.md` R180). -/
theorem voiceTick_active {s : State} (h : s.env.stage ≠ .idle) :
    voiceTick s =
      (let e := envNext s.tab s.active s.env
       let g := grNext s.par.cap s.src s.grain
       let v := mul32 (mul32 e.1 g.1) s.noteAmp
       (v, { s with env := e.2, grain := g.2, results := ⟨e.1, g.1, v⟩ })) :=
  if_neg h

/-- A voice tick returns what it leaves in `VOICE_OUT`. -/
theorem voiceTick_fst (s : State) : (voiceTick s).1 = (voiceTick s).2.results.voice := by
  by_cases h : s.env.stage = .idle
  · rw [voiceTick_idle h]
    rfl
  · rw [voiceTick_active h]

/-- A voice tick moves the scheduler by at most one sample. -/
theorem voiceTick_grain (s : State) :
    (voiceTick s).2.grain = if s.env.stage = .idle then s.grain else (grNext s.par.cap s.src s.grain).2 := by
  split
  · rename_i h
    rw [voiceTick_idle h]
    rfl
  · rename_i h
    rw [voiceTick_active h]

/-- A voice tick keeps the source's length and fundamental, the frequency and the interval. -/
theorem voiceTick_grainFrame (s : State) :
    (voiceTick s).2.grain = { s.grain with
      acc := (voiceTick s).2.grain.acc, head := (voiceTick s).2.grain.head, tail := (voiceTick s).2.grain.tail
      count := (voiceTick s).2.grain.count, cur := (voiceTick s).2.grain.cur } := by
  rw [voiceTick_grain]
  split
  · rfl
  · exact grNext_frame _ _ _

/-- A voice tick changes the envelope, the scheduler and the results. -/
theorem voiceTick_frame (s : State) :
    (voiceTick s).2 = { s with
      env := (voiceTick s).2.env, grain := (voiceTick s).2.grain, results := (voiceTick s).2.results } := by
  by_cases h : s.env.stage = .idle
  · rw [voiceTick_idle h]
    rfl
  · rw [voiceTick_active h]

/-- A voice tick moves the envelope by at most one sample. -/
theorem voiceTick_env (s : State) :
    (voiceTick s).2.env = if s.env.stage = .idle then s.env else (envNext s.tab s.active s.env).2 := by
  split
  · rename_i h
    rw [voiceTick_idle h]
    rfl
  · rename_i h
    rw [voiceTick_active h]

/-! ## Block loops -/

/-- One element of `ENV_APPLY`: the fields it changes and the one word it writes. -/
theorem envApplyElement_frame (i : Nat) (s : State) :
    envApplyElement i s = { s with
      ram := (envApplyElement i s).ram
      env := (envApplyElement i s).env
      results := { s.results with env := (envApplyElement i s).results.env } } := by
  unfold envApplyElement
  split <;> rfl

theorem envApplyElement_eq {s : State} (i : Nat) (h : s.env.stage ≠ .idle) :
    envApplyElement i s =
      (({ s with env := (envNext s.tab s.active s.env).2 }).putEnvOut (envNext s.tab s.active s.env).1).putRam .buf i
        (mul32 (s.buf i) (envNext s.tab s.active s.env).1) :=
  if_neg h

theorem envApplyElement_idle {s : State} (i : Nat) (h : s.env.stage = .idle) :
    envApplyElement i s = (s.putRam .buf i posZero32).putEnvOut posZero32 :=
  if_pos h

/-- One element of `ENV_APPLY` moves the envelope by at most one sample. -/
theorem envApplyElement_env (i : Nat) (s : State) :
    (envApplyElement i s).env = if s.env.stage = .idle then s.env else (envNext s.tab s.active s.env).2 := by
  unfold envApplyElement
  split <;> rfl

theorem envApplyElement_wordAt {i a : Nat} (s : State) (h : a ≠ ramAddr .buf i) :
    wordAt (envApplyElement i s) a = wordAt s a := by
  unfold envApplyElement
  split
  · rw [show wordAt ((s.putRam .buf i posZero32).putEnvOut posZero32) a = wordAt (s.putRam .buf i posZero32) a from rfl,
      wordAt_putRam, if_neg h]
  · rw [wordAt_putRam, if_neg h]
    rfl

theorem voiceFillElement_frame (i : Nat) (s : State) :
    voiceFillElement i s = { s with
      ram := Memory.write s.ram (ramAddr .buf i) (voiceTick s).1
      env := (voiceTick s).2.env
      grain := (voiceTick s).2.grain
      results := (voiceTick s).2.results } := by
  unfold voiceFillElement
  dsimp only
  rw [voiceTick_frame]
  rfl

theorem voiceFillElement_wordAt {i a : Nat} (s : State) (h : a ≠ ramAddr .buf i) :
    wordAt (voiceFillElement i s) a = wordAt s a := by
  rw [voiceFillElement_frame]
  simp only [wordAt, Memory.read_write_other _ _ h]

/-- What every element of `ENV_APPLY` keeps, the whole command keeps. -/
theorem envApplyLoop_induction {P : State → Prop} (n i : Nat) {s : State}
    (hstep : ∀ j t, i ≤ j → j < i + n → P t → P (envApplyElement j t)) (h : P s) : P (envApplyLoop n i s) := by
  induction n generalizing i s with
  | zero => exact h
  | succ n ih =>
    exact ih (i + 1) (fun j t h1 h2 => hstep j t (by omega) (by omega)) (hstep i s (by omega) (by omega) h)

/-- What every element of `VOICE_FILL` keeps, the whole command keeps. -/
theorem voiceFillLoop_induction {P : State → Prop} (n i : Nat) {s : State}
    (hstep : ∀ j t, i ≤ j → j < i + n → P t → P (voiceFillElement j t)) (h : P s) : P (voiceFillLoop n i s) := by
  induction n generalizing i s with
  | zero => exact h
  | succ n ih =>
    exact ih (i + 1) (fun j t h1 h2 => hstep j t (by omega) (by omega)) (hstep i s (by omega) (by omega) h)

/-- The fields `ENV_APPLY` changes. -/
theorem envApplyLoop_frame (n i : Nat) (s : State) :
    envApplyLoop n i s = { s with
      ram := (envApplyLoop n i s).ram
      env := (envApplyLoop n i s).env
      results := { s.results with env := (envApplyLoop n i s).results.env } } := by
  refine envApplyLoop_induction (P := fun t => t = { s with
    ram := t.ram, env := t.env, results := { s.results with env := t.results.env } }) n i ?_ rfl
  intro j t _ _ h
  have he := envApplyElement_frame j t
  generalize envApplyElement j t = u at he ⊢
  rw [he, h]

/-- The fields `VOICE_FILL` changes. -/
theorem voiceFillLoop_frame (n i : Nat) (s : State) :
    voiceFillLoop n i s = { s with
      ram := (voiceFillLoop n i s).ram
      env := (voiceFillLoop n i s).env
      grain := (voiceFillLoop n i s).grain
      results := (voiceFillLoop n i s).results } := by
  refine voiceFillLoop_induction (P := fun t => t = { s with
    ram := t.ram, env := t.env, grain := t.grain, results := t.results }) n i ?_ rfl
  intro j t _ _ h
  have he := voiceFillElement_frame j t
  generalize voiceFillElement j t = u at he ⊢
  rw [he, h]

/-- `VOICE_FILL` keeps the source's length and fundamental, the frequency and the interval. -/
theorem voiceFillLoop_grainFrame (n i : Nat) (s : State) :
    (voiceFillLoop n i s).grain = { s.grain with
      acc := (voiceFillLoop n i s).grain.acc, head := (voiceFillLoop n i s).grain.head
      tail := (voiceFillLoop n i s).grain.tail, count := (voiceFillLoop n i s).grain.count
      cur := (voiceFillLoop n i s).grain.cur } := by
  refine voiceFillLoop_induction (P := fun t => t.grain = { s.grain with
    acc := t.grain.acc, head := t.grain.head, tail := t.grain.tail, count := t.grain.count, cur := t.grain.cur }) n i ?_ rfl
  intro j t _ _ h
  rw [voiceFillElement_frame]
  have he := voiceTick_grainFrame t
  dsimp only
  generalize (voiceTick t).2.grain = g at he ⊢
  rw [he, h]

/-- `ENV_APPLY` looks at no pending transaction and at no response, and keeps both. -/
theorem envApplyLoop_outside (n i : Nat) (s : State) (p : List HostInput) (r : Option Response) :
    envApplyLoop n i { s with pending := p, response := r } = { envApplyLoop n i s with pending := p, response := r } := by
  induction n generalizing i s with
  | zero => rfl
  | succ n ih =>
    have he : envApplyElement i { s with pending := p, response := r }
        = { envApplyElement i s with pending := p, response := r } := by
      unfold envApplyElement
      dsimp only
      split <;> rfl
    rw [envApplyLoop, he, ih, envApplyLoop]

/-- A voice tick looks at no pending transaction and at no response, and keeps both. -/
theorem voiceTick_outside (s : State) (p : List HostInput) (r : Option Response) :
    voiceTick { s with pending := p, response := r }
      = ((voiceTick s).1, { (voiceTick s).2 with pending := p, response := r }) := by
  unfold voiceTick
  dsimp only
  split <;> rfl

/-- `VOICE_FILL` looks at no pending transaction and at no response, and keeps both. -/
theorem voiceFillLoop_outside (n i : Nat) (s : State) (p : List HostInput) (r : Option Response) :
    voiceFillLoop n i { s with pending := p, response := r } = { voiceFillLoop n i s with pending := p, response := r } := by
  induction n generalizing i s with
  | zero => rfl
  | succ n ih =>
    have he : voiceFillElement i { s with pending := p, response := r }
        = { voiceFillElement i s with pending := p, response := r } := by
      unfold voiceFillElement
      rw [voiceTick_outside]
      rfl
    rw [voiceFillLoop, he, ih, voiceFillLoop]

/-- `ENV_APPLY` writes no word outside its range of `BUF`. -/
theorem envApplyLoop_wordAt {n i a : Nat} (s : State) (h : ¬ IsBufAddr i n a) :
    wordAt (envApplyLoop n i s) a = wordAt s a := by
  refine envApplyLoop_induction (P := fun t => wordAt t a = wordAt s a) n i ?_ rfl
  intro j t h1 h2 ht
  rw [envApplyElement_wordAt t fun e => h ⟨j, h1, h2, e⟩, ht]

/-- `VOICE_FILL` writes no word outside its range of `BUF`. -/
theorem voiceFillLoop_wordAt {n i a : Nat} (s : State) (h : ¬ IsBufAddr i n a) :
    wordAt (voiceFillLoop n i s) a = wordAt s a := by
  refine voiceFillLoop_induction (P := fun t => wordAt t a = wordAt s a) n i ?_ rfl
  intro j t h1 h2 ht
  rw [voiceFillElement_wordAt t fun e => h ⟨j, h1, h2, e⟩, ht]

/-- Everything `ENV_APPLY` can do (`41_envelope.md` R139). -/
theorem execEnvApply_cases (s : State) :
    (s.par.bmax < s.args.arg0.toNat + s.args.arg1.toNat ∧ execEnvApply s = .next (s.reject .eRange)) ∨
    (s.args.arg0.toNat + s.args.arg1.toNat ≤ s.par.bmax ∧
      execEnvApply s = .next (envApplyLoop s.args.arg1.toNat s.args.arg0.toNat s).accept) := by
  by_cases h : s.par.bmax < s.args.arg0.toNat + s.args.arg1.toNat
  · exact .inl ⟨h, if_pos (decide_eq_true h)⟩
  · exact .inr ⟨by omega, if_neg fun e => h (of_decide_eq_true e)⟩

/-- Everything `VOICE_FILL` can do (`43_voice.md` R182). -/
theorem execVoiceFill_cases (s : State) :
    (s.par.bmax < s.args.arg0.toNat + s.args.arg1.toNat ∧ execVoiceFill s = .next (s.reject .eRange)) ∨
    (s.args.arg0.toNat + s.args.arg1.toNat ≤ s.par.bmax ∧
      execVoiceFill s = .next (voiceFillLoop s.args.arg1.toNat s.args.arg0.toNat s).accept) := by
  by_cases h : s.par.bmax < s.args.arg0.toNat + s.args.arg1.toNat
  · exact .inl ⟨h, if_pos (decide_eq_true h)⟩
  · exact .inr ⟨by omega, if_neg fun e => h (of_decide_eq_true e)⟩

end Sys2Proof.Machine
end

