-- ==== Sys2Proof/Laws/Bus.lean ====
section
/-! SUPPORT. Sys2Proof/Laws/Bus.lean: what an address names and what one step can do: the address map of `20_memory.md` R61
in both directions, register writes, and the inversion of `step`. -/

namespace Sys2Proof.Machine

/-! ## Registers -/

theorem regAt_offset (r : Reg) : regAt r.offset = some r := by
  cases r <;> rfl

theorem Reg.offset_lt (r : Reg) : r.offset < 50 := by
  cases r <;> decide

theorem regAt_eq_some {off : Nat} {r : Reg} (h : regAt off = some r) : r.offset = off := by
  have := List.find?_some h
  simpa using this

theorem regAt_unlisted {off : Nat} (h : off = 0x0F ∨ (0x1B ≤ off ∧ off ≤ 0x1F) ∨ 0x32 ≤ off) : regAt off = none := by
  cases hr : regAt off with
  | none => rfl
  | some r =>
    have ho := regAt_eq_some hr
    cases r <;> simp only [Reg.offset] at ho <;> omega

/-! ## The address map -/

theorem regionOfCode_code (r : Region) : regionOfCode r.code = some r := by
  cases r with
  | raw g => cases g <;> rfl
  | tab g => cases g <;> rfl
  | src => rfl
  | buf => rfl

theorem Region.code_pos (r : Region) : 0 < r.code := by
  cases r with
  | raw g => cases g <;> decide
  | tab g => cases g <;> decide
  | src => decide
  | buf => decide

theorem regionOfCode_eq_some {n : Nat} {r : Region} (h : regionOfCode n = some r) : r.code = n := by
  unfold regionOfCode at h
  split at h <;> cases h <;> rfl

theorem target_reg (p : Config.Params) (r : Reg) : target p (BitVec.ofNat 24 r.offset) = some (.reg r) := by
  have h1 := r.offset_lt
  have h2 : (BitVec.ofNat 24 r.offset).toNat = r.offset := by
    rw [BitVec.toNat_ofNat]
    exact Nat.mod_eq_of_lt (by omega)
  have h3 : r.offset / 2 ^ 20 = 0 := Nat.div_eq_of_lt (by omega)
  have h4 : r.offset % 2 ^ 20 = r.offset := Nat.mod_eq_of_lt (by omega)
  simp only [target, regionField, offsetField, h2, h3, h4, if_true, regAt_offset, Option.map_some]

/-- The fields of the address of RAM word `i` of a region. -/
theorem ramAddr_fields (r : Region) {i : Nat} (hi : i < 2 ^ 20) :
    regionField (BitVec.ofNat 24 (ramAddr r i)) = r.code ∧ offsetField (BitVec.ofNat 24 (ramAddr r i)) = i := by
  have h1 := r.code_lt
  have h2 : (BitVec.ofNat 24 (ramAddr r i)).toNat = r.code * 2 ^ 20 + i := by
    rw [BitVec.toNat_ofNat]
    exact Nat.mod_eq_of_lt (by unfold ramAddr; omega)
  simp only [regionField, offsetField, h2]
  omega

theorem target_ram {p : Config.Params} (r : Region) {i : Nat} (hs : r.size p ≤ 2 ^ 20) (hi : i < r.size p) :
    target p (BitVec.ofNat 24 (ramAddr r i)) = some (.ram r i) := by
  obtain ⟨h1, h2⟩ := ramAddr_fields r (show i < 2 ^ 20 by omega)
  have h3 := r.code_pos
  simp only [target, h1, h2, regionOfCode_code, hi, if_true]
  rw [if_neg (by omega)]

/-- `CMD` has the one address `0x000000`. -/
theorem target_eq_cmd {p : Config.Params} {a : Addr} : target p a = some (.reg .cmd) ↔ a = 0x000000#24 := by
  constructor
  · intro h
    unfold target at h
    split at h
    · rename_i hr
      obtain ⟨r, hr', he⟩ := Option.map_eq_some_iff.mp h
      cases he
      have ho := regAt_eq_some hr'
      simp only [Reg.offset] at ho
      apply BitVec.eq_of_toNat_eq
      unfold regionField at hr
      unfold offsetField at ho
      simp only [BitVec.toNat_ofNat]
      omega
    · split at h
      · split at h <;> cases h
      · cases h
  · rintro rfl
    exact target_reg p .cmd

theorem commandWordOf_write (p : Config.Params) (a : Addr) (v : Word) :
    commandWordOf p (.write a v) = if a = 0x000000#24 then some v else none := by
  simp only [commandWordOf, target_eq_cmd]

/-! ## A step -/

theorem step_idle {s : State} (h : s.pending = []) : step s = .next s := by
  simp [step, h]

/-- A step on a command word that decodes runs the command. -/
theorem step_command {s : State} {rest : List HostInput} {w : Word} {i : Instr}
    (h : s.pending = .write 0x000000#24 w :: rest) (hd : decode w = .ok i) : step s = exec i (s.setPending rest) := by
  simp only [step, h, commandWordOf_write, if_true, hd]

/-- A step on a command word that does not decode. -/
theorem step_illegal {s : State} {rest : List HostInput} {w : Word} {e : DecodeError}
    (h : s.pending = .write 0x000000#24 w :: rest) (hd : decode w = .error e) :
    step s = .next (illegalCommand (s.setPending rest)) := by
  simp only [step, h, commandWordOf_write, if_true, hd]

/-- A step on anything but a write to `CMD`. -/
theorem step_plain {s : State} {rest : List HostInput} {x : HostInput} (h : s.pending = x :: rest)
    (hx : ∀ w, x ≠ .write 0x000000#24 w) : step s = .next (plainInput x (s.setPending rest)) := by
  have : commandWordOf s.par x = none := by
    cases x with
    | write a v =>
      rw [commandWordOf_write, if_neg]
      rintro rfl
      exact hx v rfl
    | read a => rfl
    | hardReset => rfl
  simp only [step, h, this]

/-! The plain accesses by what their address names. In each, the address is a variable: at a written-out address the
kernel would unfold arithmetic on it. -/

theorem step_read_mapped {s : State} {rest : List HostInput} {a : Addr} {t : Target}
    (h : s.pending = .read a :: rest) (ht : target s.par a = some t) :
    step s = .next ((s.setPending rest).setResponse (some ⟨true, targetRead (s.setPending rest) t⟩)) := by
  rw [step_plain h (by simp)]
  simp only [plainInput, busRead, State.setPending_par, ht]

theorem step_read_unmapped {s : State} {rest : List HostInput} {a : Addr}
    (h : s.pending = .read a :: rest) (ht : target s.par a = none) :
    step s = .next ((s.setPending rest).reject .eAddr) := by
  rw [step_plain h (by simp)]
  simp only [plainInput, busRead, State.setPending_par, ht]

theorem ne_cmd_write {p : Config.Params} {a : Addr} {v : Word} (ht : target p a ≠ some (.reg .cmd)) (w : Word) :
    HostInput.write a v ≠ .write 0x000000#24 w := by
  intro e
  injection e with e
  exact ht (target_eq_cmd.mpr e)

theorem step_write_mapped {s : State} {rest : List HostInput} {a : Addr} {v : Word} {t : Target}
    (h : s.pending = .write a v :: rest) (ht : target s.par a = some t) (hc : t ≠ .reg .cmd)
    (hw : targetWritable t = true) : step s = .next (targetWrite v (s.setPending rest) t).accept := by
  rw [step_plain h (ne_cmd_write (p := s.par) (by rw [ht]; simpa using hc))]
  simp only [plainInput, busWrite, State.setPending_par, ht, hw, if_true]

theorem step_write_readOnly {s : State} {rest : List HostInput} {a : Addr} {v : Word} {t : Target}
    (h : s.pending = .write a v :: rest) (ht : target s.par a = some t) (hc : t ≠ .reg .cmd)
    (hw : targetWritable t = false) : step s = .next ((s.setPending rest).reject .eRo) := by
  rw [step_plain h (ne_cmd_write (p := s.par) (by rw [ht]; simpa using hc))]
  simp [plainInput, busWrite, ht, hw]

theorem step_write_unmapped {s : State} {rest : List HostInput} {a : Addr} {v : Word}
    (h : s.pending = .write a v :: rest) (ht : target s.par a = none) :
    step s = .next ((s.setPending rest).reject .eAddr) := by
  rw [step_plain h (ne_cmd_write (p := s.par) (by rw [ht]; nofun))]
  simp only [plainInput, busWrite, State.setPending_par, ht]

/-- Everything one step can do. -/
theorem step_cases (s : State) :
    (s.pending = [] ∧ step s = .next s) ∨
    (∃ w rest i, s.pending = .write 0x000000#24 w :: rest ∧ decode w = .ok i ∧ step s = exec i (s.setPending rest)) ∨
    (∃ w rest e, s.pending = .write 0x000000#24 w :: rest ∧ decode w = .error e ∧
      step s = .next (illegalCommand (s.setPending rest))) ∨
    (∃ x rest, s.pending = x :: rest ∧ (∀ w, x ≠ .write 0x000000#24 w) ∧
      step s = .next (plainInput x (s.setPending rest))) := by
  cases h : s.pending with
  | nil => exact .inl ⟨rfl, step_idle h⟩
  | cons x rest =>
    right
    by_cases hx : ∃ w, x = .write 0x000000#24 w
    · obtain ⟨w, rfl⟩ := hx
      cases hd : decode w with
      | ok i => exact .inl ⟨w, rest, i, rfl, hd, step_command h hd⟩
      | error e => exact .inr (.inl ⟨w, rest, e, rfl, hd, step_illegal h hd⟩)
    · have hx' : ∀ w, x ≠ .write 0x000000#24 w := fun w e => hx ⟨w, e⟩
      exact .inr (.inr ⟨x, rest, rfl, hx', step_plain h hx'⟩)

/-- Everything an access other than a command can do to the state. -/
theorem plainInput_cases (x : HostInput) (s : State) :
    (x = .hardReset ∧ plainInput x s = s.hardReset) ∨
    (∃ c, plainInput x s = s.reject c ∧ (c = .eAddr ∨ c = .eRo)) ∨
    (∃ v, plainInput x s = s.setResponse (some ⟨true, v⟩)) ∨
    (∃ r v, r.access = .readWrite ∧ x = .write (BitVec.ofNat 24 r.offset) v ∧ plainInput x s = (regWrite r v s).accept) ∨
    (∃ v, x = .write 0x000000#24 v ∧ plainInput x s = (regWrite .cmd v s).accept) ∨
    (∃ r i v, r.hostWritable = true ∧ i < r.size s.par ∧ plainInput x s = (s.putRam r i v).accept) := by
  cases x with
  | hardReset => exact .inl ⟨rfl, rfl⟩
  | read a =>
    simp only [plainInput, busRead]
    split
    · exact .inr (.inl ⟨_, rfl, .inl rfl⟩)
    · exact .inr (.inr (.inl ⟨_, rfl⟩))
  | write a v =>
    simp only [plainInput, busWrite]
    cases ht : target s.par a with
    | none => exact .inr (.inl ⟨_, rfl, .inl rfl⟩)
    | some t =>
      dsimp only
      split
      · rename_i hw
        right; right; right
        cases t with
        | reg r =>
          have ha : a = BitVec.ofNat 24 r.offset := by
            unfold target at ht
            split at ht
            · rename_i h0
              obtain ⟨r', hr', he⟩ := Option.map_eq_some_iff.mp ht
              cases he
              have ho := regAt_eq_some hr'
              apply BitVec.eq_of_toNat_eq
              have := r.offset_lt
              rw [BitVec.toNat_ofNat, Nat.mod_eq_of_lt (by omega)]
              unfold regionField at h0
              unfold offsetField at ho
              omega
            · split at ht
              · split at ht <;> cases ht
              · cases ht
          cases hacc : r.access with
          | readWrite => exact .inl ⟨r, v, hacc, by rw [ha], rfl⟩
          | readOnly => simp [targetWritable, hacc] at hw
          | writeOnly =>
            cases r <;> simp only [Reg.access, reduceCtorEq] at hacc
            exact .inr (.inl ⟨v, by rw [ha]; rfl, rfl⟩)
        | ram r i =>
          refine .inr (.inr ⟨r, i, v, hw, ?_, rfl⟩)
          unfold target at ht
          split at ht
          · obtain ⟨r', hr', he⟩ := Option.map_eq_some_iff.mp ht
            cases he
          · split at ht
            · split at ht
              · cases ht
                assumption
              · cases ht
            · cases ht
      · exact .inr (.inl ⟨_, rfl, .inr rfl⟩)

/-! ## Register writes -/

@[simp] theorem regWrite_cmd (v : Word) (s : State) : regWrite .cmd v s = s := rfl

theorem read_regWrite_same {r : Reg} (h : r.access = .readWrite) (v : Word) (s : State) : r.read (regWrite r v s) = v := by
  cases r <;> first | rfl | exact absurd h (by decide)

theorem read_regWrite_other {r r' : Reg} (h : r' ≠ r) (v : Word) (s : State) :
    r'.read (regWrite r v s) = r'.read s := by
  cases r <;> first
    | rfl
    | (cases r' <;> first | rfl | exact absurd rfl h)

@[simp] theorem regWrite_par (r : Reg) (v : Word) (s : State) : (regWrite r v s).par = s.par := rfl
@[simp] theorem regWrite_results (r : Reg) (v : Word) (s : State) : (regWrite r v s).results = s.results := rfl
@[simp] theorem regWrite_active (r : Reg) (v : Word) (s : State) : (regWrite r v s).active = s.active := rfl
@[simp] theorem regWrite_env (r : Reg) (v : Word) (s : State) : (regWrite r v s).env = s.env := rfl
@[simp] theorem regWrite_grain (r : Reg) (v : Word) (s : State) : (regWrite r v s).grain = s.grain := rfl
@[simp] theorem regWrite_noteAmp (r : Reg) (v : Word) (s : State) : (regWrite r v s).noteAmp = s.noteAmp := rfl
@[simp] theorem regWrite_error (r : Reg) (v : Word) (s : State) : (regWrite r v s).error = s.error := rfl
@[simp] theorem regWrite_ram (r : Reg) (v : Word) (s : State) : (regWrite r v s).ram = s.ram := rfl
@[simp] theorem regWrite_era (r : Reg) (v : Word) (s : State) : (regWrite r v s).era = s.era := rfl
@[simp] theorem regWrite_pending (r : Reg) (v : Word) (s : State) : (regWrite r v s).pending = s.pending := rfl
@[simp] theorem regWrite_response (r : Reg) (v : Word) (s : State) : (regWrite r v s).response = s.response := rfl

end Sys2Proof.Machine
end

