-- ==== Sys2Proof/Laws/ConfigTables.lean ====
section
/-! SUPPORT. Sys2Proof/Laws/ConfigTables.lean: what the table generator and the configuration commands can do: the range of a
step rate, what a build leaves in memory, and the cases of a commit. -/

namespace Sys2Proof.Machine

/-! ## Step rates -/

theorem unpack64_one : unpack64 one64 = ⟨false, 0x3FF0000000000000⟩ := by decide

theorem unpack64_twoPow31 : unpack64 twoPow31F64 = ⟨false, 0x41E0000000000000⟩ := by decide

theorem units_one64 : binary64.units 0x3FF0000000000000 = 2 ^ binary64.unitExp := by decide +kernel

theorem units_below_twoPow31 : binary64.units 0x41DFFFFFFFFFFFFF < 2 ^ 31 * 2 ^ binary64.unitExp := by decide +kernel

theorem trunc64_eq (x : DWord) : trunc64 x = binary64.units (unpack64 x).mag / 2 ^ binary64.unitExp := rfl

/-- A finite binary64 number that is not below 1 and below `2^31` truncates to `1 .. 2^31 − 1`. -/
theorem trunc64_range {x : DWord} (hf : finite64 x = true) (h1 : lt64 x one64 = false)
    (h2 : ge64 x twoPow31F64 = false) : 1 ≤ trunc64 x ∧ trunc64 x < 2 ^ 31 := by
  have hfin : (unpack64 x).mag < 0x7FF0000000000000 := by
    simpa [finite64, Fp.isFinite, binary64_infMag] using hf
  have hnan : Fp.isNaN binary64 (unpack64 x) = false := by
    simp only [Fp.isNaN, binary64_infMag, decide_eq_false_iff_not]
    omega
  have hnan1 : Fp.isNaN binary64 ⟨false, 0x3FF0000000000000⟩ = false := by decide
  have hnan2 : Fp.isNaN binary64 ⟨false, 0x41E0000000000000⟩ = false := by decide
  simp only [lt64, Fp.lt, unpack64_one, hnan, hnan1, Bool.not_false, Bool.true_and, decide_eq_false_iff_not,
    Fp.key, Bool.false_eq_true, ↓reduceIte, Int.not_lt] at h1
  simp only [ge64, Fp.le, unpack64_twoPow31, hnan, hnan2, Bool.not_false, Bool.true_and, decide_eq_false_iff_not,
    Fp.key, Bool.false_eq_true, ↓reduceIte, Int.not_le] at h2
  have hneg : (unpack64 x).neg = false := by
    cases hn : (unpack64 x).neg with
    | false => rfl
    | true =>
      rw [hn] at h1
      simp only [↓reduceIte] at h1
      omega
  rw [hneg] at h1 h2
  simp only [Bool.false_eq_true, ↓reduceIte, Int.ofNat_le, Int.ofNat_lt] at h1 h2
  rw [trunc64_eq]
  constructor
  · rw [Nat.le_div_iff_mul_le (by positivity), Nat.one_mul, ← units_one64]
    exact Format.units_mono _ (by omega)
  · rw [Nat.div_lt_iff_lt_mul (by positivity)]
    exact Nat.lt_of_le_of_lt (Format.units_mono _ (by omega)) units_below_twoPow31

theorem max64_not_lt_one (x : DWord) : lt64 (max64 x one64) one64 = false := by
  unfold max64
  split
  · decide
  · rename_i h
    simpa using h

/-- "The result is at least 1 for every input", and below `2^31` (`40_config_tables.md` R110). -/
theorem stepRate_range {sr : DWord} {res : Nat} {sec : Word} {n : Nat} (h : stepRate sr res sec = some n) :
    1 ≤ n ∧ n < 2 ^ 31 := by
  simp only [stepRate, Option.ite_none_left_eq_some, Option.some.injEq, Bool.or_eq_true, Bool.not_eq_true',
    not_or, Bool.not_eq_false, Bool.not_eq_true] at h
  obtain ⟨⟨hf, hg⟩, rfl⟩ := h
  exact trunc64_range hf (max64_not_lt_one _) hg

theorem stepRates_eq_some {sr : DWord} {p : ParamSet} {steps : PerSeg Nat} (h : stepRates sr p = some steps) :
    stepRate sr p.resolution p.attack = some steps.attack ∧ stepRate sr p.resolution p.decay = some steps.decay ∧
      stepRate sr p.resolution p.release = some steps.release := by
  unfold stepRates at h
  split at h
  · cases h
    exact ⟨‹_›, ‹_›, ‹_›⟩
  · cases h

theorem stepRates_pos {sr : DWord} {p : ParamSet} {steps : PerSeg Nat} (h : stepRates sr p = some steps)
    (g : Segment) : 1 ≤ steps.get g := by
  obtain ⟨ha, hd, hr⟩ := stepRates_eq_some h
  cases g
  · exact (stepRate_range ha).1
  · exact (stepRate_range hd).1
  · exact (stepRate_range hr).1

/-! ## The table build -/

/-- Writing words at the addresses `f 0 .. f (n−1)` in order, the addresses being different. -/
theorem read_foldl_write {f : Nat → Nat} {v : Nat → Word} {n : Nat} (hf : ∀ i j, i < n → j < n → f i = f j → i = j)
    (m : Memory) (a : Nat) :
    Memory.read ((List.range n).foldl (fun m i => Memory.write m (f i) (v i)) m) a =
      if h : ∃ i, i < n ∧ f i = a then some (v h.choose) else Memory.read m a := by
  induction n with
  | zero => simp
  | succ n ih =>
    rw [List.range_succ, List.foldl_append]
    simp only [List.foldl_cons, List.foldl_nil]
    rw [Memory.read_write, ih fun i j hi hj => hf i j (by omega) (by omega)]
    by_cases ha : a = f n
    · have hex : ∃ i, i < n + 1 ∧ f i = a := ⟨n, by omega, ha.symm⟩
      rw [if_pos ha, dif_pos hex]
      have := hf _ n hex.choose_spec.1 (by omega) (hex.choose_spec.2.trans ha)
      rw [this]
    · rw [if_neg ha]
      by_cases hex : ∃ i, i < n ∧ f i = a
      · have hex' : ∃ i, i < n + 1 ∧ f i = a := ⟨hex.choose, by have := hex.choose_spec.1; omega, hex.choose_spec.2⟩
        rw [dif_pos hex, dif_pos hex']
        have h1 := hex.choose_spec
        have h2 := hex'.choose_spec
        have := hf hex.choose hex'.choose (by omega) h2.1 (h1.2.trans h2.2.symm)
        rw [this]
      · rw [dif_neg hex, dif_neg]
        rintro ⟨i, hi, hia⟩
        have : i ≠ n := fun h => ha (by rw [← hia, h])
        exact hex ⟨i, by omega, hia⟩

theorem read_foldl_write_at {f : Nat → Nat} {v : Nat → Word} {n i : Nat}
    (hf : ∀ i j, i < n → j < n → f i = f j → i = j) (m : Memory) (hi : i < n) :
    Memory.read ((List.range n).foldl (fun m i => Memory.write m (f i) (v i)) m) (f i) = some (v i) := by
  rw [read_foldl_write hf, dif_pos ⟨i, hi, rfl⟩]
  have hex : ∃ j, j < n ∧ f j = f i := ⟨i, hi, rfl⟩
  rw [hf _ i hex.choose_spec.1 hi hex.choose_spec.2]

theorem read_foldl_write_out {f : Nat → Nat} {v : Nat → Word} {n a : Nat}
    (hf : ∀ i j, i < n → j < n → f i = f j → i = j) (m : Memory) (ha : ∀ i, i < n → f i ≠ a) :
    Memory.read ((List.range n).foldl (fun m i => Memory.write m (f i) (v i)) m) a = Memory.read m a := by
  rw [read_foldl_write hf, dif_neg]
  rintro ⟨i, hi, h⟩
  exact ha i hi h

theorem wf_foldl_write {f : Nat → Nat} {v : Nat → Word} (l : List Nat) {m : Memory} (h : Memory.wf m = true) :
    Memory.wf (l.foldl (fun m i => Memory.write m (f i) (v i)) m) = true := by
  induction l generalizing m with
  | nil => exact h
  | cons i l ih => exact ih (Memory.wf_write _ _ h)

theorem ramAddr_tab_inj (g : Segment) (i j : Nat) (h : ramAddr (.tab g) i = ramAddr (.tab g) j) : i = j := by
  unfold ramAddr at h
  omega

theorem wf_buildTable {p : ParamSet} {raw : Segment → Nat → Word} {steps : PerSeg Nat} {m : Memory} {g : Segment}
    (h : Memory.wf m = true) : Memory.wf (buildTable p raw steps m g) = true :=
  wf_foldl_write _ h

/-- A build keeps memory canonical. -/
theorem wf_buildTables {p : ParamSet} {steps : PerSeg Nat} {s : State} (h : Memory.wf s.ram = true) :
    Memory.wf (buildTables p steps s) = true :=
  wf_buildTable (wf_buildTable (wf_buildTable h))

theorem read_buildTable_at {p : ParamSet} {raw : Segment → Nat → Word} {steps : PerSeg Nat} (m : Memory)
    (g : Segment) {i : Nat} (hi : i ≤ p.resolution) :
    Memory.read (buildTable p raw steps m g) (ramAddr (.tab g) i) = some (tableEntry p raw steps g i) :=
  read_foldl_write_at (fun _ _ _ _ h => ramAddr_tab_inj g _ _ h) m (by omega)

theorem read_buildTable_out {p : ParamSet} {raw : Segment → Nat → Word} {steps : PerSeg Nat} (m : Memory)
    (g : Segment) {a : Nat} (ha : ∀ i, i ≤ p.resolution → ramAddr (.tab g) i ≠ a) :
    Memory.read (buildTable p raw steps m g) a = Memory.read m a :=
  read_foldl_write_out (fun _ _ _ _ h => ramAddr_tab_inj g _ _ h) m fun i hi => ha i (by omega)

/-- A build leaves every word that is no entry `0..R` of a table as it was. -/
theorem read_buildTables_out {p : ParamSet} {steps : PerSeg Nat} {s : State} {a : Nat}
    (ha : ¬ IsTableAddr p.resolution a) : Memory.read (buildTables p steps s) a = Memory.read s.ram a := by
  have h : ∀ g i, i ≤ p.resolution → ramAddr (.tab g) i ≠ a := fun g i hi he => ha ⟨g, i, hi, he.symm⟩
  simp only [buildTables, List.foldl_cons, List.foldl_nil]
  rw [read_buildTable_out _ _ (h _), read_buildTable_out _ _ (h _), read_buildTable_out _ _ (h _)]

theorem tab_addr_ne {g g' : Segment} (hg : g ≠ g') {i j : Nat} (hi : i ≤ 4096) (hj : j ≤ 4096) :
    ramAddr (.tab g) i ≠ ramAddr (.tab g') j := by
  intro h
  have := (ramAddr_inj (by omega) (by omega) h).1
  exact hg (by simpa using this)

/-- What a build writes: every entry `0..R` of every table (`40_config_tables.md` R112). -/
theorem read_buildTables_at {p : ParamSet} {steps : PerSeg Nat} {s : State} (hR : p.resolution ≤ 4096)
    (g : Segment) {i : Nat} (hi : i ≤ p.resolution) :
    Memory.read (buildTables p steps s) (ramAddr (.tab g) i) = some (tableEntry p s.raw steps g i) := by
  have ne : ∀ g', g' ≠ g → ∀ j, j ≤ p.resolution → ramAddr (.tab g') j ≠ ramAddr (.tab g) i :=
    fun g' h j hj => tab_addr_ne h (by omega) (by omega)
  simp only [buildTables, List.foldl_cons, List.foldl_nil]
  cases g
  · rw [read_buildTable_out _ _ (ne _ (by decide)), read_buildTable_out _ _ (ne _ (by decide)),
      read_buildTable_at _ _ hi]
  · rw [read_buildTable_out _ _ (ne _ (by decide)), read_buildTable_at _ _ hi]
  · rw [read_buildTable_at _ _ hi]

/-! ## Validation and commit -/

theorem validate_res {p : ParamSet} (h : validate p = none) : 2 ≤ p.resolution ∧ p.resolution ≤ 4096 := by
  unfold validate at h
  split at h
  · cases h
  · rename_i hr
    simpa only [not_or, Nat.not_lt] using hr

/-- Everything a commit can do (`40_config_tables.md` R114). -/
theorem commitParams_cases (p : ParamSet) (s : State) :
    (∃ c, validate p = some c ∧ commitParams p s = .next (s.reject c)) ∨
    (validate p = none ∧ s.active.srValid = true ∧ stepRates s.active.sr p = none ∧
      commitParams p s = .next (s.reject .eStep)) ∨
    (validate p = none ∧ s.active.srValid = true ∧ ∃ steps, stepRates s.active.sr p = some steps ∧
      commitParams p s = .next (storeConfig p s.active.sr steps s).accept) ∨
    (validate p = none ∧ s.active.srValid = false ∧ commitParams p s = .next (storeParams p s).accept) := by
  unfold commitParams
  cases hv : validate p with
  | some c => exact .inl ⟨c, rfl, rfl⟩
  | none =>
    right
    cases hs : s.active.srValid with
    | false => exact .inr (.inr ⟨rfl, rfl, rfl⟩)
    | true =>
      cases hr : stepRates s.active.sr p with
      | none => exact .inl ⟨rfl, rfl, rfl, rfl⟩
      | some steps => exact .inr (.inl ⟨rfl, rfl, steps, rfl, rfl⟩)

/-- Everything a single-field setter can do (`40_config_tables.md` R117). -/
theorem commitCandidate_cases (p : ParamSet) (s : State) :
    (s.active.paramsValid = false ∧ commitCandidate p s = .next (s.reject .eNocfg)) ∨
    (s.active.paramsValid = true ∧ commitCandidate p s = commitParams p s) := by
  unfold commitCandidate
  cases h : s.active.paramsValid
  · exact .inl ⟨rfl, rfl⟩
  · exact .inr ⟨rfl, rfl⟩

/-- Everything `SET_SAMPLE_RATE` can do (`40_config_tables.md` R121). -/
theorem execSetSampleRate_cases (s : State) :
    (sampleRateOk (stagedSampleRate s) = false ∧ execSetSampleRate s = .next (s.reject .eSr)) ∨
    (sampleRateOk (stagedSampleRate s) = true ∧ s.active.paramsValid = true ∧
      stepRates (stagedSampleRate s) s.active.params = none ∧ execSetSampleRate s = .next (s.reject .eStep)) ∨
    (sampleRateOk (stagedSampleRate s) = true ∧ s.active.paramsValid = true ∧
      ∃ steps, stepRates (stagedSampleRate s) s.active.params = some steps ∧
        execSetSampleRate s = .next (storeConfig s.active.params (stagedSampleRate s) steps s).accept) ∨
    (sampleRateOk (stagedSampleRate s) = true ∧ s.active.paramsValid = false ∧
      execSetSampleRate s = .next (storeSampleRate (stagedSampleRate s) s).accept) := by
  unfold execSetSampleRate
  cases hv : sampleRateOk (stagedSampleRate s) with
  | false => exact .inl ⟨rfl, by simp [hv]; rfl⟩
  | true =>
    right
    cases hs : s.active.paramsValid with
    | false => exact .inr (.inr ⟨rfl, rfl, by simp [hv]; rfl⟩)
    | true =>
      cases hr : stepRates (stagedSampleRate s) s.active.params with
      | none => exact .inl ⟨rfl, rfl, rfl, by simp [hv, hr]; rfl⟩
      | some steps => exact .inr (.inl ⟨rfl, rfl, steps, rfl, by simp [hv, hr]; rfl⟩)

end Sys2Proof.Machine
end

