-- ==== Sys2Proof/Laws/Numbers.lean ====
section
/-! SUPPORT. Sys2Proof/Laws/Numbers.lean: the primitives as operations on the numbers their operands stand for: values rise
with magnitudes, the order of patterns is the order of values, a representable result is returned exactly, and every other
result is rounded to nearest, ties to even. -/

namespace Sys2Proof.Machine

/-! ## Values of magnitudes -/

/-- Values rise strictly with magnitudes. -/
theorem Format.units_strictMono (f : Format) {a b : Nat} (h : a < b) : f.units a < f.units b := by
  have hpos : 0 < 2 ^ f.fracBits := Nat.pow_pos (by decide)
  have hma : a % 2 ^ f.fracBits < 2 ^ f.fracBits := Nat.mod_lt _ hpos
  have hmod : a % 2 ^ f.fracBits < b % 2 ^ f.fracBits ∨ a / 2 ^ f.fracBits < b / 2 ^ f.fracBits := by
    have ha := Nat.div_add_mod a (2 ^ f.fracBits)
    have hb := Nat.div_add_mod b (2 ^ f.fracBits)
    have hq : a / 2 ^ f.fracBits ≤ b / 2 ^ f.fracBits := Nat.div_le_div_right h.le
    rcases Nat.eq_or_lt_of_le hq with e | e
    · rw [e] at ha; left; omega
    · exact .inr e
  have hq : a / 2 ^ f.fracBits ≤ b / 2 ^ f.fracBits := Nat.div_le_div_right h.le
  unfold units
  dsimp only
  rcases Nat.eq_or_lt_of_le hq with heq | hlt
  · have hm : a % 2 ^ f.fracBits < b % 2 ^ f.fracBits := by omega
    rw [heq]
    split
    · exact hm
    · exact Nat.mul_lt_mul_of_pos_right (by omega) (by positivity)
  · rw [if_neg (Nat.ne_of_gt (Nat.lt_of_le_of_lt (Nat.zero_le _) hlt))]
    split
    · calc a % 2 ^ f.fracBits < 2 ^ f.fracBits + b % 2 ^ f.fracBits := by omega
        _ ≤ _ := Nat.le_mul_of_pos_right _ (by positivity)
    · calc (2 ^ f.fracBits + a % 2 ^ f.fracBits) * 2 ^ (a / 2 ^ f.fracBits - 1)
          < (2 ^ f.fracBits * 2) * 2 ^ (a / 2 ^ f.fracBits - 1) :=
            Nat.mul_lt_mul_of_pos_right (by omega) (by positivity)
        _ = 2 ^ f.fracBits * 2 ^ (a / 2 ^ f.fracBits - 1 + 1) := by ring
        _ ≤ 2 ^ f.fracBits * 2 ^ (b / 2 ^ f.fracBits - 1) :=
            Nat.mul_le_mul_left _ (Nat.pow_le_pow_right (by decide) (by
              generalize a / 2 ^ f.fracBits = x at *
              generalize b / 2 ^ f.fracBits = y at *
              omega))
        _ ≤ _ := Nat.mul_le_mul_right _ (by omega)

theorem Format.units_zero (f : Format) : f.units 0 = 0 := by simp [units]

theorem Format.units_lt_iff (f : Format) {a b : Nat} : f.units a < f.units b ↔ a < b :=
  ⟨fun h => by by_contra hn; exact absurd h (Nat.not_lt.mpr (f.units_mono (Nat.not_lt.mp hn))), f.units_strictMono⟩

theorem Format.units_inj (f : Format) {a b : Nat} (h : f.units a = f.units b) : a = b := by
  rcases Nat.lt_trichotomy a b with l | l | l
  · have := f.units_strictMono l; omega
  · exact l
  · have := f.units_strictMono l; omega

/-- A whole number of at most `fracBits + 1` significant bits is the value of some magnitude. -/
theorem Format.units_surj (f : Format) {m e : Nat} (hm : m < 2 ^ (f.fracBits + 1)) :
    ∃ mag, f.units mag = m * 2 ^ e ∧ mag ≤ (e + 1) * 2 ^ f.fracBits + 2 ^ f.fracBits - 1 := by
  induction e generalizing m with
  | zero =>
    refine ⟨m, ?_, ?_⟩
    · unfold units; dsimp only
      rw [pow_succ] at hm
      have hpos : 0 < 2 ^ f.fracBits := Nat.pow_pos (by decide)
      have h1 := Nat.div_add_mod m (2 ^ f.fracBits)
      have : m / 2 ^ f.fracBits < 2 := Nat.div_lt_of_lt_mul hm
      split
      · rename_i h; rw [h] at h1; omega
      · have : m / 2 ^ f.fracBits = 1 := by
          generalize m / 2 ^ f.fracBits = q at *
          omega
        rw [this] at h1 ⊢; simp; omega
    · rw [pow_succ] at hm; omega
  | succ e ih =>
    have hpos : 0 < 2 ^ f.fracBits := Nat.pow_pos (by decide)
    by_cases h : m < 2 ^ f.fracBits
    · obtain ⟨mag, h1, h2⟩ := ih (m := m * 2) (by rw [pow_succ]; omega)
      refine ⟨mag, by rw [h1]; ring, h2.trans ?_⟩
      have : (e + 1 + 1) * 2 ^ f.fracBits = (e + 1) * 2 ^ f.fracBits + 2 ^ f.fracBits := by ring
      omega
    · refine ⟨(e + 2) * 2 ^ f.fracBits + (m - 2 ^ f.fracBits), ?_, ?_⟩
      · rw [pow_succ] at hm
        have hr : m - 2 ^ f.fracBits < 2 ^ f.fracBits := by omega
        unfold units; dsimp only
        rw [Nat.add_comm, Nat.add_mul_div_right _ _ hpos, Nat.div_eq_of_lt hr, Nat.add_mul_mod_self_right, Nat.mod_eq_of_lt hr,
          if_neg (by omega), Nat.zero_add, show e + 2 - 1 = e + 1 by omega]
        congr 1; omega
      · rw [pow_succ] at hm
        rw [show e + 1 + 1 = e + 2 by omega]
        omega

/-- Rounding a quotient that is the value of a finite magnitude returns that magnitude. -/
theorem Format.round_of_units (f : Format) {mag n d : Nat} (hd : 0 < d) (h : mag < f.infMag) (e : n = f.units mag * d) :
    f.round n d = mag := by rw [e]; exact f.round_units hd h

/-- The value of an unpacked number, in units. -/
def Fp.value (f : Format) (a : Fp) : Int := if a.neg then -(f.units a.mag : Int) else f.units a.mag

/-- The value read from the fields is the value of the unpacked number. -/
theorem value32_eq (w : Word) : value32 w = (unpack32 w).value binary32 := by
  unfold value32 fieldsValue Fp.value unpack32 Format.units
  dsimp only [binary32]
  have h1 : w.toNat / 2 ^ 23 % 2 ^ 8 = w.toNat % 2 ^ 31 / 2 ^ 23 := by omega
  have h2 : w.toNat % 2 ^ 23 = w.toNat % 2 ^ 31 % 2 ^ 23 := by omega
  rw [h1, h2]
  have h3 : (w.toNat / 2 ^ (8 + 23) = 1) ↔ 2 ^ 31 ≤ w.toNat := by have := w.isLt; omega
  simp only [h3, decide_eq_true_eq]

theorem value64_eq (w : DWord) : value64 w = (unpack64 w).value binary64 := by
  unfold value64 fieldsValue Fp.value unpack64 Format.units
  dsimp only [binary64]
  have h1 : w.toNat / 2 ^ 52 % 2 ^ 11 = w.toNat % 2 ^ 63 / 2 ^ 52 := by omega
  have h2 : w.toNat % 2 ^ 52 = w.toNat % 2 ^ 63 % 2 ^ 52 := by omega
  rw [h1, h2]
  have h3 : (w.toNat / 2 ^ (11 + 52) = 1) ↔ 2 ^ 63 ≤ w.toNat := by have := w.isLt; omega
  simp only [h3, decide_eq_true_eq]

/-- The order the comparisons use is the order of values. -/
theorem Fp.key_lt (f : Format) (a b : Fp) : a.key < b.key ↔ a.value f < b.value f := by
  have h1 := f.units_lt_iff (a := a.mag) (b := b.mag)
  have h2 := f.units_lt_iff (a := b.mag) (b := a.mag)
  have h3 := f.units_lt_iff (a := 0) (b := a.mag)
  have h4 := f.units_lt_iff (a := 0) (b := b.mag)
  rw [f.units_zero] at h3 h4
  unfold Fp.key Fp.value
  split <;> split <;> omega

theorem Fp.key_le (f : Format) (a b : Fp) : a.key ≤ b.key ↔ a.value f ≤ b.value f := by
  rw [← not_lt, ← not_lt, Fp.key_lt f]

/-- Numbers other than zero are equal when their values are. -/
theorem Fp.value_inj {f : Format} {a z : Fp} (h : a.value f = z.value f) (hz : z.value f ≠ 0) : a = z := by
  have h3 := f.units_lt_iff (a := 0) (b := a.mag)
  have h4 := f.units_lt_iff (a := 0) (b := z.mag)
  obtain ⟨an, am⟩ := a
  obtain ⟨zn, zm⟩ := z
  unfold Fp.value at h hz
  dsimp only at h hz h3 h4
  cases an <;> cases zn <;> simp at h hz ⊢
  · exact f.units_inj h
  · omega
  · omega
  · exact f.units_inj h

/-- A finite number is no NaN and no infinity. -/
theorem Fp.fin {f : Format} {a : Fp} (h : a.isFinite f = true) : a.mag < f.infMag ∧ a.isNaN f = false ∧ a.isInf f = false := by
  unfold Fp.isFinite at h; rw [decide_eq_true_eq] at h
  refine ⟨h, ?_, ?_⟩
  · simp [Fp.isNaN]; omega
  · simp [Fp.isInf]; omega

/-! ## Exact results -/

/-- A sum whose value a finite number other than zero has is that number (`00_scope.md` R9). -/
theorem Fp.add_exact {f : Format} {a b z : Fp} (ha : a.isFinite f = true) (hb : b.isFinite f = true) (hz : z.isFinite f = true)
    (h0 : z.value f ≠ 0) (h : a.value f + b.value f = z.value f) : Fp.add f a b = some z := by
  obtain ⟨_, ha1, ha2⟩ := Fp.fin ha
  obtain ⟨_, hb1, hb2⟩ := Fp.fin hb
  obtain ⟨hzl, _, _⟩ := Fp.fin hz
  unfold Fp.add
  simp only [ha1, ha2, hb1, hb2]
  obtain ⟨an, am⟩ := a
  obtain ⟨bn, bm⟩ := b
  obtain ⟨zn, zm⟩ := z
  unfold Fp.value at h h0
  dsimp only at h h0 hzl ⊢
  have key : ∀ n, n = f.units zm → f.round n 1 = zm := fun n hn => f.round_of_units (by decide) hzl (by omega)
  cases an <;> cases bn <;> cases zn <;> simp at h h0 ⊢
  all_goals first
    | (exfalso; omega)
    | exact key _ (by omega)
    | skip
  all_goals
    rcases Nat.lt_trichotomy (f.units am) (f.units bm) with hl | hl | hl
  all_goals first
    | (exfalso; omega)
    | (rw [if_neg (by omega), if_pos hl]; simp; exact key _ (by omega))
    | (rw [if_pos hl]; simp; exact key _ (by omega))

/-- A product whose value a finite number other than zero has is that number (`00_scope.md` R9). -/
theorem Fp.mul_exact {f : Format} {a b z : Fp} (ha : a.isFinite f = true) (hb : b.isFinite f = true) (hz : z.isFinite f = true)
    (h0 : z.value f ≠ 0) (h : a.value f * b.value f = z.value f * 2 ^ f.unitExp) : Fp.mul f a b = some z := by
  obtain ⟨_, ha1, ha2⟩ := Fp.fin ha
  obtain ⟨_, hb1, hb2⟩ := Fp.fin hb
  obtain ⟨hzl, _, _⟩ := Fp.fin hz
  unfold Fp.mul
  simp only [ha1, ha2, hb1, hb2]
  obtain ⟨an, am⟩ := a
  obtain ⟨bn, bm⟩ := b
  obtain ⟨zn, zm⟩ := z
  unfold Fp.value at h h0
  dsimp only at h h0 hzl ⊢
  have hp : (0:Int) < 2 ^ f.unitExp := by positivity
  have hx : (0:Int) ≤ f.units am * f.units bm := by positivity
  have hy : (0:Int) ≤ f.units zm * 2 ^ f.unitExp := by positivity
  have hzp : f.units zm ≠ 0 := by rintro e; rw [e] at h0; split at h0 <;> simp at h0
  have hy' : (0:Int) < f.units zm * 2 ^ f.unitExp := by positivity
  have key : (f.units am * f.units bm : Int) = f.units zm * 2 ^ f.unitExp → f.round (f.units am * f.units bm) (2 ^ f.unitExp) = zm :=
    fun e => f.round_of_units (by positivity) hzl (by exact_mod_cast e)
  cases an <;> cases bn <;> cases zn <;> simp at h ⊢
  all_goals first
    | exact key h
    | (exfalso; omega)

/-- A quotient whose value a finite number other than zero has is that number (`00_scope.md` R9). -/
theorem Fp.div_exact {f : Format} {a b z : Fp} (ha : a.isFinite f = true) (hb : b.isFinite f = true) (hz : z.isFinite f = true)
    (h0 : z.value f ≠ 0) (hb0 : b.value f ≠ 0) (h : a.value f * 2 ^ f.unitExp = z.value f * b.value f) : Fp.div f a b = some z := by
  obtain ⟨_, ha1, ha2⟩ := Fp.fin ha
  obtain ⟨_, hb1, hb2⟩ := Fp.fin hb
  obtain ⟨hzl, _, _⟩ := Fp.fin hz
  unfold Fp.div
  simp only [ha1, ha2, hb1, hb2]
  obtain ⟨an, am⟩ := a
  obtain ⟨bn, bm⟩ := b
  obtain ⟨zn, zm⟩ := z
  unfold Fp.value at h h0 hb0
  dsimp only at h h0 hb0 hzl ⊢
  have hzp : f.units zm ≠ 0 := by rintro e; rw [e] at h0; split at h0 <;> simp at h0
  have hbp : f.units bm ≠ 0 := by rintro e; rw [e] at hb0; split at hb0 <;> simp at hb0
  have hbm : bm ≠ 0 := by rintro rfl; exact hbp f.units_zero
  have hx : (0:Int) ≤ f.units am * 2 ^ f.unitExp := by positivity
  have hy' : (0:Int) < f.units zm * f.units bm := by positivity
  have key : (f.units am * 2 ^ f.unitExp : Int) = f.units zm * f.units bm → f.round (f.units am * 2 ^ f.unitExp) (f.units bm) = zm :=
    fun e => f.round_of_units (by omega) hzl (by exact_mod_cast e)
  cases an <;> cases bn <;> cases zn <;> simp [hbm] at h ⊢
  all_goals first
    | exact key h
    | (exfalso; omega)

theorem finite32_fp {a : Word} (h : finite32 a = true) : (unpack32 a).isFinite binary32 = true := h

/-- `neg32` inverts the sign and keeps the magnitude (`00_scope.md` R9). -/
theorem unpack_neg (b : Word) : unpack32 (neg32 b) = ⟨!(unpack32 b).neg, (unpack32 b).mag⟩ := by
  have h := b.isLt
  have hm : (neg32 b).toNat % 2 ^ 31 = b.toNat % 2 ^ 31 := by
    show (b.toNat ^^^ 2 ^ 31) % 2 ^ 31 = _
    rw [Nat.xor_mod_two_pow]; simp
  have hd : (neg32 b).toNat / 2 ^ 31 = b.toNat / 2 ^ 31 ^^^ 1 := by
    show (b.toNat ^^^ 2 ^ 31) / 2 ^ 31 = _
    rw [Nat.xor_div_two_pow]; norm_num
  have hb : b.toNat / 2 ^ 31 = 0 ∨ b.toNat / 2 ^ 31 = 1 := by omega
  have hx : (neg32 b).toNat = if 2 ^ 31 ≤ b.toNat then b.toNat - 2 ^ 31 else b.toNat + 2 ^ 31 := by
    have e0 : (0 : Nat) ^^^ 1 = 1 := rfl
    have e1 : (1 : Nat) ^^^ 1 = 0 := rfl
    rcases hb with e | e <;> rw [e] at hd
    · rw [e0] at hd; split <;> omega
    · rw [e1] at hd; split <;> omega
  clear hm hd hb
  unfold unpack32
  by_cases hc : 2 ^ 31 ≤ b.toNat
  · rw [if_pos hc] at hx
    rw [hx, Fp.mk.injEq]
    simp only [hc, decide_true, Bool.not_true, decide_eq_false_iff_not]
    omega
  · rw [if_neg hc] at hx
    rw [hx, Fp.mk.injEq]
    simp only [hc, decide_false, Bool.not_false, decide_eq_true_eq]
    omega

theorem pack64_unpack64 (w : DWord) : pack64 (some (unpack64 w)) = w := by
  apply BitVec.eq_of_toNat_eq
  have := w.isLt
  simp only [pack64, unpack64, BitVec.toNat_ofNat, decide_eq_true_eq]
  split <;> omega

theorem Fp.value_neg (f : Format) (n : Bool) (m : Nat) : (Fp.mk (!n) m).value f = - (Fp.mk n m).value f := by
  unfold Fp.value; cases n <;> simp

theorem Fp.value_zero_iff {f : Format} {a : Fp} : a.value f = 0 ↔ a.mag = 0 := by
  have h3 := f.units_lt_iff (a := 0) (b := a.mag)
  rw [f.units_zero] at h3
  unfold Fp.value; split <;> omega

theorem finite32_neg32 {a : Word} (h : finite32 a = true) : finite32 (neg32 a) = true := by
  have : (unpack32 (neg32 a)).isFinite binary32 = true := by rw [unpack_neg]; exact h
  exact this

theorem value_neg32 (a : Word) : value32 (neg32 a) = - value32 a := by
  rw [value32_eq, value32_eq, unpack_neg, Fp.value_neg]

theorem unpack32_inj {a b : Word} (h : unpack32 a = unpack32 b) : a = b := by
  rw [← pack32_unpack32 a, h, pack32_unpack32]

theorem eq_iff_unpack {a b : Word} : a = b ↔ unpack32 a = unpack32 b := ⟨fun h => by rw [h], unpack32_inj⟩

/-! ## Rounding is to nearest, ties to even -/

/-- The magnitudes of one binade and the value of each: `2^k` units apart (`00_scope.md` R8). -/
theorem Format.units_grid (f : Format) {k j : Nat} (hj : j ≤ 2 ^ (f.fracBits + 1)) (hk : k = 0 ∨ 2 ^ f.fracBits ≤ j) :
    f.units (k * 2 ^ f.fracBits + j) = j * 2 ^ k := by
  have hpos : 0 < 2 ^ f.fracBits := Nat.pow_pos (by decide)
  rw [pow_succ] at hj
  unfold units
  dsimp only
  rw [Nat.add_comm, Nat.add_mul_div_right _ _ hpos, Nat.add_mul_mod_self_right]
  rcases Nat.lt_or_ge j (2 ^ f.fracBits) with h1 | h1
  · have hk0 : k = 0 := by omega
    rw [hk0, Nat.div_eq_of_lt h1, Nat.mod_eq_of_lt h1]
    simp
  · rcases Nat.eq_or_lt_of_le hj with h2 | h2
    · have e1 : j / 2 ^ f.fracBits = 2 := by rw [h2, Nat.mul_div_cancel_left _ hpos]
      have e2 : j % 2 ^ f.fracBits = 0 := by rw [h2, Nat.mul_mod_right]
      rw [e1, e2, if_neg (by omega), show 2 + k - 1 = k + 1 by omega, h2, pow_succ]
      ring
    · have e1 : j / 2 ^ f.fracBits = 1 := Nat.div_eq_of_lt_le (by omega) (by omega)
      have e2 : j % 2 ^ f.fracBits = j - 2 ^ f.fracBits := by
        rw [Nat.mod_eq_sub_mod h1, Nat.mod_eq_of_lt (by omega)]
      rw [e1, e2, if_neg (by omega), show 1 + k - 1 = k by omega, show 2 ^ f.fracBits + (j - 2 ^ f.fracBits) = j by omega]

/-- Two neighbours of the format enclose the quotient, and `round` picks from them: with `b` the lower one, `r` the
distance above it and `u` the spacing (both times `den`), the nearer, and on a tie the even one. -/
theorem Format.round_neighbours (f : Format) (hf : 1 ≤ f.fracBits) {num den : Nat} (hd : 0 < den) :
    ∃ b r u, f.units b * den + r = num ∧ f.units (b + 1) * den = f.units b * den + u ∧ r < u ∧
      f.round num den = min (if 2 * r < u then b else if u < 2 * r then b + 1 else b + b % 2) f.infMag := by
  have hpos : 0 < 2 ^ f.fracBits := Nat.pow_pos (by decide)
  obtain ⟨k, hk⟩ : ∃ k, k = (num / den).log2 - f.fracBits := ⟨_, rfl⟩
  have hB : 0 < den * 2 ^ k := by positivity
  have hq : num / (den * 2 ^ k) = num / den / 2 ^ k := (Nat.div_div_eq_div_mul _ _ _).symm
  have hlt : num / (den * 2 ^ k) < 2 ^ (f.fracBits + 1) := by
    rw [hq, Nat.div_lt_iff_lt_mul (by positivity), ← pow_add]
    refine Nat.lt_of_lt_of_le (Nat.lt_log2_self) (Nat.pow_le_pow_right (by decide) (by omega))
  have hge : k = 0 ∨ 2 ^ f.fracBits ≤ num / (den * 2 ^ k) := by
    rcases Nat.eq_zero_or_pos k with h0 | h0
    · exact .inl h0
    · right
      rw [hq, Nat.le_div_iff_mul_le (by positivity), ← pow_add]
      have hne : num / den ≠ 0 := by
        intro e
        rw [e] at hk
        simp at hk
        omega
      exact (Nat.pow_le_pow_right (by decide) (by omega)).trans (Nat.log2_self_le hne)
  have h1 := f.units_grid hlt.le hge
  have h2 := f.units_grid (k := k) (j := num / (den * 2 ^ k) + 1) hlt (by omega)
  have hdm := Nat.div_add_mod num (den * 2 ^ k)
  have hm := Nat.mod_lt num hB
  have heven : k * 2 ^ f.fracBits % 2 = 0 := by
    obtain ⟨c, hc⟩ : ∃ c, f.fracBits = c + 1 := ⟨f.fracBits - 1, by omega⟩
    rw [hc, pow_succ, ← Nat.mul_assoc, Nat.mul_mod_left]
  refine ⟨k * 2 ^ f.fracBits + num / (den * 2 ^ k), num % (den * 2 ^ k), den * 2 ^ k, ?_, ?_, hm, ?_⟩
  · rw [h1, show num / (den * 2 ^ k) * 2 ^ k * den = den * 2 ^ k * (num / (den * 2 ^ k)) by ring]
    exact hdm
  · rw [Nat.add_assoc, h2, h1]
    ring
  · unfold round nearestEven
    dsimp only
    rw [← hk]
    congr 1
    generalize num / (den * 2 ^ k) = q at *
    generalize num % (den * 2 ^ k) = r at *
    generalize k * 2 ^ f.fracBits = c at *
    split
    · rfl
    · split
      · omega
      · omega

/-- `round` returns the magnitude nearest the quotient, and on a tie an even one (`00_scope.md` R9; log 7). -/
theorem Format.round_nearest (f : Format) (hf : 1 ≤ f.fracBits) {num den : Nat} (hd : 0 < den) {w : Nat}
    (hw : w ≤ f.infMag) :
    ((num : Int) - f.units (f.round num den) * den).natAbs ≤ ((num : Int) - f.units w * den).natAbs ∧
    (((num : Int) - f.units (f.round num den) * den).natAbs = ((num : Int) - f.units w * den).natAbs →
      w = f.round num den ∨ f.round num den % 2 = 0) := by
  obtain ⟨b, r, u, h1, h2, h3, hr⟩ := f.round_neighbours hf (num := num) hd
  have hlo : ∀ {x y : Nat}, x ≤ y → f.units x * den ≤ f.units y * den := fun h => Nat.mul_le_mul_right _ (f.units_mono h)
  have hls : ∀ {x y : Nat}, x < y → f.units x * den < f.units y * den :=
    fun h => Nat.mul_lt_mul_of_pos_right (f.units_strictMono h) hd
  rw [hr]
  simp only [← Nat.cast_mul]
  by_cases hcap : f.infMag ≤ b
  · have e : min (if 2 * r < u then b else if u < 2 * r then b + 1 else b + b % 2) f.infMag = f.infMag :=
      min_eq_right (by split; exact hcap; split <;> omega)
    rw [e]
    have g1 := hlo hcap
    rcases Nat.eq_or_lt_of_le hw with g | g
    · subst g
      exact ⟨le_rfl, fun _ => .inl rfl⟩
    · have g3 := hls g
      generalize f.units w * den = x at *
      generalize f.units f.infMag * den = y at *
      constructor <;> omega
  · have e : min (if 2 * r < u then b else if u < 2 * r then b + 1 else b + b % 2) f.infMag
        = (if 2 * r < u then b else if u < 2 * r then b + 1 else b + b % 2) :=
      min_eq_left (by split; omega; split <;> omega)
    rw [e]
    have gw : w = b ∨ w = b + 1 ∨ f.units w * den < f.units b * den ∨ f.units (b + 1) * den < f.units w * den := by
      rcases Nat.lt_trichotomy w b with g | g | g
      · exact .inr (.inr (.inl (hls g)))
      · exact .inl g
      · rcases Nat.eq_or_lt_of_le (Nat.succ_le_of_lt g) with g' | g'
        · exact .inr (.inl g'.symm)
        · exact .inr (.inr (.inr (hls g')))
    have key : ∀ m : Nat, (m = b ∧ 2 * r ≤ u ∧ (2 * r = u → b % 2 = 0)) ∨ (m = b + 1 ∧ u ≤ 2 * r ∧ (2 * r = u → b % 2 = 1)) →
        ((num : Int) - (f.units m * den : Nat)).natAbs ≤ ((num : Int) - (f.units w * den : Nat)).natAbs ∧
        (((num : Int) - (f.units m * den : Nat)).natAbs = ((num : Int) - (f.units w * den : Nat)).natAbs →
          w = m ∨ m % 2 = 0) := by
      rintro m (⟨rfl, h4, h5⟩ | ⟨rfl, h4, h5⟩) <;> rcases gw with rfl | rfl | gw | gw
      all_goals
        try generalize f.units w * den = x at *
        try generalize f.units b * den = y at *
        try generalize f.units (b + 1) * den = z at *
        try generalize f.units m * den = y at *
        try generalize f.units (m + 1) * den = z at *
        constructor <;> omega
    apply key
    split
    · exact .inl ⟨rfl, by omega, by omega⟩
    · split
      · exact .inr ⟨rfl, by omega, by omega⟩
      · rcases Nat.mod_two_eq_zero_or_one b with g | g
        · exact .inl ⟨by omega, by omega, fun _ => g⟩
        · exact .inr ⟨by omega, by omega, fun _ => g⟩

/-- `r` is the number of the format nearest `n / d` units, ties to even: `Nearest32` and `Nearest64` before packing. -/
def Fp.Nearest (f : Format) (n : Int) (d : Nat) (r : Fp) : Prop :=
  r.mag ≤ f.infMag ∧
  ∀ w : Fp, w.mag ≤ f.infMag →
    (n - r.value f * d).natAbs ≤ (n - w.value f * d).natAbs ∧
    ((n - r.value f * d).natAbs = (n - w.value f * d).natAbs → w.value f = r.value f ∨ r.mag % 2 = 0)

/-- A rounded magnitude with the sign of the exact result is the number nearest it. -/
theorem Fp.nearest_round {f : Format} (hf : 1 ≤ f.fracBits) (s : Bool) {num den : Nat} (hd : 0 < den) :
    Fp.Nearest f (if s then -(num : Int) else num) den ⟨s, f.round num den⟩ := by
  refine ⟨f.round_le _ _, fun w hw => ?_⟩
  obtain ⟨h1, h2⟩ := f.round_nearest hf (num := num) hd hw
  obtain ⟨h3, h4⟩ := f.round_nearest hf (num := num) hd (Nat.zero_le f.infMag)
  rw [f.units_zero] at h3 h4
  have hinj : w.mag = f.round num den → f.units w.mag = f.units (f.round num den) := fun e => by rw [e]
  have hpos : f.units w.mag * den = 0 → f.units w.mag = 0 := fun e => (Nat.mul_eq_zero.mp e).resolve_right hd.ne'
  have hz : 0 = f.round num den → f.units (f.round num den) = 0 := fun e => by rw [← e, f.units_zero]
  obtain ⟨wn, wm⟩ := w
  simp only [Fp.value] at *
  simp only [← Nat.cast_mul, Nat.zero_mul] at h1 h2 h3 h4
  cases s <;> cases wn <;> simp only [Bool.false_eq_true, if_false, if_true, neg_mul, ← Nat.cast_mul] <;>
    generalize f.units wm * den = x at * <;> generalize f.units (f.round num den) * den = y at * <;>
    generalize f.round num den = m at * <;> generalize f.units wm = p at * <;> generalize f.units m = q at * <;>
    constructor <;> omega

/-- A finite sum is the number nearest the exact one (`00_scope.md` R9; log 7). -/
theorem Fp.add_nearest {f : Format} (hf : 1 ≤ f.fracBits) {a b : Fp} (ha : a.isFinite f = true) (hb : b.isFinite f = true) :
    ∃ r, Fp.add f a b = some r ∧ Fp.Nearest f (a.value f + b.value f) 1 r := by
  obtain ⟨_, ha1, ha2⟩ := Fp.fin ha
  obtain ⟨_, hb1, hb2⟩ := Fp.fin hb
  have h0 : Fp.Nearest f 0 1 ⟨false, 0⟩ := by
    have := Fp.nearest_round hf false (num := 0) (den := 1) (by decide)
    rwa [f.round_zero] at this
  have key : ∀ (s : Bool) (num : Nat) (n : Int), n = (if s then -(num : Int) else num) →
      Fp.Nearest f n 1 ⟨s, f.round num 1⟩ := fun s num n e => e ▸ Fp.nearest_round hf s (by decide)
  unfold Fp.add
  simp only [ha1, ha2, hb1, hb2, Bool.or_self, Bool.false_eq_true, if_false]
  obtain ⟨an, am⟩ := a
  obtain ⟨bn, bm⟩ := b
  simp only [Fp.value]
  generalize f.units am = x
  generalize f.units bm = y
  split
  · rename_i e
    refine ⟨_, rfl, key _ _ _ ?_⟩
    cases an <;> cases bn <;> simp at e ⊢
    omega
  · rename_i e
    split
    · refine ⟨_, rfl, key _ _ _ ?_⟩
      cases an <;> cases bn <;> simp at e ⊢ <;> omega
    · split
      · refine ⟨_, rfl, key _ _ _ ?_⟩
        cases an <;> cases bn <;> simp at e ⊢ <;> omega
      · refine ⟨_, rfl, ?_⟩
        have hz : ((if an then -(x : Int) else x) + if bn then -(y : Int) else y) = 0 := by
          cases an <;> cases bn <;> simp at e ⊢ <;> omega
        rw [hz]
        exact h0

/-- A finite product is the number nearest the exact one, its sign the product of the signs (`00_scope.md` R9; log 7). -/
theorem Fp.mul_nearest {f : Format} (hf : 1 ≤ f.fracBits) {a b : Fp} (ha : a.isFinite f = true) (hb : b.isFinite f = true) :
    ∃ r, Fp.mul f a b = some r ∧ r.neg = (a.neg != b.neg) ∧ Fp.Nearest f (a.value f * b.value f) (2 ^ f.unitExp) r := by
  obtain ⟨_, ha1, ha2⟩ := Fp.fin ha
  obtain ⟨_, hb1, hb2⟩ := Fp.fin hb
  unfold Fp.mul
  simp only [ha1, ha2, hb1, hb2, Bool.or_self, Bool.false_eq_true, if_false]
  refine ⟨_, rfl, rfl, ?_⟩
  have h := Fp.nearest_round hf (a.neg != b.neg) (num := f.units a.mag * f.units b.mag) (den := 2 ^ f.unitExp) (by positivity)
  have e : (if a.neg != b.neg then -((f.units a.mag * f.units b.mag : Nat) : Int) else (f.units a.mag * f.units b.mag : Nat))
      = a.value f * b.value f := by
    unfold Fp.value
    cases a.neg <;> cases b.neg <;> simp
  rwa [e] at h

/-- A finite quotient is the number nearest the exact one, its sign the product of the signs (`00_scope.md` R9; log 7). -/
theorem Fp.div_nearest {f : Format} (hf : 1 ≤ f.fracBits) {a b : Fp} (ha : a.isFinite f = true) (hb : b.isFinite f = true)
    (h0 : b.value f ≠ 0) :
    ∃ r, Fp.div f a b = some r ∧ r.neg = (a.neg != b.neg) ∧
      Fp.Nearest f (a.value f * 2 ^ f.unitExp * (b.value f).sign) (b.value f).natAbs r := by
  obtain ⟨_, ha1, ha2⟩ := Fp.fin ha
  obtain ⟨_, hb1, hb2⟩ := Fp.fin hb
  have hm : b.mag ≠ 0 := fun e => h0 (Fp.value_zero_iff.mpr e)
  have hu : 0 < f.units b.mag := by
    have := f.units_lt_iff (a := 0) (b := b.mag)
    rw [f.units_zero] at this
    omega
  unfold Fp.div
  simp only [ha1, ha2, hb1, hb2, Bool.or_self, Bool.false_eq_true, if_false, hm]
  refine ⟨_, rfl, rfl, ?_⟩
  have h := Fp.nearest_round hf (a.neg != b.neg) (num := f.units a.mag * 2 ^ f.unitExp) (den := f.units b.mag) hu
  have e : (if a.neg != b.neg then -((f.units a.mag * 2 ^ f.unitExp : Nat) : Int) else (f.units a.mag * 2 ^ f.unitExp : Nat))
      = a.value f * 2 ^ f.unitExp * (b.value f).sign := by
    have hs : ((f.units b.mag : Int)).sign = 1 := Int.sign_eq_one_of_pos (by exact_mod_cast hu)
    unfold Fp.value
    cases a.neg <;> cases b.neg <;> simp [hs]
  have e' : (b.value f).natAbs = f.units b.mag := by
    unfold Fp.value
    split <;> simp
  rw [e'] at *
  rwa [e] at h

theorem nearest32_pack {n : Int} {d : Nat} {r : Fp} (h : Fp.Nearest binary32 n d r) : Nearest32 n d (pack32 (some r)) := by
  obtain ⟨h1, h2⟩ := h
  rw [binary32_infMag] at h1
  have hu : unpack32 (pack32 (some r)) = r := unpack32_pack32 (by omega)
  have hmag : ∀ w : Word, (unpack32 w).mag = w.toNat % 2 ^ 31 := fun _ => rfl
  refine ⟨by rw [← hmag, hu]; exact h1, fun w hw => ?_⟩
  have h := h2 (unpack32 w) (by rw [binary32_infMag]; exact hw)
  have hp : (pack32 (some r)).toNat % 2 = r.mag % 2 := by
    have := hmag (pack32 (some r))
    rw [hu] at this
    omega
  rw [value32_eq, value32_eq, hu, hp]
  exact h

theorem nearest64_pack {n : Int} {d : Nat} {r : Fp} (h : Fp.Nearest binary64 n d r) : Nearest64 n d (pack64 (some r)) := by
  obtain ⟨h1, h2⟩ := h
  rw [binary64_infMag] at h1
  have hu : unpack64 (pack64 (some r)) = r := unpack64_pack64 (by omega)
  have hmag : ∀ w : DWord, (unpack64 w).mag = w.toNat % 2 ^ 63 := fun _ => rfl
  refine ⟨by rw [← hmag, hu]; exact h1, fun w hw => ?_⟩
  have h := h2 (unpack64 w) (by rw [binary64_infMag]; exact hw)
  have hp : (pack64 (some r)).toNat % 2 = r.mag % 2 := by
    have := hmag (pack64 (some r))
    rw [hu] at this
    omega
  rw [value64_eq, value64_eq, hu, hp]
  exact h

/-! ## Zero results -/

/-- A product that is zero is the zero of the signs' product (`00_scope.md` R9). -/
theorem Fp.mul_value_zero {f : Format} {a b : Fp} (ha : a.isFinite f = true) (hb : b.isFinite f = true)
    (h : a.value f * b.value f = 0) : Fp.mul f a b = some ⟨a.neg != b.neg, 0⟩ := by
  obtain ⟨_, ha1, ha2⟩ := Fp.fin ha
  obtain ⟨_, hb1, hb2⟩ := Fp.fin hb
  rw [mul_eq_zero, Fp.value_zero_iff, Fp.value_zero_iff] at h
  have h0 : f.units a.mag * f.units b.mag = 0 := by
    rcases h with e | e <;> rw [e, f.units_zero] <;> simp
  simp [Fp.mul, ha1, ha2, hb1, hb2, h0, f.round_zero]

/-- Zero over a finite number other than zero is the zero of the signs' product (`00_scope.md` R9). -/
theorem Fp.div_value_zero {f : Format} {a b : Fp} (ha : a.isFinite f = true) (hb : b.isFinite f = true)
    (h : a.value f = 0) (h' : b.value f ≠ 0) : Fp.div f a b = some ⟨a.neg != b.neg, 0⟩ := by
  obtain ⟨_, ha1, ha2⟩ := Fp.fin ha
  obtain ⟨_, hb1, hb2⟩ := Fp.fin hb
  rw [Fp.value_zero_iff] at h
  rw [Ne, Fp.value_zero_iff] at h'
  simp [Fp.div, ha1, ha2, hb1, hb2, h, h', f.units_zero, f.round_zero]

/-- A finite number other than zero over a zero is an infinity of the signs' product (`00_scope.md` R9). -/
theorem Fp.div_by_zero {f : Format} {a b : Fp} (ha : a.isFinite f = true) (hb : b.isFinite f = true)
    (h : a.value f ≠ 0) (h' : b.value f = 0) : Fp.div f a b = some ⟨a.neg != b.neg, f.infMag⟩ := by
  obtain ⟨_, ha1, ha2⟩ := Fp.fin ha
  obtain ⟨_, hb1, hb2⟩ := Fp.fin hb
  rw [Fp.value_zero_iff] at h'
  rw [Ne, Fp.value_zero_iff] at h
  simp [Fp.div, ha1, ha2, hb1, hb2, h, h']

theorem signedZero32_eq (a b : Word) :
    signedZero32 a b = pack32 (some ⟨(unpack32 a).neg != (unpack32 b).neg, 0⟩) := by
  unfold signedZero32 unpack32
  dsimp only
  have h1 := a.isLt
  have h2 := b.isLt
  by_cases x : 2 ^ 31 ≤ a.toNat <;> by_cases y : 2 ^ 31 ≤ b.toNat <;> simp only [x, y, decide_true, decide_false]
  · rw [if_pos (by omega)]; decide
  · rw [if_neg (by omega)]; decide
  · rw [if_neg (by omega)]; decide
  · rw [if_pos (by omega)]; decide

theorem signedZero64_eq (a b : DWord) :
    signedZero64 a b = pack64 (some ⟨(unpack64 a).neg != (unpack64 b).neg, 0⟩) := by
  unfold signedZero64 unpack64
  dsimp only
  have h1 := a.isLt
  have h2 := b.isLt
  by_cases x : 2 ^ 63 ≤ a.toNat <;> by_cases y : 2 ^ 63 ≤ b.toNat <;> simp only [x, y, decide_true, decide_false]
  · rw [if_pos (by omega)]; decide
  · rw [if_neg (by omega)]; decide
  · rw [if_neg (by omega)]; decide
  · rw [if_pos (by omega)]; decide

end Sys2Proof.Machine
end

