-- ==== Sys2Proof/Laws/PerInstr.lean ====
section
/-! SUPPORT. Sys2Proof/Laws/PerInstr.lean: the statements made of every command as syntax, one lemma per constructor. -/

namespace Sys2Proof.Laws.RoundTrip

/-- The command's word is well formed, decodes to the command, and uses only bits 7:0 (`30_encoding.md` R90, R92). -/
def Statement (i : Instr) : Prop :=
  i.wellFormed = true ∧ commandWordWellFormed (encode i) = true ∧ decode (encode i) = .ok i ∧
    decodeTableWord 32 (encode i).toNat = some i

theorem nop : Statement .nop := ⟨rfl, by decide, by decide, by decide⟩
theorem reset : Statement .reset := ⟨rfl, by decide, by decide, by decide⟩
theorem clrErr : Statement .clrErr := ⟨rfl, by decide, by decide, by decide⟩
theorem setParams : Statement .setParams := ⟨rfl, by decide, by decide, by decide⟩
theorem setAttack : Statement .setAttack := ⟨rfl, by decide, by decide, by decide⟩
theorem setDecay : Statement .setDecay := ⟨rfl, by decide, by decide, by decide⟩
theorem setSustain : Statement .setSustain := ⟨rfl, by decide, by decide, by decide⟩
theorem setRelease : Statement .setRelease := ⟨rfl, by decide, by decide, by decide⟩
theorem setSampleRate : Statement .setSampleRate := ⟨rfl, by decide, by decide, by decide⟩
theorem loadSource : Statement .loadSource := ⟨rfl, by decide, by decide, by decide⟩
theorem setFreq : Statement .setFreq := ⟨rfl, by decide, by decide, by decide⟩
theorem noteOn : Statement .noteOn := ⟨rfl, by decide, by decide, by decide⟩
theorem noteOff : Statement .noteOff := ⟨rfl, by decide, by decide, by decide⟩
theorem envTick : Statement .envTick := ⟨rfl, by decide, by decide, by decide⟩
theorem grTick : Statement .grTick := ⟨rfl, by decide, by decide, by decide⟩
theorem voiceTick : Statement .voiceTick := ⟨rfl, by decide, by decide, by decide⟩
theorem envApply : Statement .envApply := ⟨rfl, by decide, by decide, by decide⟩
theorem voiceFill : Statement .voiceFill := ⟨rfl, by decide, by decide, by decide⟩

end Sys2Proof.Laws.RoundTrip
end

