-- ==== Sys2Proof/Tests/Slice0.lean ====
section
/-! SUPPORT. Sys2Proof/Tests/Slice0.lean: the model's own tests, expected results from `95_test_vectors.md` or worked by hand
from the rule named, and a witness for the hypotheses of each statement of `Certificates/Slice0/Obligations.lean`. -/

namespace Sys2Proof.Tests

/- One theorem at a time: every kernel evaluation that waits for another holds a thread with its whole stack. -/
set_option Elab.async false

open Sys2Proof.Machine

/-! ## Well-formedness smoke tests (`00_scope.md` R5, `30_encoding.md` R90) -/

theorem test_params_wellFormed : (⟨2, 16, 18⟩ : Config.Params).wellFormed = true ∧
    (⟨65535, 1048576, 1048576⟩ : Config.Params).wellFormed = true ∧ (⟨1, 1, 1⟩ : Config.Params).wellFormed = true := by
  decide

theorem test_params_cap_refused : (⟨0, 16, 18⟩ : Config.Params).wellFormed = false ∧
    (⟨65536, 16, 18⟩ : Config.Params).wellFormed = false := by
  decide

theorem test_params_lmax_refused : (⟨2, 0, 18⟩ : Config.Params).wellFormed = false ∧
    (⟨2, 1048577, 18⟩ : Config.Params).wellFormed = false := by
  decide

theorem test_params_bmax_refused : (⟨2, 16, 0⟩ : Config.Params).wellFormed = false ∧
    (⟨2, 16, 1048577⟩ : Config.Params).wellFormed = false := by
  decide

theorem test_word_reserved_bits_refused : commandWordWellFormed 0x00000130#32 = false ∧
    commandWordWellFormed 0x80000000#32 = false ∧ commandWordWellFormed 0x000000FF#32 = true := by
  decide

theorem test_memory_not_canonical_refused : Memory.wf [(5, 1), (5, 2)] = false ∧ Memory.wf [(5, 1), (4, 2)] = false ∧
    Memory.wf [(4, 2), (5, 1)] = true := by
  decide

theorem test_memory_write_canonical : Memory.write [(4, 2), (6, 1)] 5 7 = [(4, 2), (5, 7), (6, 1)] ∧
    Memory.write [(4, 2), (6, 1)] 6 7 = [(4, 2), (6, 7)] := by
  decide

/-! ## Decoding: each word bit by bit from `30_encoding.md` R92 -/

theorem test_decode_nop : decode 0b00000000000000000000000000000000#32 = .ok .nop := by decide
theorem test_decode_reset : decode 0b00000000000000000000000000000001#32 = .ok .reset := by decide
theorem test_decode_clrErr : decode 0b00000000000000000000000000000010#32 = .ok .clrErr := by decide
theorem test_decode_setParams : decode 0b00000000000000000000000000010000#32 = .ok .setParams := by decide
theorem test_decode_setAttack : decode 0b00000000000000000000000000010001#32 = .ok .setAttack := by decide
theorem test_decode_setDecay : decode 0b00000000000000000000000000010010#32 = .ok .setDecay := by decide
theorem test_decode_setSustain : decode 0b00000000000000000000000000010011#32 = .ok .setSustain := by decide
theorem test_decode_setRelease : decode 0b00000000000000000000000000010100#32 = .ok .setRelease := by decide
theorem test_decode_setSampleRate : decode 0b00000000000000000000000000010101#32 = .ok .setSampleRate := by decide
theorem test_decode_loadSource : decode 0b00000000000000000000000000011000#32 = .ok .loadSource := by decide
theorem test_decode_setFreq : decode 0b00000000000000000000000000011001#32 = .ok .setFreq := by decide
theorem test_decode_noteOn : decode 0b00000000000000000000000000100000#32 = .ok .noteOn := by decide
theorem test_decode_noteOff : decode 0b00000000000000000000000000100001#32 = .ok .noteOff := by decide
theorem test_decode_envTick : decode 0b00000000000000000000000000110000#32 = .ok .envTick := by decide
theorem test_decode_grTick : decode 0b00000000000000000000000000110001#32 = .ok .grTick := by decide
theorem test_decode_voiceTick : decode 0b00000000000000000000000000110010#32 = .ok .voiceTick := by decide
theorem test_decode_envApply : decode 0b00000000000000000000000000111000#32 = .ok .envApply := by decide
theorem test_decode_voiceFill : decode 0b00000000000000000000000000111001#32 = .ok .voiceFill := by decide

/-- T17: opcode 3 is not listed; `0x130` has a reserved bit set. -/
theorem test_decode_illegal : decode 0x00000003#32 = .error .opcodeNotListed ∧
    decode 0x00000130#32 = .error .reservedBitsSet ∧ decode 0x000000FF#32 = .error .opcodeNotListed := by
  decide

/-! ## States -/

/-- Reset with `C = 2`, `LMAX = 16`, `BMAX = 18`, as `95_test_vectors.md` Part 3 allows. -/
def base : State := State.resetWith ⟨2, 16, 18⟩

/-- The parameters of K1 (`95_test_vectors.md`). -/
def k1Params : ParamSet :=
  ⟨0x3F800000#32, 0x3F800000#32, 0x3F000000#32, 0x3F800000#32, 0x3F800000#32, 4, 0x14#32⟩

/-- Consecutive words from an address on. -/
def words : Nat → List Word → Memory
  | _, [] => []
  | a, v :: vs => (a, v) :: words (a + 1) vs

/-- The falling table of K1: 0, −0.25, −0.5, −0.75, −1.0, the zero negative. -/
def fallingTable : List Word := [0x80000000#32, 0xBE800000#32, 0xBF000000#32, 0xBF400000#32, 0xBF800000#32]

/-- The tables of K1. -/
def k1Tables : Memory :=
  words 0x400000 [0x00000000#32, 0x3E800000#32, 0x3F000000#32, 0x3F400000#32, 0x3F800000#32]
    ++ words 0x500000 fallingTable ++ words 0x600000 fallingTable

/-- The source 1.0 .. 8.0. -/
def sourceWords : Memory :=
  words 0x700000 [0x3F800000#32, 0x40000000#32, 0x40400000#32, 0x40800000#32, 0x40A00000#32, 0x40C00000#32,
    0x40E00000#32, 0x41000000#32]

/-- K1 configured and Idle. -/
def k1 : State :=
  { base with
    staging := { Staging.reset with params := k1Params, srHi := 0x40100000#32 }
    active := ⟨k1Params, 0x4010000000000000#64, ⟨1, 1, 1⟩, true, true, true⟩
    ram := k1Tables }

/-- K1 in Sustain at 0.5. -/
def k1Sustain : State :=
  { k1 with env := ⟨.sustain, 0x3F000000#32, ⟨⟨0, 3, 0x3E800000#32⟩, ⟨0, 3, 0xBE000000#32⟩, ⟨0, 0, 0⟩⟩, 0⟩ }

/-- A ring over the source 1.0 .. 8.0 with `TRIG = 4.0`. -/
def ring (acc : Word) (head tail count : Nat) (cur : List Nat) : Grain :=
  ⟨8, 0x3F800000#32, 0x3F800000#32, 0x40800000#32, acc, head, tail, count, cur⟩

/-- The scheduler of T5 with a given ring, unconfigured envelope. -/
def playing (g : Grain) : State := { base with ram := sourceWords, grain := g }

/-- The state after a command; none if it stops. -/
def run (i : Instr) (s : State) : Option State :=
  match exec i s with
  | .next t => some t
  | .fault _ => none
  | .refused _ => none

/-- The state after one host input; none if the machine stops. -/
def did (x : HostInput) (s : State) : Option State :=
  match step { s with pending := [x] } with
  | .next t => some t
  | .fault _ => none
  | .refused _ => none

/-- `STATUS` as a host reads it. -/
def status (t : State) : Nat := (statusWord t).toNat

/-! ## One step per instruction -/

/-- R190. -/
theorem test_nop : run .nop k1Sustain = some { k1Sustain with response := some ⟨true, 0⟩ } := by decide +kernel

/-- R191, R231. -/
theorem test_reset : (run .reset { k1Sustain with error := ⟨true, .eRo⟩ }).map
    (fun t => (status t, t.staging.params.shape, t.grain.trig, t.ram == k1Tables)) =
      some (0, 0x14#32, 0x7F800000#32, true) := by decide +kernel

/-- P4 line 13. -/
theorem test_clrErr : (run .clrErr { base with error := ⟨true, .eMaxamp⟩ }).map (fun t => (status t, errcodeWord t)) =
    some (0, 0) := by decide +kernel

/-- T4: K1 only, from reset. -/
theorem test_setParams_stored : (run .setParams { base with staging := k1.staging }).map
    (fun t => (status t, t.ram)) = some (0x10, []) := by decide +kernel

/-- T4: `P_RES = 1` and a negative attack, first in order. -/
theorem test_setParams_res_first : (run .setParams { base with
    staging := { Staging.reset with params := { k1Params with res := 1, attack := 0xBF800000#32 } } }).map
    (fun t => (status t, errcodeWord t, t.active.paramsValid)) = some (0x80, 1, false) := by decide +kernel

/-- T4: K1 active, `P_ATTACK = 2.0`; `ARG0 = 5.0` is ignored (R21, R91). -/
theorem test_setAttack : (run .setAttack { k1 with
    args := ⟨0x40A00000#32, 0⟩
    staging := { k1.staging with params := { k1Params with attack := 0x40000000#32 } } }).map
    (fun t => (t.active.steps.attack, t.tab .attack 1, t.tab .attack 4, t.tab .decay 4)) =
      some (2, 0x3E000000#32, 0x3F000000#32, 0xBF800000#32) := by decide +kernel

/-- R183's row as written, on K1 with `P_ATTACK = 2.0` staged: by R21 and R91 `SET_ATTACK` ignores `ARG0 = 5.0`. -/
theorem test_setterRow : (match runSteps 2 { k1 with
      staging := { k1.staging with params := { k1Params with attack := 0x40000000#32 } }
      pending := HostProgram.setterRow .setAttack 0x40A00000#32 } with
    | .next t => some (t.args.arg0, t.active.params.attack, t.active.steps.attack)
    | _ => none) = some (0x40A00000#32, 0x40000000#32, 2) := by decide +kernel

/-- `setAttack(2.0)` on K1: R183's transactions with R98's write of `P_ATTACK`; `STEP_A = 2` by T4. -/
theorem test_setterOperation : (match runSteps 3 { k1 with
      pending := HostProgram.setterOperation .pAttack .setAttack 0x40000000#32 } with
    | .next t => some (t.args.arg0, t.active.params.attack, t.active.steps.attack)
    | _ => none) = some (0x40000000#32, 0x40000000#32, 2) := by decide +kernel

/-- T4: from reset. -/
theorem test_setAttack_unconfigured : (run .setAttack { base with staging := k1.staging }).map errcodeWord = some 8 := by
  decide +kernel

/-- R118 with T4's `P_DECAY = −1.0`. -/
theorem test_setDecay_negative : (run .setDecay { k1Sustain with
    staging := { k1.staging with params := { k1Params with decay := 0xBF800000#32 } } }).map
    (fun t => (errcodeWord t, t.env == k1Sustain.env)) = some (3, true) := by decide +kernel

/-- R118, R110: `P_DECAY = 2.0` gives `STEP_D = 2`; −1.0 / 2 = −0.5. -/
theorem test_setDecay : (run .setDecay { k1 with
    staging := { k1.staging with params := { k1Params with decay := 0x40000000#32 } } }).map
    (fun t => (t.active.steps, t.tab .decay 4)) = some (⟨1, 2, 1⟩, 0xBF000000#32) := by decide +kernel

/-- T4: in Sustain, `P_SUSTAIN = 0.25`. -/
theorem test_setSustain : (run .setSustain { k1Sustain with
    staging := { k1.staging with params := { k1Params with sustain := 0x3E800000#32 } } }).map
    (fun t => (t.active.params.sustain, status t, t.env.amp)) = some (0x3E800000#32, 0x70, 0) := by decide +kernel

/-- T4: `P_SUSTAIN = 1.5`, the note plays on. -/
theorem test_setSustain_above_maxamp : (run .setSustain { k1Sustain with
    staging := { k1.staging with params := { k1Params with sustain := 0x3FC00000#32 } } }).map
    (fun t => (errcodeWord t, status t)) = some (5, 0xFB) := by decide +kernel

/-- R120, R110: `P_RELEASE = 2.0` gives `STEP_R = 2`; −0.25 / 2 = −0.125. -/
theorem test_setRelease : (run .setRelease { k1 with
    staging := { k1.staging with params := { k1Params with release := 0x40000000#32 } } }).map
    (fun t => (t.active.steps, t.tab .release 1)) = some (⟨1, 1, 2⟩, 0xBE000000#32) := by decide +kernel

/-- P1 line 11. -/
theorem test_setSampleRate : (run .setSampleRate { base with
    staging := k1.staging, active := { Active.reset with params := k1Params, paramsValid := true } }).map
    (fun t => (status t, t.active.steps, t.ram == k1Tables)) = some (0x70, ⟨1, 1, 1⟩, true) := by decide +kernel

/-- T4: `P_SR = 1e10` with K1's resolution 2 of T2. -/
theorem test_setSampleRate_overflow : (run .setSampleRate { base with
    staging := { k1.staging with srLo := 0x20000000#32, srHi := 0x4202A05F#32 }
    active := { Active.reset with params := { k1Params with res := 2 }, paramsValid := true } }).map
    (fun t => (errcodeWord t, t.active.srValid)) = some (7, false) := by decide +kernel

/-- T15: `P_SRC_LEN = LMAX` in mid-play. -/
theorem test_loadSource : (run .loadSource { playing (ring 0x40000000#32 0 0 2 [6, 2]) with
    staging := { Staging.reset with srcLen := 16, grainHz := 0x3F800000#32 } }).map (fun t => t.grain) =
      some ⟨16, 0x3F800000#32, 0, 0x7F800000#32, 0, 0, 0, 0, [0, 0]⟩ := by decide +kernel

/-- T15: `P_SRC_LEN = LMAX + 1`. -/
theorem test_loadSource_too_long : (run .loadSource { base with
    staging := { Staging.reset with srcLen := 17 } }).map (fun t => (errcodeWord t, t.grain == base.grain)) =
      some (10, true) := by decide +kernel

/-- T14: `L = 4`, 1.25 Hz, 1.0 Hz: `TRIG = 2.5`. -/
theorem test_setFreq : (run .setFreq { base with
    args := ⟨0x3F800000#32, 0⟩, grain := { base.grain with len := 4, hz := 0x3FA00000#32 } }).map
    (fun t => (t.grain.freq, t.grain.trig)) = some (0x3F800000#32, 0x40200000#32) := by decide +kernel

/-- T15: `ARG0 = −0.0`. -/
theorem test_setFreq_zero : (run .setFreq { base with args := ⟨0x80000000#32, 0⟩ }).map
    (fun t => (errcodeWord t, t.grain.trig)) = some (9, 0x7F800000#32) := by decide +kernel

/-- T11, retrigger: the amplitude is kept. -/
theorem test_noteOn_retrigger : (run .noteOn { k1Sustain with args := ⟨0x3E800000#32, 0⟩ }).map
    (fun t => (t.env.stage, t.env.amp, t.env.segs.attack, t.noteAmp)) =
      some (.attack, 0x3F000000#32, ⟨0, 0, 0x3E800000#32⟩, 0x3E800000#32) := by decide +kernel

/-- T11: not configured. -/
theorem test_noteOn_unconfigured : (run .noteOn { base with args := ⟨0x3F800000#32, 0⟩ }).map
    (fun t => (errcodeWord t, t.noteAmp)) = some (8, 0) := by decide +kernel

/-- T1 `NOTE_OFF`. -/
theorem test_noteOff : (run .noteOff k1Sustain).map (fun t => (t.env.stage, t.env.relStart, t.env.segs.release)) =
    some (.release, 0x3F000000#32, ⟨0, 0, 0xBE000000#32⟩) := by decide +kernel

/-- T11, `NOTE_OFF` in Idle. -/
theorem test_noteOff_idle : run .noteOff k1 = some { k1 with response := some ⟨true, 0⟩ } := by decide +kernel

/-- T1 call 5: Attack at `MAXAMP` enters Decay and takes its first step. -/
theorem test_envTick_attack_to_decay : (run .envTick { k1 with
    env := ⟨.attack, 0x3F800000#32, ⟨⟨0, 3, 0x3E800000#32⟩, ⟨0, 0, 0⟩, ⟨0, 0, 0⟩⟩, 0⟩ }).map
    (fun t => (t.results.env, t.env.stage, t.env.segs.decay)) =
      some (0x3F600000#32, .decay, ⟨0, 1, 0xBE000000#32⟩) := by decide +kernel

/-- T1 call 15: exactly `+0.0` with Idle in the same call. -/
theorem test_envTick_release_ends : (run .envTick { k1 with
    env := ⟨.release, 0x3E000000#32, ⟨⟨0, 3, 0⟩, ⟨0, 3, 0⟩, ⟨0, 3, 0xBE000000#32⟩⟩, 0x3F000000#32⟩ }).map
    (fun t => (t.results.env, t.env.amp, t.env.stage, t.env.segs.release)) =
      some (0, 0, .idle, ⟨0, 3, 0xBE000000#32⟩) := by decide +kernel

/-- T5 (a) call 8: the trigger is dropped, then the first grain retires. -/
theorem test_grTick_drop_and_retire : (run .grTick (playing (ring 0x40800000#32 0 0 2 [7, 4]))).map
    (fun t => (t.results.gr, t.grain)) = some (0x41500000#32, ring 0x40A00000#32 1 0 1 [8, 5]) := by decide +kernel

/-- T5 (a) call 9: the dropped trigger is retried into the freed slot. -/
theorem test_grTick_push : (run .grTick (playing (ring 0x40A00000#32 1 0 1 [8, 5]))).map
    (fun t => (t.results.gr, t.grain)) = some (0x40E00000#32, ring 0x40000000#32 1 1 2 [1, 6]) := by decide +kernel

/-- T16, Idle: the scheduler is not advanced. -/
theorem test_voiceTick_idle : (run .voiceTick { playing (ring 0x40800000#32 0 0 2 [7, 4]) with
    results := ⟨1, 2, 3⟩ }).map (fun t => (t.results, t.grain)) =
      some (⟨0, 2, 0⟩, ring 0x40800000#32 0 0 2 [7, 4]) := by decide +kernel

/-- P2 line 30, element 8: `e = 0.5`, `g = 6`, `NOTE_AMP = 0.5`. -/
theorem test_voiceTick : (run .voiceTick { k1Sustain with
    ram := k1Tables ++ sourceWords, grain := ring 0x40800000#32 0 1 1 [4, 0], noteAmp := 0x3F000000#32 }).map
    (fun t => (t.results, t.grain)) =
      some (⟨0x3F000000#32, 0x40C00000#32, 0x3FC00000#32⟩, ring 0x3F800000#32 0 0 2 [5, 1]) := by decide +kernel

/-- T9 (Scenario C). -/
theorem test_envApply_idle : (run .envApply { base with
    args := ⟨0, 4⟩
    ram := words 0x800000 [0x40400000#32, 0xC0000000#32, 0x7FC00000#32, 0x7F800000#32, 0x3F800000#32] }).map
    (fun t => t.ram) = some (words 0x800000 [0, 0, 0, 0, 0x3F800000#32]) := by decide +kernel

/-- P3 line 10: Release ends on element 1, the rest is met in Idle. -/
theorem test_envApply_release : (run .envApply { base with
    args := ⟨0, 3⟩
    active := ⟨⟨0, 0, 0x3F000000#32, 0x3F000000#32, 0x3F800000#32, 2, 0x14#32⟩, 0x4010000000000000#64, ⟨1, 1, 1⟩,
      true, true, true⟩
    env := ⟨.release, 0x3F000000#32, ⟨⟨0, 0, 0⟩, ⟨0, 0, 0⟩, ⟨0, 0, 0xBE800000#32⟩⟩, 0x3F000000#32⟩
    ram := words 0x600000 [0x80000000#32, 0xBF000000#32, 0xBF800000#32]
      ++ words 0x800000 [0x3F800000#32, 0xBF800000#32, 0x7F800000#32] }).map
    (fun t => (t.buf 0, t.buf 1, t.buf 2, t.env.stage, t.env.segs.release)) =
      some (0x3E800000#32, 0x80000000#32, 0, .idle, ⟨0, 1, 0xBE800000#32⟩) := by decide +kernel

/-- P2 line 34, elements 12 and 13: `e = 0.375, 0.25`, `g = 6, 8`, `NOTE_AMP = 0.5`. -/
theorem test_voiceFill : (run .voiceFill { k1 with
    args := ⟨12, 2⟩
    env := ⟨.release, 0x3F000000#32, ⟨⟨0, 3, 0⟩, ⟨0, 3, 0⟩, ⟨0, 0, 0xBE000000#32⟩⟩, 0x3F000000#32⟩
    ram := k1Tables ++ sourceWords, grain := ring 0x40800000#32 1 0 1 [8, 4], noteAmp := 0x3F000000#32 }).map
    (fun t => (t.buf 12, t.buf 13, t.grain)) =
      some (0x3F900000#32, 0x3F800000#32, ring 0x40000000#32 1 1 2 [2, 6]) := by decide +kernel

/-- T16: no wrap-around in `start + n`. -/
theorem test_voiceFill_range : (run .voiceFill { base with args := ⟨0xFFFFFFFF#32, 2⟩ }).map
    (fun t => (errcodeWord t, t.ram)) = some (11, []) := by decide +kernel

/-! ## Numbers, tables, bus -/

/-- T2. -/
theorem test_stepRate : stepRate 0x40E5888000000000#64 256 0x3DCCCCCD#32 = some 17 ∧
    stepRate 0x40E7700000000000#64 1024 0x3F000000#32 = some 23 ∧
    stepRate 0x4202A05F20000000#64 2 0x3F800000#32 = none := by decide +kernel

/-- T3, `R = 3`: rounding to nearest. -/
theorem test_rawShape_thirds :
    rawShape { k1Params with res := 3 } (fun _ _ => 0) .attack 1 = 0x3EAAAAAB#32 ∧
    rawShape { k1Params with res := 3 } (fun _ _ => 0) .decay 2 = 0xBF2AAAAB#32 := by decide +kernel

/-- T8 ticks 2 to 4. -/
theorem test_add32_rounds : add32 0x3EAAAAAB#32 0x3EAAAAAA#32 = 0x3F2AAAAA#32 ∧
    add32 0x3F2AAAAA#32 0x3EAAAAAA#32 = 0x3F7FFFFF#32 ∧ add32 0x3F7FFFFF#32 0x3EAAAAAA#32 = 0x3FAAAAAA#32 := by
  decide +kernel

/-- R9, ties to even: `1 + 2^−24` and `(1 + 2^−23) + 2^−24` lie half way between two numbers, and so does the overflow
bound, half a step above the greatest finite number. -/
theorem test_add32_ties_to_even : add32 0x3F800000#32 0x33800000#32 = 0x3F800000#32 ∧
    add32 0x3F800001#32 0x33800000#32 = 0x3F800002#32 ∧ add32 0x7F7FFFFF#32 0x73000000#32 = 0x7F800000#32 ∧
    add32 0x7F7FFFFF#32 0x72FFFFFF#32 = 0x7F7FFFFF#32 := by decide +kernel

/-- T15, `trig_of`. -/
theorem test_trigOf : trigOf 8 0xBF800000#32 0x3F800000#32 = 0xC0800000#32 ∧
    trigOf 0 0x7F800000#32 0x3F800000#32 = 0x7FC00000#32 ∧ trigOf 0 0x3F800000#32 0x3F800000#32 = 0 := by decide +kernel

/-- T17. -/
theorem test_bus_read : (did (.read 0x000016#24) base).map (fun t => t.response) = some (some ⟨true, 0x14#32⟩) ∧
    (did (.read 0x000032#24) base).map (fun t => (t.response, errcodeWord t)) = some (some ⟨false, 0⟩, 13) := by
  decide +kernel

/-- T17. -/
theorem test_bus_write : (did (.write 0x000004#24 0xDEADBEEF#32) base).map (fun t => t.args.arg0) = some 0xDEADBEEF#32 ∧
    (did (.write 0x400000#24 0) base).map errcodeWord = some 14 ∧
    (did (.write 0x700010#24 0) base).map errcodeWord = some 13 ∧
    (did (.write 0x000000#24 0x130#32) base).map errcodeWord = some 12 := by decide +kernel

/-- R43, the `holds` column: `P_DECAY` at `0x11`, `A_SUSTAIN` at `0x22`, `A_SR_HI` at `0x28`. -/
theorem test_bus_registers : (did (.write 0x000011#24 7) base).map (fun t => t.staging.params.decay) = some 7 ∧
    (did (.read 0x000022#24) k1).map (fun t => t.response) = some (some ⟨true, 0x3F000000#32⟩) ∧
    (did (.read 0x000028#24) k1).map (fun t => t.response) = some (some ⟨true, 0x40100000#32⟩) := by decide +kernel

/-- The word given to `withFetchWord` is run by the very next step, from `State.reset` itself (log 2). -/
theorem test_withFetchWord : step (State.withFetchWord State.reset 32 0x02) = exec .clrErr State.reset := rfl

/-! ## Witnesses: states and operands that meet the hypotheses of each statement, every clause at the edges of its range -/

/-- `s` with one host input pending and a `READ` of `CAP` after it. -/
def hosted (x : HostInput) (s : State) : State := { s with pending := [x, .read 0x000003#24] }

/-- K1 in Attack at 1.0, its own maximum. -/
def k1AttackTop : State :=
  { k1 with env := ⟨.attack, 0x3F800000#32, ⟨⟨0, 3, 0x3E800000#32⟩, ⟨0, 0, 0⟩, ⟨0, 0, 0⟩⟩, 0⟩ }

/-- K1 with parameters replaced, in Attack at 1.0. -/
def attackTopWith (p : ParamSet) : State :=
  { k1AttackTop with active := { k1AttackTop.active with params := p } }

/-- K1 in Decay or Release at an amplitude. -/
def k1At (g : Stage) (amp : Word) : State :=
  { k1 with env := ⟨g, amp, ⟨⟨0, 3, 0⟩, ⟨0, 3, 0xBE000000#32⟩, ⟨0, 3, 0xBE000000#32⟩⟩, 0x3F000000#32⟩ }

/-- Both halves staged, none active. -/
def staged : State := { base with staging := k1.staging }

theorem stepRates_k1 : stepRates k1.active.sr k1Params = some ⟨1, 1, 1⟩ := by decide +kernel

theorem sound_base : Sound base where
  par := by decide
  ram := by decide
  config := ⟨by decide, nofun, nofun, nofun⟩
  env := EnvInv.reset _ nofun
  ring := RingInv.reset (p := ⟨2, 16, 18⟩) (by decide)

theorem configInv_k1 : ConfigInv k1.active where
  cfgValid_eq := by decide
  params_valid := fun _ => by decide +kernel
  sr_valid := fun _ => by decide +kernel
  steps_eq := fun _ => stepRates_k1

theorem sound_k1 : Sound k1 where
  par := by decide
  ram := by decide
  config := configInv_k1
  env := EnvInv.reset _ fun _ g => by cases g <;> decide
  ring := RingInv.reset (p := ⟨2, 16, 18⟩) (by decide)

theorem sound_k1Sustain : Sound k1Sustain where
  par := by decide
  ram := by decide
  config := configInv_k1
  env := ⟨nofun, fun _ => by decide, fun _ g => by cases g <;> decide, fun _ g => by cases g <;> decide⟩
  ring := RingInv.reset (p := ⟨2, 16, 18⟩) (by decide)

theorem tablesBuilt_k1 : TablesBuilt k1 := by
  have h : ∀ g ∈ [Segment.attack, .decay, .release], ∀ i ∈ List.range 5,
      k1.tab g i = tableEntry k1.active.params (fun _ _ => 0) k1.active.steps g i := by decide +kernel
  intro _ g i hi _
  have hi' : i ≤ 4 := hi
  exact h g (by cases g <;> decide) i (List.mem_range.mpr (by omega))

theorem ringInv_t12 : RingInv ⟨2, 16, 18⟩ (ring 0x40800000#32 1 0 1 [8, 4]) where
  len_le := by decide
  slots := by decide
  cur_le := by decide
  head_lt := by decide
  count_le := by decide
  tail_eq := by decide
  oldest_first := by decide
  in_source := by decide
  started := by decide

theorem witness_StepRunsDecodedCommand : ∃ (s : State) (w : Word) (rest : List HostInput) (i : Instr),
    s.pending = .write 0x000000#24 w :: rest ∧ decode w = .ok i :=
  ⟨hosted (.write 0x000000#24 0x39#32) base, 0x39#32, _, .voiceFill, rfl, by decide⟩

theorem witness_IllegalCommandWordRejected : ∀ w ∈ [0x100#32, 0xFFFFFF00#32, 0x03#32, 0x0F#32, 0x16#32, 0x17#32,
    0x1A#32, 0x1F#32, 0x22#32, 0x2F#32, 0x33#32, 0x37#32, 0x3A#32, 0xFF#32],
    (hosted (.write 0x000000#24 w) base).pending = .write 0x000000#24 w :: [.read 0x000003#24] ∧
    (w.toNat / 256 ≠ 0 ∨
      (0x03 ≤ w.toNat % 256 ∧ w.toNat % 256 ≤ 0x0F) ∨ w.toNat % 256 = 0x16 ∨ w.toNat % 256 = 0x17 ∨
      (0x1A ≤ w.toNat % 256 ∧ w.toNat % 256 ≤ 0x1F) ∨ (0x22 ≤ w.toNat % 256 ∧ w.toNat % 256 ≤ 0x2F) ∨
      (0x33 ≤ w.toNat % 256 ∧ w.toNat % 256 ≤ 0x37) ∨ 0x3A ≤ w.toNat % 256) := by
  intro w hw
  refine ⟨rfl, ?_⟩
  simp only [List.mem_cons, List.not_mem_nil, or_false] at hw
  rcases hw with rfl | rfl | rfl | rfl | rfl | rfl | rfl | rfl | rfl | rfl | rfl | rfl | rfl | rfl <;> simp

/-- The first and the last word of every RAM region. -/
def edgeWords : List (Region × Nat) :=
  [(.raw .attack, 0), (.raw .release, 4096), (.tab .attack, 0), (.tab .release, 4096), (.src, 0), (.src, 15), (.buf, 0),
    (.buf, 17)]

theorem witness_ReadReturnsValueAndChangesNothing :
    (∀ off ∈ [0x00, 0x0E, 0x10, 0x1A, 0x20, 0x31], (hosted (.read (BitVec.ofNat 24 off)) base).pending =
      .read (BitVec.ofNat 24 off) :: [.read 0x000003#24]) ∧
    (∀ r ∈ [Reg.cmd, .lmax, .bmax], (hosted (.read (BitVec.ofNat 24 r.offset)) base).pending =
      .read (BitVec.ofNat 24 r.offset) :: [.read 0x000003#24]) ∧
    base.par.wellFormed = true ∧ (∀ x ∈ edgeWords, x.2 < x.1.size base.par ∧
      (hosted (.read (BitVec.ofNat 24 (ramAddr x.1 x.2))) base).pending =
        .read (BitVec.ofNat 24 (ramAddr x.1 x.2)) :: [.read 0x000003#24]) := by
  have h : ∀ x ∈ edgeWords, x.2 < x.1.size base.par := by decide
  exact ⟨fun _ _ => rfl, fun _ _ => rfl, by decide, fun x hx => ⟨h x hx, rfl⟩⟩

theorem witness_WriteStoresRegister :
    (∀ r ∈ [Reg.arg0, .arg1, .pAttack, .pGrainHz], r.access = .readWrite ∧
      (hosted (.write (BitVec.ofNat 24 r.offset) 0xFFFFFFFF#32) base).pending =
        .write (BitVec.ofNat 24 r.offset) 0xFFFFFFFF#32 :: [.read 0x000003#24]) ∧
    (∀ off ∈ [0x04, 0x05, 0x10, 0x1A], (hosted (.write (BitVec.ofNat 24 off) 0xFFFFFFFF#32) base).pending =
      .write (BitVec.ofNat 24 off) 0xFFFFFFFF#32 :: [.read 0x000003#24]) :=
  ⟨by decide +kernel, fun _ _ => rfl⟩

theorem witness_WriteStoresRamWord : base.par.wellFormed = true ∧
    ∀ x ∈ edgeWords.filter (·.1.hostWritable), (∀ g, x.1 ≠ .tab g) ∧ x.2 < x.1.size base.par ∧
      (hosted (.write (BitVec.ofNat 24 (ramAddr x.1 x.2)) 7) base).pending =
        .write (BitVec.ofNat 24 (ramAddr x.1 x.2)) 7 :: [.read 0x000003#24] := by
  refine ⟨by decide, fun x hx => ⟨?_, ?_⟩⟩
  · intro g hg
    have h : ∀ x ∈ edgeWords.filter (·.1.hostWritable), x.1.hostWritable = true := by decide
    have := h x hx
    rw [hg] at this
    cases this
  · revert x
    decide

theorem witness_ReadAfterWriteReturnsWord :
    (∃ s : State, Reg.access .pGrainHz = .readWrite ∧ s.pending = .write (BitVec.ofNat 24 (Reg.offset .pGrainHz)) 7 ::
      .read (BitVec.ofNat 24 (Reg.offset .pGrainHz)) :: []) ∧
    (∃ s : State, s.par.wellFormed = true ∧ (∀ g, Region.buf ≠ .tab g) ∧ 17 < Region.buf.size s.par ∧
      s.pending = .write (BitVec.ofNat 24 (ramAddr .buf 17)) 7 :: .read (BitVec.ofNat 24 (ramAddr .buf 17)) :: []) :=
  ⟨⟨{ base with pending := _ }, rfl, rfl⟩, ⟨{ base with pending := _ }, by decide, nofun, by decide, rfl⟩⟩

theorem witness_ReadOnlyWriteRejected :
    (∀ r ∈ [Reg.status, .bmax], r.access = .readOnly ∧
      (hosted (.write (BitVec.ofNat 24 r.offset) 0) base).pending =
        .write (BitVec.ofNat 24 r.offset) 0 :: [.read 0x000003#24]) ∧
    (∀ i ∈ [0, 4096], i ≤ 4096 ∧ (hosted (.write (BitVec.ofNat 24 (ramAddr (.tab .release) i)) 0) base).pending =
      .write (BitVec.ofNat 24 (ramAddr (.tab .release) i)) 0 :: [.read 0x000003#24]) ∧
    (hosted (.read 0x000000#24) base).pending = .read 0x000000#24 :: [.read 0x000003#24] := by decide +kernel

theorem witness_UnmappedAccessRejected : ∀ a ∈ [0x900000#24, 0xFFFFFF#24, 0x101001#24, 0x6FFFFF#24, 0x700010#24,
    0x7FFFFF#24, 0x800012#24, 0x8FFFFF#24, 0x00000F#24, 0x00001B#24, 0x00001F#24, 0x000032#24, 0x0FFFFF#24],
    (9 ≤ a.toNat / 2 ^ 20 ∨
      (1 ≤ a.toNat / 2 ^ 20 ∧ a.toNat / 2 ^ 20 ≤ 6 ∧ 4097 ≤ a.toNat % 2 ^ 20) ∨
      (a.toNat / 2 ^ 20 = 7 ∧ base.par.lmax ≤ a.toNat % 2 ^ 20) ∨
      (a.toNat / 2 ^ 20 = 8 ∧ base.par.bmax ≤ a.toNat % 2 ^ 20) ∨
      (a.toNat / 2 ^ 20 = 0 ∧ (a.toNat % 2 ^ 20 = 0x0F ∨
        (0x1B ≤ a.toNat % 2 ^ 20 ∧ a.toNat % 2 ^ 20 ≤ 0x1F) ∨ 0x32 ≤ a.toNat % 2 ^ 20))) ∧
    (hosted (.read a) base).pending = .read a :: [.read 0x000003#24] ∧
    (hosted (.write a 1) base).pending = .write a 1 :: [.read 0x000003#24] := by
  intro a ha
  refine ⟨?_, rfl, rfl⟩
  have h1 : base.par.lmax = 16 := rfl
  have h2 : base.par.bmax = 18 := rfl
  rw [h1, h2]
  simp only [List.mem_cons, List.not_mem_nil, or_false] at ha
  rcases ha with rfl | rfl | rfl | rfl | rfl | rfl | rfl | rfl | rfl | rfl | rfl | rfl | rfl <;> simp

theorem witness_HardwareResetState :
    (hosted .hardReset k1Sustain).pending = .hardReset :: [.read 0x000003#24] := rfl

theorem witness_SetParamsCommitsStaging :
    validate base.staging.params = some .eRes ∧
    (validate staged.staging.params = none ∧ staged.active.srValid = false) ∧
    (validate k1.staging.params = none ∧ k1.active.srValid = true ∧
      stepRates k1.active.sr k1.staging.params = some ⟨1, 1, 1⟩) ∧
    (validate k1.staging.params = none ∧ ({ k1.active with sr := 0x4202A05F20000000#64 } : Active).srValid = true ∧
      stepRates 0x4202A05F20000000#64 k1.staging.params = none) := by decide +kernel

/-- K1's parameters active, no sample rate accepted yet. -/
def k1Stored : State := { base with
  staging := { Staging.reset with params := k1Params }
  active := { Active.reset with params := k1Params, paramsValid := true } }

/-- K1 active with one staged field replaced. -/
def restaged (f : ParamSet → ParamSet) : State := { k1 with staging := { k1.staging with params := f k1Params } }

theorem witness_FieldSettersCommitOneField :
    base.active.paramsValid = false ∧ k1.active.paramsValid = true ∧
    (validate (candidateAttack (restaged fun p => { p with attack := 0xBF800000#32 })) = some .eDuration ∧
      validate (candidateDecay (restaged fun p => { p with decay := 0x7F800000#32 })) = some .eDuration ∧
      validate (candidateSustain (restaged fun p => { p with sustain := 0x3FC00000#32 })) = some .eSustain ∧
      validate (candidateRelease (restaged fun p => { p with release := 0x7FC00000#32 })) = some .eDuration) ∧
    (validate (candidateAttack (restaged fun p => { p with attack := 0x50000000#32 })) = none ∧
      stepRates k1.active.sr (candidateAttack (restaged fun p => { p with attack := 0x50000000#32 })) = none ∧
      stepRates k1.active.sr (candidateDecay (restaged fun p => { p with decay := 0x50000000#32 })) = none ∧
      stepRates k1.active.sr (candidateRelease (restaged fun p => { p with release := 0x50000000#32 })) = none) ∧
    (stepRates k1.active.sr (candidateAttack k1) = some ⟨1, 1, 1⟩ ∧
      stepRates k1.active.sr (candidateDecay k1) = some ⟨1, 1, 1⟩ ∧
      stepRates k1.active.sr (candidateSustain k1) = some ⟨1, 1, 1⟩ ∧
      stepRates k1.active.sr (candidateRelease k1) = some ⟨1, 1, 1⟩) ∧
    (k1Stored.active.paramsValid = true ∧ k1Stored.active.srValid = false ∧
      validate (candidateAttack k1Stored) = none ∧ validate (candidateDecay k1Stored) = none ∧
      validate (candidateSustain k1Stored) = none ∧ validate (candidateRelease k1Stored) = none) := by decide +kernel

theorem witness_SetSampleRateCommits :
    (k1.staging.srHi ++ k1.staging.srLo = 0x4010000000000000#64) ∧
    (finite64 0x7FF0000000000000#64 = false ∧ gt64 0x0000000000000000#64 0 = false) ∧
    (finite64 0x4202A05F20000000#64 = true ∧ gt64 0x4202A05F20000000#64 0 = true ∧ k1.active.paramsValid = true ∧
      stepRates 0x4202A05F20000000#64 k1.active.params = none) ∧
    (finite64 0x0000000000000001#64 = true ∧ gt64 0x0000000000000001#64 0 = true ∧ base.active.paramsValid = false) ∧
    (finite64 0x4010000000000000#64 = true ∧ gt64 0x4010000000000000#64 0 = true ∧
      stepRates 0x4010000000000000#64 k1.active.params = some ⟨1, 1, 1⟩) := by decide +kernel

theorem witness_IntegerRegistersShowTheirElements : Sound k1 ∧ k1.active.cfgValid = true := ⟨sound_k1, rfl⟩

/-- `x4` of R110. -/
def x4 (sr : DWord) (res : Nat) (sec : Word) : DWord :=
  max64 (div64 (max64 (mul64 sr (cvt64 sec)) 0x3FF0000000000000#64) (nat64 res)) 0x3FF0000000000000#64

/-- Every clause at the edges: the least and the greatest sample rate and duration, `x1` overflowing, `x4` at `2^31`
exactly and just below it, both zeros. -/
theorem witness_StepRateFollowsTheRule :
    (finite64 0x0000000000000001#64 = true ∧ gt64 0x0000000000000001#64 0 = true ∧
      finite64 0x7FEFFFFFFFFFFFFF#64 = true ∧ gt64 0x7FEFFFFFFFFFFFFF#64 0 = true ∧
      finite64 0x41F0000000000000#64 = true ∧ gt64 0x41F0000000000000#64 0 = true ∧
      finite64 0x41EFFFFFFFFFFFFF#64 = true ∧ gt64 0x41EFFFFFFFFFFFFF#64 0 = true) ∧
    (finite32 0x7F7FFFFF#32 = true ∧ ge32 0x7F7FFFFF#32 0 = true ∧ finite32 0x80000000#32 = true ∧
      ge32 0x80000000#32 0 = true ∧ finite32 0x3F800000#32 = true ∧ ge32 0x3F800000#32 0 = true) ∧
    ((2 ≤ 2 ∧ 2 ≤ 4096) ∧ (2 ≤ 4096 ∧ 4096 ≤ 4096)) ∧
    finite64 (x4 0x7FEFFFFFFFFFFFFF#64 2 0x7F7FFFFF#32) = false ∧
    ge64 (x4 0x41F0000000000000#64 2 0x3F800000#32) 0x41E0000000000000#64 = true ∧
    (finite64 (x4 0x41EFFFFFFFFFFFFF#64 2 0x3F800000#32) = true ∧
      ge64 (x4 0x41EFFFFFFFFFFFFF#64 2 0x3F800000#32) 0x41E0000000000000#64 = false) ∧
    (finite64 (x4 0x0000000000000001#64 4096 0x80000000#32) = true ∧
      ge64 (x4 0x0000000000000001#64 4096 0x80000000#32) 0x41E0000000000000#64 = false) := by decide +kernel

theorem witness_TablesStayBuilt : ∃ t, Sound k1 ∧ TablesBuilt k1 ∧ step k1 = .next t := ⟨_, sound_k1, tablesBuilt_k1, rfl⟩

theorem witness_SetParamsIsIdempotent : Sound k1 ∧ TablesBuilt k1 ∧ k1.active.cfgValid = true ∧
    k1.staging.params = k1.active.params := ⟨sound_k1, tablesBuilt_k1, rfl, rfl⟩

theorem witness_ConfigurationOrderIrrelevant : staged.active.paramsValid = false ∧ staged.active.srValid = false ∧
    validate staged.staging.params = none ∧ finite64 (staged.staging.srHi ++ staged.staging.srLo) = true ∧
    gt64 (staged.staging.srHi ++ staged.staging.srLo) 0 = true ∧
    stepRates (staged.staging.srHi ++ staged.staging.srLo) staged.staging.params = some ⟨1, 1, 1⟩ := by decide +kernel

theorem witness_NoteOnEntersAStage : base.active.cfgValid = false ∧
    (k1.active.cfgValid = true ∧ gt32 k1.active.params.attack 0 = true) ∧
    (gt32 0x80000000#32 0 = false ∧ gt32 k1.active.params.decay 0 = true) ∧ gt32 0x00000001#32 0 = true := by
  decide +kernel

theorem witness_NoteOffReleases : k1.env.stage = .idle ∧
    (k1Sustain.env.stage ≠ .idle ∧ gt32 k1Sustain.active.params.release 0 = true) ∧ gt32 0x80000000#32 0 = false := by
  decide +kernel

theorem witness_EnvTickInIdleAndSustain : k1.env.stage = .idle ∧ k1Sustain.env.stage = .sustain := by decide

theorem witness_EnvTickInAttack :
    ((k1At .attack 0x3F7FFFFF#32).env.stage = .attack ∧
      ge32 (k1At .attack 0x3F7FFFFF#32).env.amp k1.active.params.maxamp = false) ∧
    (k1AttackTop.env.stage = .attack ∧ ge32 k1AttackTop.env.amp k1AttackTop.active.params.maxamp = true ∧
      le32 k1AttackTop.active.params.maxamp k1AttackTop.active.params.sustain = false) ∧
    (let s := attackTopWith { k1Params with sustain := 0x3F800000#32 }
     s.env.stage = .attack ∧ ge32 s.env.amp s.active.params.maxamp = true ∧
      le32 s.active.params.maxamp s.active.params.sustain = true) := by decide +kernel

theorem witness_EnvTickInDecay :
    ((k1At .decay 0x3F000000#32).env.stage = .decay ∧ le32 0x3F000000#32 k1.active.params.sustain = true) ∧
    ((k1At .decay 0x3F000001#32).env.stage = .decay ∧ le32 0x3F000001#32 k1.active.params.sustain = false) := by
  decide +kernel

/-- The clamped index of `k1At .release` recomputes the rate `(−1.0 − −0.75) × 0.5 = −0.125`. -/
theorem witness_EnvTickInRelease :
    (k1At .release 0x3E000000#32).env.stage = .release ∧
    segCount k1.tab k1.active .release (k1At .release 0x3E000000#32).env = ⟨0, 3, 0xBE000000#32⟩ ∧
    le32 (add32 0x3E000000#32 0xBE000000#32) 0 = true ∧ le32 (add32 0x3F000000#32 0xBE000000#32) 0 = false := by
  decide +kernel

theorem witness_SustainHoldsUntilNoteOff : k1Sustain.env.stage = .sustain := rfl

theorem witness_StageChangesOnlyByTheTable :
    (∃ (t : State) (rest : List HostInput), (hosted .hardReset k1Sustain).pending = .hardReset :: rest ∧
      step (hosted .hardReset k1Sustain) = .next t ∧ t.env.stage ≠ k1Sustain.env.stage) ∧
    (∃ (t : State) (rest : List HostInput), (hosted (.write 0x000000#24 0x21#32) k1Sustain).pending =
        .write 0x000000#24 0x21#32 :: rest ∧
      step (hosted (.write 0x000000#24 0x21#32) k1Sustain) = .next t ∧ t.env.stage ≠ k1Sustain.env.stage) :=
  ⟨⟨_, _, rfl, rfl, by decide⟩, ⟨_, _, rfl, rfl, by decide +kernel⟩⟩

/-- A state with an operand range, a `READ` of `CAP` still pending. -/
def ranged (s : State) (start n : Word) : State := { s with args := ⟨start, n⟩, pending := [.read 0x000003#24] }

/-- K1 in a stage, the whole buffer as operand range; and its last word alone. -/
theorem witness_BlockCommands : ∀ x ∈ [(0#32, 18#32), (17#32, 1#32)],
    (ranged k1 x.1 x.2).par.wellFormed = true ∧ (ranged k1 x.1 x.2).pending ≠ [] ∧
    0 < (ranged k1 x.1 x.2).args.arg1.toNat ∧
    (ranged k1 x.1 x.2).args.arg0.toNat + (ranged k1 x.1 x.2).args.arg1.toNat ≤ (ranged k1 x.1 x.2).par.bmax ∧
    (ranged k1 x.1 x.2).env.stage = .idle ∧ (ranged k1Sustain x.1 x.2).env.stage = .sustain := by
  intro x hx
  simp only [List.mem_cons, List.not_mem_nil, or_false] at hx
  rcases hx with rfl | rfl <;> exact ⟨by decide, by decide, by decide, by decide, rfl, rfl⟩

theorem witness_BlockRangeChecked :
    (ranged k1 18 1).par.bmax < (ranged k1 18 1).args.arg0.toNat + (ranged k1 18 1).args.arg1.toNat ∧
    (ranged k1 0xFFFFFFFF#32 2).par.bmax
      < (ranged k1 0xFFFFFFFF#32 2).args.arg0.toNat + (ranged k1 0xFFFFFFFF#32 2).args.arg1.toNat ∧
    (ranged k1 18 0).args.arg0.toNat ≤ (ranged k1 18 0).par.bmax ∧ (ranged k1 18 0).args.arg1 = 0 := by decide +kernel

theorem witness_GrTickSumsActiveGrains :
    (RingInv (playing (ring 0x40800000#32 1 0 1 [8, 4])).par (playing (ring 0x40800000#32 1 0 1 [8, 4])).grain ∧
      0 < (playing (ring 0x40800000#32 1 0 1 [8, 4])).grain.len) ∧
    (gt32 (add32 0x40800000#32 0x3F800000#32) 0x40800000#32 = true ∧ 1 < 2) ∧
    gt32 (add32 0x40400000#32 0x3F800000#32) 0x40800000#32 = false :=
  ⟨⟨ringInv_t12, by decide⟩, by decide +kernel, by decide +kernel⟩

theorem witness_GrTickWithoutSourceIsSilent :
    (RingInv base.par base.grain ∧ base.grain.len = 0 ∧
      gt32 (add32 base.grain.acc 0x3F800000#32) base.grain.trig = false) ∧
    (RingInv base.par { base.grain with trig := 0 } ∧ gt32 (add32 base.grain.acc 0x3F800000#32) 0 = true) :=
  ⟨⟨sound_base.ring, rfl, by decide +kernel⟩, ⟨sound_base.ring.freq _ 0, by decide +kernel⟩⟩

theorem witness_NothingTriggersAtInfinity : base.grain.trig = 0x7F800000#32 ∧ base.grain.count = 0 := by decide

/-- One grain at offset 3, nothing triggering. -/
def oneGrain : State := playing { ring 0 0 1 1 [3, 0] with trig := 0x7F800000#32 }

theorem witness_GrainPlaysTheSourceExactlyOnce :
    (RingInv (playing (ring 0x40800000#32 1 0 1 [8, 4])).par (playing (ring 0x40800000#32 1 0 1 [8, 4])).grain ∧
      0 < (playing (ring 0x40800000#32 1 0 1 [8, 4])).grain.len) ∧
    (RingInv base.par { grLoad base.par.cap 8 0x3F800000#32 with freq := 0x3F800000#32, trig := 0 } ∧
      0 < (grLoad base.par.cap 8 0x3F800000#32).len ∧ (grLoad base.par.cap 8 0x3F800000#32).count = 0 ∧
      gt32 (add32 (grLoad base.par.cap 8 0x3F800000#32).acc 0x3F800000#32) 0 = true) ∧
    (oneGrain.grain.trig = 0x7F800000#32 ∧ oneGrain.grain.cur.length = oneGrain.par.cap ∧
      oneGrain.grain.head < oneGrain.par.cap ∧ oneGrain.grain.count = 1 ∧
      cursor oneGrain.grain oneGrain.grain.head = 3 ∧ 3 + 0 < oneGrain.grain.len ∧ 3 + 4 < oneGrain.grain.len) :=
  ⟨⟨ringInv_t12, by decide⟩, ⟨(RingInv.load (by decide) (by decide) _).freq _ 0, by decide +kernel⟩, by decide⟩

theorem witness_LoadSourceBindsAndEmptiesTheRing : ∃ s t : State,
    s.par.lmax < s.staging.srcLen.toNat ∧ t.staging.srcLen.toNat ≤ t.par.lmax :=
  ⟨{ base with staging := { Staging.reset with srcLen := 17 } },
    { base with staging := { Staging.reset with srcLen := 16 } }, by decide, by decide⟩

theorem witness_SetFreqSetsTheInterval :
    (finite32 0x7F800000#32 = false ∧ gt32 0x80000000#32 0 = false) ∧
    (finite32 0x00000001#32 = true ∧ gt32 0x00000001#32 0 = true) ∧
    (finite32 0x7F7FFFFF#32 = true ∧ gt32 0x7F7FFFFF#32 0 = true) := by decide +kernel

theorem witness_VoiceTickIsTheProduct : k1.env.stage = .idle ∧ k1Sustain.env.stage ≠ .idle := by decide

theorem witness_RejectionsArePrecise : ∃ (s t : State) (x : HostInput) (rest : List HostInput), s.pending = x :: rest ∧
    step s = .next t ∧ t.response = some ⟨false, 0⟩ :=
  ⟨hosted (.write 0x000000#24 0x20#32) base, _, _, _, rfl, rfl, rfl⟩

theorem witness_AcceptedTransactionsKeepTheError : ∃ (s t : State) (x : HostInput) (rest : List HostInput),
    s.pending = x :: rest ∧ step s = .next t ∧ t.response = some ⟨true, 0⟩ ∧ x ≠ .write 0x000000#24 0x00000001#32 ∧
    x ≠ .write 0x000000#24 0x00000002#32 ∧ s.error = ⟨true, .eRo⟩ :=
  ⟨{ hosted (.write 0x000000#24 0x30#32) k1 with error := ⟨true, .eRo⟩ }, _, _, _, rfl, rfl, rfl, by decide, by decide,
    rfl⟩

theorem witness_FieldSettersRaiseOnlyTheirCodes :
    (∃ t, Sound base ∧ exec .setAttack base = .next t ∧ t.response = some ⟨false, 0⟩) ∧
    (∃ t, Sound base ∧ exec .setSustain base = .next t ∧ t.response = some ⟨false, 0⟩) :=
  ⟨⟨_, sound_base, rfl, rfl⟩, ⟨_, sound_base, rfl, rfl⟩⟩

theorem witness_StepKeepsInvariants : ∃ s t : State, Sound s ∧ s.pending ≠ [] ∧ step s = .next t :=
  ⟨hosted (.write 0x000000#24 0x30#32) k1Sustain, _,
    ⟨sound_k1Sustain.par, sound_k1Sustain.ram, sound_k1Sustain.config, sound_k1Sustain.env, sound_k1Sustain.ring⟩,
    by decide, rfl⟩

theorem witness_StepKeepsRingInvariants : ∃ s t : State, s.par.wellFormed = true ∧ RingInv s.par s.grain ∧
    0 < s.grain.count ∧ step s = .next t :=
  ⟨hosted (.write 0x000000#24 0x31#32) (playing (ring 0x40800000#32 1 0 1 [8, 4])), _, by decide, ringInv_t12, by decide,
    rfl⟩

theorem witness_SamplePathReadsOnlyActiveState : ∃ s t : State, SameToSamplePath s t ∧ s ≠ t ∧
    ∀ i ∈ samplePath, ∃ s' t', exec i s = .next s' ∧ exec i t = .next t' := by
  refine ⟨base, { base with staging := k1.staging, ram := [(0x100000, 5)] }, ⟨?_, _, rfl⟩, by decide, ?_⟩
  · intro r i hr
    have hne : ∀ a, a ≠ 0x100000 → Memory.read [(0x100000, (5 : Word))] a = none := fun a ha => by
      simp [Memory.read, Ne.symm ha]
    have ha : ramAddr r i ≠ 0x100000 := by
      have h1 : 4 ≤ r.code := by
        cases r with
        | raw g => exact absurd rfl (hr g)
        | tab g => cases g <;> decide
        | src => decide
        | buf => decide
      unfold ramAddr
      omega
    simp only [State.ramWord, hne _ ha]
    rfl
  · intro i hi
    simp only [samplePath, List.mem_cons, List.not_mem_nil, or_false] at hi
    rcases hi with rfl | rfl | rfl | rfl | rfl | rfl | rfl <;> exact ⟨_, _, rfl, rfl⟩

theorem witness_Frames : ∀ i ∈ [Instr.noteOn, .noteOff, .envTick, .grTick, .voiceTick, .loadSource, .setFreq, .envApply,
    .voiceFill, .setParams, .setAttack, .setDecay, .setSustain, .setRelease, .setSampleRate],
    (run i base).isSome = true ∧ (run i k1).isSome = true := by decide +kernel

/-- Sums: the least subnormal twice; differences: 1.5 − 0.5; products: 1.5 × −2; quotients: −3 ÷ −2; the zeros
and the infinities of both formats; the greatest finite numbers, whose products are no numbers of the format. -/
theorem witness_ResultsAreCorrectlyRounded :
    (value32 0x00000001#32 + value32 0x00000001#32 = value32 0x00000002#32 ∧
      value32 0x3FC00000#32 - value32 0x3F000000#32 = value32 0x3F800000#32 ∧
      value32 0x3FC00000#32 * value32 0xC0000000#32 = value32 0xC0400000#32 * 2 ^ 149 ∧
      value32 0xC0400000#32 * 2 ^ 149 = value32 0x3FC00000#32 * value32 0xC0000000#32) ∧
    (value32 0x7F7FFFFF#32 + value32 0xFF7FFFFF#32 = 0 ∧ value32 0x00000000#32 - value32 0x80000000#32 = 0 ∧
      value32 0x00000001#32 ≠ 0) ∧
    ([0x00000001#32, 0x00000002#32, 0x3FC00000#32, 0xC0000000#32, 0x7F7FFFFF#32, 0xFF7FFFFF#32, 0x80000000#32].all
      finite32 = true) ∧
    ([0x0000000000000001#64, 0x8000000000000000#64, 0x7FEFFFFFFFFFFFFF#64, 0xFFEFFFFFFFFFFFFF#64].all
      finite64 = true) ∧
    (value64 0x8000000000000000#64 = 0 ∧ value64 0x8000000000000000#64 * value64 0x7FEFFFFFFFFFFFFF#64 = 0 ∧
      value64 0x0000000000000001#64 ≠ 0 ∧ value32 0x80000000#32 = 0) ∧
    ((0x7F800000#32).toNat % 2 ^ 31 = 0x7F800000 ∧ (0xFF800000#32).toNat % 2 ^ 31 = 0x7F800000 ∧
      (0x7FF0000000000000#64).toNat % 2 ^ 63 = 0x7FF0000000000000 ∧
      (0xFFF0000000000000#64).toNat % 2 ^ 63 = 0x7FF0000000000000) ∧
    (finite64 0x3FF0000000000000#64 = true ∧ value64 0x3FF0000000000000#64 = 2 ^ 1074 ∧
      value64 0x0000000000000001#64 * value64 0x3FF0000000000000#64 = value64 0x0000000000000001#64 * 2 ^ 1074) ∧
    (isNaN32 0x00000001#32 = false ∧ 0x00000001#32 ≠ 0x80000000#32 ∧ isNaN32 0xFF800000#32 = false) := by
  decide +kernel

theorem witness_NanIsCanonicalAndNumbersAreOrdered :
    (isNaN32 0x7F800001#32 = true ∧ isNaN32 0xFFFFFFFF#32 = true ∧
      isNaN32 (sub32 0x7F800000#32 0x7F800000#32) = true) ∧
    (isNaN32 0x80000000#32 = false ∧ isNaN32 0x00000000#32 = false ∧ value32 0x80000000#32 = value32 0x00000000#32 ∧
      isNaN32 0xFF800000#32 = false ∧ value32 0xFF800000#32 < value32 0xFF7FFFFF#32) ∧
    ((0x7FF0000000000001#64).toNat / 2 ^ 52 % 2 ^ 11 = 2047 ∧ (0x7FF0000000000001#64).toNat % 2 ^ 52 ≠ 0) ∧
    ((0xFFFFFFFFFFFFFFFF#64).toNat / 2 ^ 52 % 2 ^ 11 = 2047 ∧ (0xFFFFFFFFFFFFFFFF#64).toNat % 2 ^ 52 ≠ 0) ∧
    ((0xFFF0000000000000#64).toNat % 2 ^ 63 ≤ 0x7FF0000000000000 ∧
      (0x7FF0000000000000#64).toNat % 2 ^ 63 ≤ 0x7FF0000000000000) := by
  decide +kernel

theorem witness_NaturalConversionIsExact : (0 : Nat) ≤ 2 ^ 24 ∧ (2 : Nat) ^ 24 ≤ 2 ^ 24 := by decide

end Sys2Proof.Tests
end

section
/-! Proofs for the number formats (`00_scope.md` R8 to R12), first part: the primitives of one format as operations on
unpacked numbers, where `Laws/Numbers.lean` does not state them already: infinities, the sum that is zero, the exactness
of conversions, and how patterns show the sign, the zeros and the infinities of what they pack. -/

namespace Sys2Proof.Machine

/-! ## Conversions that are exact -/

/-- A number of at most `fracBits + 1` significant bits, or the power of two above them, is the value of a magnitude. -/
theorem Format.exists_units_eq (f : Format) {m : Nat} (e : Nat) (hm : m ≤ 2 ^ (f.fracBits + 1)) :
    ∃ mag, f.units mag = m * 2 ^ e := by
  rcases Nat.eq_or_lt_of_le hm with rfl | hlt
  · obtain ⟨mag, hmag, -⟩ := f.units_surj (m := 2 ^ f.fracBits) (e := e + 1)
      (Nat.pow_lt_pow_right (by decide) (by omega))
    exact ⟨mag, by rw [hmag]; ring⟩
  · obtain ⟨mag, hmag, -⟩ := f.units_surj (e := e) hlt
    exact ⟨mag, hmag⟩

/-- Such a number below the infinity is rounded to itself, and to a finite magnitude. -/
theorem Format.round_exact (f : Format) {m e num d : Nat} (hd : 0 < d) (hm : m ≤ 2 ^ (f.fracBits + 1))
    (hinf : m * 2 ^ e < f.units f.infMag) (hnum : num = m * 2 ^ e * d) :
    f.units (f.round num d) = m * 2 ^ e ∧ f.round num d < f.infMag := by
  obtain ⟨mag, hmag⟩ := f.exists_units_eq e hm
  have hlt : mag < f.infMag := f.units_lt_iff.mp (hmag ▸ hinf)
  rw [f.round_of_units hd hlt (hmag ▸ hnum)]
  exact ⟨hmag, hlt⟩

/-- Every value has at most `fracBits + 1` significant bits. -/
theorem Format.units_eq_mul_pow (f : Format) (mag : Nat) :
    ∃ m e, m ≤ 2 ^ (f.fracBits + 1) ∧ f.units mag = m * 2 ^ e := by
  have hm : mag % 2 ^ f.fracBits < 2 ^ f.fracBits := Nat.mod_lt _ (by positivity)
  unfold units
  dsimp only
  rw [pow_succ]
  split
  · exact ⟨mag % 2 ^ f.fracBits, 0, by omega, by simp⟩
  · exact ⟨_, _, by omega, rfl⟩

theorem binary32_unitExp : binary32.unitExp = 149 := by decide

theorem binary64_unitExp : binary64.unitExp = 1074 := by decide

/-- The infinity of binary32 counts as `2^128`, in units of `2^−149`. -/
theorem units_binary32_infMag : binary32.units binary32.infMag = 2 ^ (128 + 149) := by decide +kernel

/-- The infinity of binary64 counts as `2^1024`, in units of `2^−1074`. -/
theorem units_binary64_infMag : binary64.units binary64.infMag = 2 ^ (1024 + 1074) := by decide +kernel

/-- `nat32` is exact up to `2^24` (`00_scope.md` R12). -/
theorem units_round_nat32 {n : Nat} (hn : n ≤ 2 ^ 24) :
    binary32.units (binary32.round (n * 2 ^ 149) 1) = n * 2 ^ 149 ∧ binary32.round (n * 2 ^ 149) 1 < binary32.infMag := by
  refine binary32.round_exact one_pos hn ?_ (Nat.mul_one _).symm
  rw [units_binary32_infMag, pow_add]
  exact Nat.mul_lt_mul_of_pos_right (hn.trans_lt (by decide)) (by positivity)

/-- `nat64` is exact up to `2^53` (`00_scope.md` R12). -/
theorem units_round_nat64 {n : Nat} (hn : n ≤ 2 ^ 53) :
    binary64.units (binary64.round (n * 2 ^ 1074) 1) = n * 2 ^ 1074 := by
  refine (binary64.round_exact one_pos hn ?_ (Nat.mul_one _).symm).1
  have hlt : n < 2 ^ 1024 := hn.trans_lt (pow_lt_pow_right₀ one_lt_two (by decide))
  rw [units_binary64_infMag, pow_add]
  exact Nat.mul_lt_mul_of_pos_right hlt (by positivity)

/-- Every finite binary32 value is one of binary64, a unit of the one being `2^925` units of the other. -/
theorem units_round_cvt64 {mag : Nat} (h : mag < binary32.infMag) :
    binary64.units (binary64.round (binary32.units mag * 2 ^ 1074) (2 ^ 149)) = binary32.units mag * 2 ^ 925 ∧
      binary64.round (binary32.units mag * 2 ^ 1074) (2 ^ 149) < binary64.infMag := by
  obtain ⟨m, e, hm, hme⟩ := binary32.units_eq_mul_pow mag
  have hval : binary32.units mag * 2 ^ 925 = m * 2 ^ (e + 925) := by rw [hme, pow_add, Nat.mul_assoc]
  have hinf : binary32.units mag * 2 ^ 925 < binary64.units binary64.infMag := by
    have hlt := binary32.units_strictMono h
    rw [units_binary32_infMag] at hlt
    calc binary32.units mag * 2 ^ 925 < 2 ^ (128 + 149) * 2 ^ 925 := Nat.mul_lt_mul_of_pos_right hlt (by positivity)
      _ = 2 ^ (128 + 149 + 925) := (pow_add _ _ _).symm
      _ ≤ 2 ^ (1024 + 1074) := pow_le_pow_right₀ one_le_two (by decide)
      _ = _ := units_binary64_infMag.symm
  rw [hval] at hinf ⊢
  refine binary64.round_exact (by positivity) (hm.trans (Nat.pow_le_pow_right (by decide) (by decide))) hinf ?_
  rw [← hval, Nat.mul_assoc, ← pow_add]

/-! ## Zeros and infinities as operands -/

/-- An infinity is no NaN (`00_scope.md` R8). -/
theorem Fp.isNaN_isInf_of_infMag {f : Format} {i : Fp} (h : i.mag = f.infMag) : i.isNaN f = false ∧ i.isInf f = true := by
  simp [Fp.isNaN, Fp.isInf, h]

/-- A sum that is zero is `−0.0` when both operands are, else `+0.0` (`00_scope.md` R9). -/
theorem Fp.add_value_zero {f : Format} {a b : Fp} (ha : a.isFinite f = true) (hb : b.isFinite f = true)
    (h : a.value f + b.value f = 0) :
    Fp.add f a b = some ⟨decide (a = ⟨true, 0⟩ ∧ b = ⟨true, 0⟩), 0⟩ := by
  obtain ⟨-, ha1, ha2⟩ := Fp.fin ha
  obtain ⟨-, hb1, hb2⟩ := Fp.fin hb
  have hz : ∀ m, f.units m = 0 → m = 0 := fun m h => f.units_inj (h.trans f.units_zero.symm)
  obtain ⟨s, m⟩ := a
  obtain ⟨t, n⟩ := b
  simp only [Fp.value] at h
  simp only [Fp.add, ha1, ha2, hb1, hb2, Bool.or_self, Bool.false_eq_true, if_false, beq_iff_eq]
  by_cases hst : s = t
  · subst hst
    obtain rfl := hz m (by split at h <;> omega)
    obtain rfl := hz n (by split at h <;> omega)
    simp [f.units_zero, f.round_zero]
  · have hu : f.units m = f.units n := by cases s <;> cases t <;> simp at h hst <;> omega
    have hne : ¬ (s = true ∧ t = true) := fun ⟨hs, ht⟩ => hst (hs.trans ht.symm)
    simp only [hu, hst, lt_self_iff_false, if_false, Fp.mk.injEq, Option.some.injEq, and_true, Bool.false_eq,
      decide_eq_false_iff_not]
    tauto

section Infinity
variable {f : Format} {i x : Fp} (hi : i.mag = f.infMag)
include hi

theorem Fp.add_inf_left (hx : x.isFinite f = true) : Fp.add f i x = some i := by
  obtain ⟨hn, hinf⟩ := Fp.isNaN_isInf_of_infMag hi
  obtain ⟨-, hn', hinf'⟩ := Fp.fin hx
  simp [Fp.add, hn, hinf, hn', hinf']

theorem Fp.add_inf_right (hx : x.isFinite f = true) : Fp.add f x i = some i := by
  obtain ⟨hn, hinf⟩ := Fp.isNaN_isInf_of_infMag hi
  obtain ⟨-, hn', hinf'⟩ := Fp.fin hx
  simp [Fp.add, hn, hinf, hn', hinf']

/-- Two infinities of one sign add up, two of different signs do not (`00_scope.md` R10). -/
theorem Fp.add_inf_inf {j : Fp} (hj : j.mag = f.infMag) :
    Fp.add f i j = if i.neg = j.neg then some i else none := by
  obtain ⟨hn, hinf⟩ := Fp.isNaN_isInf_of_infMag hi
  obtain ⟨hn', hinf'⟩ := Fp.isNaN_isInf_of_infMag hj
  by_cases h : i.neg = j.neg <;> simp [Fp.add, hn, hinf, hn', hinf', h]

theorem Fp.mul_inf_left (hx : x.isNaN f = false) (h0 : x.mag ≠ 0) :
    Fp.mul f i x = some ⟨i.neg != x.neg, f.infMag⟩ := by
  obtain ⟨hn, hinf⟩ := Fp.isNaN_isInf_of_infMag hi
  simp [Fp.mul, hn, hinf, hx, h0]

theorem Fp.mul_inf_right (hx : x.isFinite f = true) (h0 : x.mag ≠ 0) :
    Fp.mul f x i = some ⟨x.neg != i.neg, f.infMag⟩ := by
  obtain ⟨hn, hinf⟩ := Fp.isNaN_isInf_of_infMag hi
  obtain ⟨-, hn', hinf'⟩ := Fp.fin hx
  simp [Fp.mul, hn, hinf, hn', hinf', h0]

theorem Fp.div_inf_left (hx : x.isFinite f = true) : Fp.div f i x = some ⟨i.neg != x.neg, f.infMag⟩ := by
  obtain ⟨hn, hinf⟩ := Fp.isNaN_isInf_of_infMag hi
  obtain ⟨-, hn', hinf'⟩ := Fp.fin hx
  simp [Fp.div, hn, hinf, hn', hinf']

theorem Fp.div_inf_right (hx : x.isFinite f = true) : Fp.div f x i = some ⟨x.neg != i.neg, 0⟩ := by
  obtain ⟨hn, hinf⟩ := Fp.isNaN_isInf_of_infMag hi
  obtain ⟨-, hn', hinf'⟩ := Fp.fin hx
  simp [Fp.div, hn, hinf, hn', hinf']

end Infinity

/-! ## What a pattern shows of the number it packs -/

theorem toNat_div_two_pow_31 (w : Word) : w.toNat / 2 ^ 31 = (unpack32 w).neg.toNat := by
  have := w.isLt
  by_cases h : 2 ^ 31 ≤ w.toNat
  · simp only [unpack32, h, decide_true, Bool.toNat_true]
    omega
  · simp only [unpack32, h, decide_false, Bool.toNat_false]
    omega

theorem toNat_div_two_pow_63 (w : DWord) : w.toNat / 2 ^ 63 = (unpack64 w).neg.toNat := by
  have := w.isLt
  by_cases h : 2 ^ 63 ≤ w.toNat
  · simp only [unpack64, h, decide_true, Bool.toNat_true]
    omega
  · simp only [unpack64, h, decide_false, Bool.toNat_false]
    omega

/-- A sign bit that is the exclusive or of two is their sum without its carry. -/
theorem toNat_bne (s t : Bool) : (s != t).toNat = (s.toNat + t.toNat) % 2 := by
  cases s <;> cases t <;> rfl

theorem unpack32_pack32_of_le {r : Fp} (h : r.mag ≤ binary32.infMag) : unpack32 (pack32 (some r)) = r :=
  unpack32_pack32 (h.trans_lt (by decide))

theorem unpack64_pack64_of_le {r : Fp} (h : r.mag ≤ binary64.infMag) : unpack64 (pack64 (some r)) = r :=
  unpack64_pack64 (h.trans_lt (by decide))

/-- The infinity of the sign a product or quotient of `a` and `b` has. -/
theorem signedInf32_eq (a b : Word) :
    signedZero32 a b ||| 0x7F800000#32 = pack32 (some ⟨(unpack32 a).neg != (unpack32 b).neg, binary32.infMag⟩) := by
  rw [signedZero32_eq]
  cases (unpack32 a).neg != (unpack32 b).neg <;> decide

theorem signedInf64_eq (a b : DWord) :
    signedZero64 a b ||| 0x7FF0000000000000#64
      = pack64 (some ⟨(unpack64 a).neg != (unpack64 b).neg, binary64.infMag⟩) := by
  rw [signedZero64_eq]
  cases (unpack64 a).neg != (unpack64 b).neg <;> decide

@[simp] theorem neg32_neg32 (a : Word) : neg32 (neg32 a) = a := by
  simp [neg32]

end Sys2Proof.Machine
end

section
/-! Proofs for the number formats (`00_scope.md` R8, R9, R12), second part: the primitives on patterns return the number
nearest the exact result, the exact result itself where it is a number of the format, and the signed zero or infinity
otherwise. -/

namespace Sys2Proof.Machine

/-! ## Rounded results -/

theorem add32_nearest {a b : Word} (ha : finite32 a = true) (hb : finite32 b = true) :
    Nearest32 (value32 a + value32 b) 1 (add32 a b) := by
  obtain ⟨r, hr, hnear⟩ := Fp.add_nearest (f := binary32) (by decide) ha hb
  rw [value32_eq, value32_eq, add32, hr]
  exact nearest32_pack hnear

theorem sub32_nearest {a b : Word} (ha : finite32 a = true) (hb : finite32 b = true) :
    Nearest32 (value32 a - value32 b) 1 (sub32 a b) := by
  rw [sub_eq_add_neg, ← value_neg32]
  exact add32_nearest ha (finite32_neg32 hb)

/-- A rounded product or quotient, packed: the nearest pattern, with the sign of the operands' product. -/
theorem nearest32_and_sign {a b : Word} {x : Option Fp} {n : Int} {d : Nat}
    (h : ∃ r, x = some r ∧ r.neg = ((unpack32 a).neg != (unpack32 b).neg) ∧ Fp.Nearest binary32 n d r) :
    Nearest32 n d (pack32 x) ∧ (pack32 x).toNat / 2 ^ 31 = (a.toNat / 2 ^ 31 + b.toNat / 2 ^ 31) % 2 := by
  obtain ⟨r, rfl, hs, hnear⟩ := h
  refine ⟨nearest32_pack hnear, ?_⟩
  rw [toNat_div_two_pow_31, unpack32_pack32_of_le hnear.1, hs, toNat_bne, toNat_div_two_pow_31, toNat_div_two_pow_31]

theorem nearest64_and_sign {a b : DWord} {x : Option Fp} {n : Int} {d : Nat}
    (h : ∃ r, x = some r ∧ r.neg = ((unpack64 a).neg != (unpack64 b).neg) ∧ Fp.Nearest binary64 n d r) :
    Nearest64 n d (pack64 x) ∧ (pack64 x).toNat / 2 ^ 63 = (a.toNat / 2 ^ 63 + b.toNat / 2 ^ 63) % 2 := by
  obtain ⟨r, rfl, hs, hnear⟩ := h
  refine ⟨nearest64_pack hnear, ?_⟩
  rw [toNat_div_two_pow_63, unpack64_pack64_of_le hnear.1, hs, toNat_bne, toNat_div_two_pow_63, toNat_div_two_pow_63]

theorem mul32_nearest {a b : Word} (ha : finite32 a = true) (hb : finite32 b = true) :
    Nearest32 (value32 a * value32 b) (2 ^ 149) (mul32 a b) ∧
      (mul32 a b).toNat / 2 ^ 31 = (a.toNat / 2 ^ 31 + b.toNat / 2 ^ 31) % 2 := by
  rw [value32_eq, value32_eq, ← binary32_unitExp]
  exact nearest32_and_sign (Fp.mul_nearest (by decide) ha hb)

theorem mul64_nearest {a b : DWord} (ha : finite64 a = true) (hb : finite64 b = true) :
    Nearest64 (value64 a * value64 b) (2 ^ 1074) (mul64 a b) ∧
      (mul64 a b).toNat / 2 ^ 63 = (a.toNat / 2 ^ 63 + b.toNat / 2 ^ 63) % 2 := by
  rw [value64_eq, value64_eq, ← binary64_unitExp]
  exact nearest64_and_sign (Fp.mul_nearest (by decide) ha hb)

theorem div32_nearest {a b : Word} (ha : finite32 a = true) (hb : finite32 b = true) (h0 : value32 b ≠ 0) :
    Nearest32 (value32 a * 2 ^ 149 * (value32 b).sign) (value32 b).natAbs (div32 a b) ∧
      (div32 a b).toNat / 2 ^ 31 = (a.toNat / 2 ^ 31 + b.toNat / 2 ^ 31) % 2 := by
  rw [value32_eq] at h0
  rw [value32_eq, value32_eq, ← binary32_unitExp]
  exact nearest32_and_sign (Fp.div_nearest (by decide) ha hb h0)

theorem div64_nearest {a b : DWord} (ha : finite64 a = true) (hb : finite64 b = true) (h0 : value64 b ≠ 0) :
    Nearest64 (value64 a * 2 ^ 1074 * (value64 b).sign) (value64 b).natAbs (div64 a b) ∧
      (div64 a b).toNat / 2 ^ 63 = (a.toNat / 2 ^ 63 + b.toNat / 2 ^ 63) % 2 := by
  rw [value64_eq] at h0
  rw [value64_eq, value64_eq, ← binary64_unitExp]
  exact nearest64_and_sign (Fp.div_nearest (by decide) ha hb h0)

/-! ## Conversions -/

theorem nat32_eq (n : Nat) : nat32 n = pack32 (some ⟨false, binary32.round (n * 2 ^ 149) 1⟩) := by
  rw [nat32, binary32_unitExp]

theorem nat64_eq (n : Nat) : nat64 n = pack64 (some ⟨false, binary64.round (n * 2 ^ 1074) 1⟩) := by
  rw [nat64, binary64_unitExp]

theorem unpack32_nat32 (n : Nat) : unpack32 (nat32 n) = ⟨false, binary32.round (n * 2 ^ 149) 1⟩ := by
  rw [nat32_eq, unpack32_pack32_of_le (binary32.round_le _ _)]

theorem unpack64_nat64 (n : Nat) : unpack64 (nat64 n) = ⟨false, binary64.round (n * 2 ^ 1074) 1⟩ := by
  rw [nat64_eq, unpack64_pack64_of_le (binary64.round_le _ _)]

theorem nat32_nearest (n : Nat) : Nearest32 (n * 2 ^ 149) 1 (nat32 n) ∧ (nat32 n).toNat < 2 ^ 31 := by
  constructor
  · have hnear := Fp.nearest_round (f := binary32) (by decide) false (num := n * 2 ^ 149) one_pos
    rw [if_neg Bool.false_ne_true, Nat.cast_mul, Nat.cast_pow] at hnear
    exact nat32_eq n ▸ nearest32_pack hnear
  · have hsign := toNat_div_two_pow_31 (nat32 n)
    rw [unpack32_nat32, Bool.toNat_false] at hsign
    omega

theorem nat64_nearest (n : Nat) : Nearest64 (n * 2 ^ 1074) 1 (nat64 n) ∧ (nat64 n).toNat < 2 ^ 63 := by
  constructor
  · have hnear := Fp.nearest_round (f := binary64) (by decide) false (num := n * 2 ^ 1074) one_pos
    rw [if_neg Bool.false_ne_true, Nat.cast_mul, Nat.cast_pow] at hnear
    exact nat64_eq n ▸ nearest64_pack hnear
  · have hsign := toNat_div_two_pow_63 (nat64 n)
    rw [unpack64_nat64, Bool.toNat_false] at hsign
    omega

/-- `nat64` is exact up to `2^53` (`00_scope.md` R12). -/
theorem value64_nat64 {n : Nat} (hn : n ≤ 2 ^ 53) : value64 (nat64 n) = n * 2 ^ 1074 := by
  rw [value64_eq, unpack64_nat64, Fp.value, if_neg Bool.false_ne_true, units_round_nat64 hn, Nat.cast_mul, Nat.cast_pow]
  rfl

/-- `cvt64` of a finite number, its operand's sign and a magnitude that is finite and exact. -/
theorem unpack64_cvt64 {a : Word} (ha : finite32 a = true) :
    unpack64 (cvt64 a)
      = ⟨(unpack32 a).neg, binary64.round (binary32.units (unpack32 a).mag * 2 ^ 1074) (2 ^ 149)⟩ := by
  obtain ⟨-, hn, hinf⟩ := Fp.fin (finite32_fp ha)
  rw [cvt64, Fp.convert, hn, hinf, binary32_unitExp, binary64_unitExp]
  exact unpack64_pack64_of_le (binary64.round_le _ _)

/-- `cvt64` is exact (`00_scope.md` R12). -/
theorem value64_cvt64 {a : Word} (ha : finite32 a = true) :
    value64 (cvt64 a) = value32 a * 2 ^ 925 ∧ finite64 (cvt64 a) = true ∧
      (cvt64 a).toNat / 2 ^ 63 = a.toNat / 2 ^ 31 := by
  obtain ⟨hlt, -, -⟩ := Fp.fin (finite32_fp ha)
  obtain ⟨hunits, hfin⟩ := units_round_cvt64 hlt
  refine ⟨?_, ?_, ?_⟩
  · rw [value64_eq, unpack64_cvt64 ha, value32_eq]
    simp only [Fp.value, hunits, Nat.cast_mul, Nat.cast_pow, ite_mul, neg_mul]
    rfl
  · rw [finite64, unpack64_cvt64 ha]
    exact decide_eq_true hfin
  · rw [toNat_div_two_pow_63, unpack64_cvt64 ha, toNat_div_two_pow_31]

/-- `trunc64` is the greatest integer not above a number that is at least 1 (`00_scope.md` R12). -/
theorem trunc64_floor {a : DWord} (h : 2 ^ 1074 ≤ value64 a) :
    trunc64 a * 2 ^ 1074 ≤ value64 a ∧ value64 a < (trunc64 a + 1) * 2 ^ 1074 := by
  have hpos : 0 < value64 a := (show (0 : Int) < 2 ^ 1074 by positivity).trans_le h
  have hval : value64 a = binary64.units (unpack64 a).mag := by
    rw [value64_eq, Fp.value] at hpos ⊢
    split at hpos
    · omega
    · rename_i hneg
      exact if_neg hneg
  rw [hval, trunc64_eq, binary64_unitExp]
  constructor
  · exact_mod_cast Nat.div_mul_le_self _ _
  · exact_mod_cast (Nat.div_lt_iff_lt_mul (by positivity)).mp (Nat.lt_succ_self _)

/-! ## Exact results -/

theorem add32_exact {a b z : Word} (ha : finite32 a = true) (hb : finite32 b = true) (hz : finite32 z = true)
    (h0 : value32 z ≠ 0) (h : value32 a + value32 b = value32 z) : add32 a b = z := by
  simp only [value32_eq] at h0 h
  rw [add32, Fp.add_exact ha hb hz h0 h, pack32_unpack32]

theorem sub32_exact {a b z : Word} (ha : finite32 a = true) (hb : finite32 b = true) (hz : finite32 z = true)
    (h0 : value32 z ≠ 0) (h : value32 a - value32 b = value32 z) : sub32 a b = z :=
  add32_exact ha (finite32_neg32 hb) hz h0 (by rwa [value_neg32])

theorem mul32_exact {a b z : Word} (ha : finite32 a = true) (hb : finite32 b = true) (hz : finite32 z = true)
    (h0 : value32 z ≠ 0) (h : value32 a * value32 b = value32 z * 2 ^ 149) : mul32 a b = z := by
  simp only [value32_eq, ← binary32_unitExp] at h0 h
  rw [mul32, Fp.mul_exact ha hb hz h0 h, pack32_unpack32]

theorem div32_exact {a b z : Word} (ha : finite32 a = true) (hb : finite32 b = true) (hz : finite32 z = true)
    (h0 : value32 z ≠ 0) (hb0 : value32 b ≠ 0) (h : value32 a * 2 ^ 149 = value32 z * value32 b) : div32 a b = z := by
  simp only [value32_eq, ← binary32_unitExp] at h0 hb0 h
  rw [div32, Fp.div_exact ha hb hz h0 hb0 h, pack32_unpack32]

theorem mul64_exact {a b z : DWord} (ha : finite64 a = true) (hb : finite64 b = true) (hz : finite64 z = true)
    (h0 : value64 z ≠ 0) (h : value64 a * value64 b = value64 z * 2 ^ 1074) : mul64 a b = z := by
  simp only [value64_eq, ← binary64_unitExp] at h0 h
  rw [mul64, Fp.mul_exact ha hb hz h0 h, pack64_unpack64]

theorem div64_exact {a b z : DWord} (ha : finite64 a = true) (hb : finite64 b = true) (hz : finite64 z = true)
    (h0 : value64 z ≠ 0) (hb0 : value64 b ≠ 0) (h : value64 a * 2 ^ 1074 = value64 z * value64 b) : div64 a b = z := by
  simp only [value64_eq, ← binary64_unitExp] at h0 hb0 h
  rw [div64, Fp.div_exact ha hb hz h0 hb0 h, pack64_unpack64]

/-! ## Zero results, and zeros as divisors -/

theorem eq_negZero32_iff (a : Word) : a = 0x80000000#32 ↔ unpack32 a = ⟨true, 0⟩ :=
  eq_iff_unpack

/-- The two patterns of the number zero. -/
theorem eq_zero_of_value32 {a : Word} (h : value32 a = 0) : a = 0x00000000#32 ∨ a = 0x80000000#32 := by
  rw [value32_eq, Fp.value_zero_iff] at h
  have ha := pack32_unpack32 a
  generalize unpack32 a = x at *
  obtain ⟨s, m⟩ := x
  obtain rfl : m = 0 := h
  cases s
  · exact .inl ha.symm
  · exact .inr ha.symm

theorem neg32_eq_negZero32_iff (a : Word) : neg32 a = 0x80000000#32 ↔ a = 0x00000000#32 := by
  rw [Function.Involutive.eq_iff neg32_neg32, show neg32 0x80000000#32 = 0x00000000#32 by decide]

theorem add32_zero {a b : Word} (ha : finite32 a = true) (hb : finite32 b = true) (h : value32 a + value32 b = 0) :
    add32 a b = if a = 0x80000000#32 ∧ b = 0x80000000#32 then 0x80000000#32 else 0x00000000#32 := by
  simp only [value32_eq] at h
  rw [add32, Fp.add_value_zero ha hb h]
  simp only [eq_negZero32_iff]
  split
  · rename_i hneg
    rw [decide_eq_true hneg]
    decide
  · rename_i hneg
    rw [decide_eq_false hneg]
    decide

theorem sub32_zero {a b : Word} (ha : finite32 a = true) (hb : finite32 b = true) (h : value32 a - value32 b = 0) :
    sub32 a b = if a = 0x80000000#32 ∧ b = 0x00000000#32 then 0x80000000#32 else 0x00000000#32 := by
  rw [sub32, add32_zero ha (finite32_neg32 hb) (by rwa [value_neg32])]
  simp only [neg32_eq_negZero32_iff]

theorem mul32_zero {a b : Word} (ha : finite32 a = true) (hb : finite32 b = true) (h : value32 a * value32 b = 0) :
    mul32 a b = signedZero32 a b := by
  simp only [value32_eq] at h
  rw [mul32, Fp.mul_value_zero ha hb h, signedZero32_eq]

theorem mul64_zero {a b : DWord} (ha : finite64 a = true) (hb : finite64 b = true) (h : value64 a * value64 b = 0) :
    mul64 a b = signedZero64 a b := by
  simp only [value64_eq] at h
  rw [mul64, Fp.mul_value_zero ha hb h, signedZero64_eq]

theorem div32_zero {a b : Word} (ha : finite32 a = true) (hb : finite32 b = true) (h : value32 a = 0)
    (hb0 : value32 b ≠ 0) : div32 a b = signedZero32 a b := by
  rw [value32_eq] at h hb0
  rw [div32, Fp.div_value_zero ha hb h hb0, signedZero32_eq]

theorem div64_zero {a b : DWord} (ha : finite64 a = true) (hb : finite64 b = true) (h : value64 a = 0)
    (hb0 : value64 b ≠ 0) : div64 a b = signedZero64 a b := by
  rw [value64_eq] at h hb0
  rw [div64, Fp.div_value_zero ha hb h hb0, signedZero64_eq]

theorem div32_by_zero {a b : Word} (ha : finite32 a = true) (hb : finite32 b = true) (h : value32 a ≠ 0)
    (hb0 : value32 b = 0) : div32 a b = signedZero32 a b ||| 0x7F800000#32 := by
  rw [value32_eq] at h hb0
  rw [div32, Fp.div_by_zero ha hb h hb0, signedInf32_eq]

theorem div64_by_zero {a b : DWord} (ha : finite64 a = true) (hb : finite64 b = true) (h : value64 a ≠ 0)
    (hb0 : value64 b = 0) : div64 a b = signedZero64 a b ||| 0x7FF0000000000000#64 := by
  rw [value64_eq] at h hb0
  rw [div64, Fp.div_by_zero ha hb h hb0, signedInf64_eq]

/-! ## Infinities as operands -/

section Infinity32
variable {i j x : Word} (hi : (unpack32 i).mag = binary32.infMag)
include hi

theorem add32_inf_left (hx : finite32 x = true) : add32 i x = i := by
  rw [add32, Fp.add_inf_left hi hx, pack32_unpack32]

theorem add32_inf_right (hx : finite32 x = true) : add32 x i = i := by
  rw [add32, Fp.add_inf_right hi hx, pack32_unpack32]

theorem add32_inf_self : add32 i i = i := by
  rw [add32, Fp.add_inf_inf hi hi, if_pos rfl, pack32_unpack32]

theorem sub32_inf_right (hx : finite32 x = true) : sub32 x i = neg32 i :=
  add32_inf_right (by rw [unpack_neg]; exact hi) hx

theorem sub32_inf_neg : sub32 i (neg32 i) = i := by
  rw [sub32, neg32_neg32, add32_inf_self hi]

theorem mul32_inf (hx : finite32 x = true) (h0 : value32 x ≠ 0) :
    mul32 i x = signedZero32 i x ||| 0x7F800000#32 ∧ mul32 x i = signedZero32 x i ||| 0x7F800000#32 := by
  rw [value32_eq, Ne, Fp.value_zero_iff] at h0
  obtain ⟨-, hn, -⟩ := Fp.fin (finite32_fp hx)
  rw [mul32, mul32, Fp.mul_inf_left hi hn h0, Fp.mul_inf_right hi hx h0, signedInf32_eq, signedInf32_eq]
  exact ⟨rfl, rfl⟩

theorem mul32_inf_inf (hj : (unpack32 j).mag = binary32.infMag) : mul32 i j = signedZero32 i j ||| 0x7F800000#32 := by
  rw [mul32, Fp.mul_inf_left hi (Fp.isNaN_isInf_of_infMag hj).1 (by rw [hj]; decide), signedInf32_eq]

theorem div32_inf_left (hx : finite32 x = true) : div32 i x = signedZero32 i x ||| 0x7F800000#32 := by
  rw [div32, Fp.div_inf_left hi hx, signedInf32_eq]

theorem div32_inf_right (hx : finite32 x = true) : div32 x i = signedZero32 x i := by
  rw [div32, Fp.div_inf_right hi hx, signedZero32_eq]

end Infinity32

section Infinity64
variable {i j x : DWord} (hi : (unpack64 i).mag = binary64.infMag)
include hi

theorem mul64_inf (hx : finite64 x = true) (h0 : value64 x ≠ 0) :
    mul64 i x = signedZero64 i x ||| 0x7FF0000000000000#64 ∧
      mul64 x i = signedZero64 x i ||| 0x7FF0000000000000#64 := by
  rw [value64_eq, Ne, Fp.value_zero_iff] at h0
  obtain ⟨-, hn, -⟩ := Fp.fin (f := binary64) hx
  rw [mul64, mul64, Fp.mul_inf_left hi hn h0, Fp.mul_inf_right hi hx h0, signedInf64_eq, signedInf64_eq]
  exact ⟨rfl, rfl⟩

theorem mul64_inf_inf (hj : (unpack64 j).mag = binary64.infMag) :
    mul64 i j = signedZero64 i j ||| 0x7FF0000000000000#64 := by
  rw [mul64, Fp.mul_inf_left hi (Fp.isNaN_isInf_of_infMag hj).1 (by rw [hj]; decide), signedInf64_eq]

theorem div64_inf_left (hx : finite64 x = true) : div64 i x = signedZero64 i x ||| 0x7FF0000000000000#64 := by
  rw [div64, Fp.div_inf_left hi hx, signedInf64_eq]

theorem div64_inf_right (hx : finite64 x = true) : div64 x i = signedZero64 x i := by
  rw [div64, Fp.div_inf_right hi hx, signedZero64_eq]

end Infinity64

/-- `x + (+0.0) = x`, but for `−0.0` and NaN (`00_scope.md` R12). -/
theorem add32_posZero {x : Word} (hn : isNaN32 x = false) (h0 : x ≠ 0x80000000#32) : add32 x 0x00000000#32 = x := by
  have hzero : value32 0x00000000#32 = 0 := by decide
  rcases Nat.eq_or_lt_of_le (Fp.not_nan.mp hn) with hinf | hlt
  · exact add32_inf_left hinf (by decide)
  have hx : finite32 x = true := decide_eq_true hlt
  by_cases hv : value32 x = 0
  · rw [add32_zero hx (by decide) (by rw [hv, hzero]; rfl), if_neg fun h => h0 h.1]
    exact ((eq_zero_of_value32 hv).resolve_right h0).symm
  · exact add32_exact hx (by decide) hx hv (by rw [hzero, Int.add_zero])

/-- Settles O58: each primitive through the lemma that says what it returns on finite operands (`Fp.nearest_round` under
all of them), on zeros and on infinities. -/
theorem resultsAreCorrectlyRounded : Obligations.ResultsAreCorrectlyRounded := by
  unfold Obligations.ResultsAreCorrectlyRounded
  refine ⟨fun a b ha hb => ?_, fun a b ha hb => ?_, fun n => ?_, fun a b ha hb => ?_, fun a b ha hb => ?_,
    fun i j x hi hj hx => ?_, fun i j x hi hj hx => ?_, fun _ => value64_cvt64, fun _ => value64_nat64,
    fun _ _ => trunc64_floor, fun _ => add32_posZero⟩
  · obtain ⟨hmul, hsign⟩ := mul32_nearest ha hb
    exact ⟨add32_nearest ha hb, sub32_nearest ha hb, hmul, hsign, div32_nearest ha hb⟩
  · obtain ⟨hmul, hsign⟩ := mul64_nearest ha hb
    exact ⟨hmul, hsign, div64_nearest ha hb⟩
  · obtain ⟨hnear, hpos⟩ := nat32_nearest n
    exact ⟨hnear, hpos, nat64_nearest n⟩
  · exact ⟨fun z hz h0 => ⟨add32_exact ha hb hz h0, sub32_exact ha hb hz h0, mul32_exact ha hb hz h0,
        div32_exact ha hb hz h0⟩,
      add32_zero ha hb, sub32_zero ha hb, mul32_zero ha hb, div32_zero ha hb, div32_by_zero ha hb⟩
  · exact ⟨fun z hz h0 => ⟨mul64_exact ha hb hz h0, div64_exact ha hb hz h0⟩,
      mul64_zero ha hb, div64_zero ha hb, div64_by_zero ha hb⟩
  · exact ⟨add32_inf_left hi hx, add32_inf_right hi hx, add32_inf_left hi (finite32_neg32 hx), sub32_inf_right hi hx,
      add32_inf_self hi, sub32_inf_neg hi, mul32_inf hi hx, mul32_inf_inf hi hj, div32_inf_left hi hx,
      div32_inf_right hi hx⟩
  · exact ⟨mul64_inf hi hx, mul64_inf_inf hi hj, div64_inf_left hi hx, div64_inf_right hi hx⟩

end Sys2Proof.Machine
end

section
/-! Proofs for the number formats (`00_scope.md` R10 to R12), third part: NaN operands and results, the invalid
operations, and the order of the comparisons. -/

namespace Sys2Proof.Machine

/-! ## NaN -/

section NaN
variable {f : Format} {a b : Fp} (h : a.isNaN f = true ∨ b.isNaN f = true)
include h

theorem Fp.add_nan : Fp.add f a b = none := by
  rw [← Bool.or_eq_true] at h
  simp [Fp.add, h]

theorem Fp.mul_nan : Fp.mul f a b = none := by
  rw [← Bool.or_eq_true] at h
  simp [Fp.mul, h]

theorem Fp.div_nan : Fp.div f a b = none := by
  rw [← Bool.or_eq_true] at h
  simp [Fp.div, h]

theorem Fp.lt_nan : Fp.lt f a b = false := by
  rcases h with h | h <;> simp [Fp.lt, h]

theorem Fp.le_nan : Fp.le f a b = false := by
  rcases h with h | h <;> simp [Fp.le, h]

end NaN

@[simp] theorem isNaN32_neg32 (a : Word) : isNaN32 (neg32 a) = isNaN32 a := by
  rw [isNaN32, unpack_neg]
  rfl

/-- A NaN operand makes every result the canonical NaN and every comparison false (`00_scope.md` R10, R11). -/
theorem nan32_operand {a b : Word} (h : isNaN32 a = true ∨ isNaN32 b = true) :
    add32 a b = 0x7FC00000#32 ∧ sub32 a b = 0x7FC00000#32 ∧ mul32 a b = 0x7FC00000#32 ∧ div32 a b = 0x7FC00000#32 ∧
    lt32 a b = false ∧ le32 a b = false ∧ gt32 a b = false ∧ ge32 a b = false := by
  have hneg : isNaN32 a = true ∨ isNaN32 (neg32 b) = true := by rwa [isNaN32_neg32]
  exact ⟨congrArg pack32 (Fp.add_nan h), congrArg pack32 (Fp.add_nan hneg), congrArg pack32 (Fp.mul_nan h),
    congrArg pack32 (Fp.div_nan h), Fp.lt_nan h, Fp.le_nan h, Fp.lt_nan h.symm, Fp.le_nan h.symm⟩

theorem nan64_operand {a b : DWord}
    (h : (unpack64 a).isNaN binary64 = true ∨ (unpack64 b).isNaN binary64 = true) :
    lt64 a b = false ∧ gt64 a b = false ∧ ge64 a b = false ∧ max64 a b = a := by
  have hlt : lt64 a b = false := Fp.lt_nan h
  exact ⟨hlt, Fp.lt_nan h.symm, Fp.le_nan h.symm, if_neg (by rw [hlt]; exact Bool.false_ne_true)⟩

/-- A NaN result is the canonical one (`00_scope.md` R10). -/
theorem nan32_result {a b r : Word} (hr : r = add32 a b ∨ r = sub32 a b ∨ r = mul32 a b ∨ r = div32 a b)
    (hn : isNaN32 r = true) : r = 0x7FC00000#32 := by
  have hcanonical : r = 0x7FC00000#32 ∨ isNaN32 r = false := by
    rcases hr with rfl | rfl | rfl | rfl
    · exact add32_canonical a b
    · exact add32_canonical a (neg32 b)
    · exact mul32_canonical a b
    · exact div32_canonical a b
  exact hcanonical.resolve_right (by simp [hn])

/-! ## The invalid operations -/

section Invalid
variable {f : Format} {i j z y : Fp} (hi : i.mag = f.infMag) (hz : z.isFinite f = true) (hz0 : z.mag = 0)

include hi hz hz0 in
theorem Fp.mul_zero_inf : Fp.mul f z i = none := by
  obtain ⟨hn, hinf⟩ := Fp.isNaN_isInf_of_infMag hi
  obtain ⟨-, hn', hinf'⟩ := Fp.fin hz
  simp [Fp.mul, hn, hinf, hn', hinf', hz0]

include hi hz hz0 in
theorem Fp.mul_inf_zero : Fp.mul f i z = none := by
  obtain ⟨hn, hinf⟩ := Fp.isNaN_isInf_of_infMag hi
  obtain ⟨-, hn', -⟩ := Fp.fin hz
  simp [Fp.mul, hn, hinf, hn', hz0]

include hz hz0 in
theorem Fp.div_zero_zero (hy : y.isFinite f = true) (hy0 : y.mag = 0) : Fp.div f z y = none := by
  obtain ⟨-, hn, hinf⟩ := Fp.fin hz
  obtain ⟨-, hn', hinf'⟩ := Fp.fin hy
  simp [Fp.div, hn, hinf, hn', hinf', hz0, hy0]

include hi in
theorem Fp.div_inf_inf (hj : j.mag = f.infMag) : Fp.div f i j = none := by
  obtain ⟨hn, hinf⟩ := Fp.isNaN_isInf_of_infMag hi
  obtain ⟨hn', hinf'⟩ := Fp.isNaN_isInf_of_infMag hj
  simp [Fp.div, hn, hinf, hn', hinf']

end Invalid

theorem mag_of_mem_infinities {i : Word} (hi : i ∈ [0x7F800000#32, 0xFF800000#32]) :
    (unpack32 i).mag = binary32.infMag := by
  simp only [List.mem_cons, List.not_mem_nil, or_false] at hi
  rcases hi with rfl | rfl <;> decide

theorem mag_of_mem_zeros {z : Word} (hz : z ∈ [0x00000000#32, 0x80000000#32]) :
    finite32 z = true ∧ (unpack32 z).mag = 0 := by
  simp only [List.mem_cons, List.not_mem_nil, or_false] at hz
  rcases hz with rfl | rfl <;> decide

/-- `∞ − ∞` is no number (`00_scope.md` R10). -/
theorem add32_inf_neg {i : Word} (hi : (unpack32 i).mag = binary32.infMag) : add32 i (neg32 i) = 0x7FC00000#32 := by
  rw [add32, unpack_neg, Fp.add_inf_inf hi (by exact hi), if_neg (by simp)]
  rfl

/-- `∞ − ∞`, `0 × ∞`, `0 ÷ 0` and `∞ ÷ ∞` (`00_scope.md` R10). -/
theorem invalid32_operations {i j z y : Word} (hi : i ∈ [0x7F800000#32, 0xFF800000#32])
    (hj : j ∈ [0x7F800000#32, 0xFF800000#32]) (hz : z ∈ [0x00000000#32, 0x80000000#32])
    (hy : y ∈ [0x00000000#32, 0x80000000#32]) :
    sub32 i i = 0x7FC00000#32 ∧ add32 i (neg32 i) = 0x7FC00000#32 ∧ mul32 z i = 0x7FC00000#32 ∧
      mul32 i z = 0x7FC00000#32 ∧ div32 z y = 0x7FC00000#32 ∧ div32 i j = 0x7FC00000#32 := by
  have hi := mag_of_mem_infinities hi
  have hj := mag_of_mem_infinities hj
  obtain ⟨hz, hz0⟩ := mag_of_mem_zeros hz
  obtain ⟨hy, hy0⟩ := mag_of_mem_zeros hy
  exact ⟨add32_inf_neg hi, add32_inf_neg hi, congrArg pack32 (Fp.mul_zero_inf hi hz hz0),
    congrArg pack32 (Fp.mul_inf_zero hi hz hz0), congrArg pack32 (Fp.div_zero_zero hz hz0 hy hy0),
    congrArg pack32 (Fp.div_inf_inf hi hj)⟩

/-! ## The fields of a pattern -/

theorem unpack32_mag (a : Word) : (unpack32 a).mag = a.toNat % 2 ^ 31 := rfl

theorem unpack64_mag (a : DWord) : (unpack64 a).mag = a.toNat % 2 ^ 63 := rfl

theorem finite32_iff (a : Word) : finite32 a = true ↔ a.toNat / 2 ^ 23 % 2 ^ 8 ≠ 255 := by
  rw [finite32, Fp.isFinite, decide_eq_true_iff, binary32_infMag, unpack32_mag]
  omega

theorem isNaN32_iff (a : Word) : isNaN32 a = true ↔ a.toNat / 2 ^ 23 % 2 ^ 8 = 255 ∧ a.toNat % 2 ^ 23 ≠ 0 := by
  rw [isNaN32, Fp.isNaN, decide_eq_true_iff, binary32_infMag, unpack32_mag]
  omega

theorem finite64_iff (a : DWord) : finite64 a = true ↔ a.toNat / 2 ^ 52 % 2 ^ 11 ≠ 2047 := by
  rw [finite64, Fp.isFinite, decide_eq_true_iff, binary64_infMag, unpack64_mag]
  omega

theorem isNaN64_iff (a : DWord) :
    (unpack64 a).isNaN binary64 = true ↔ a.toNat / 2 ^ 52 % 2 ^ 11 = 2047 ∧ a.toNat % 2 ^ 52 ≠ 0 := by
  rw [Fp.isNaN, decide_eq_true_iff, binary64_infMag, unpack64_mag]
  omega

/-- `neg32` inverts bit 31 and nothing else (`00_scope.md` R9). -/
theorem neg32_bits (a : Word) :
    (neg32 a).toNat % 2 ^ 31 = a.toNat % 2 ^ 31 ∧ (neg32 a).toNat / 2 ^ 31 ≠ a.toNat / 2 ^ 31 := by
  rw [toNat_div_two_pow_31, toNat_div_two_pow_31, unpack_neg]
  constructor
  · exact congrArg Fp.mag (unpack_neg a)
  · cases (unpack32 a).neg <;> simp

/-! ## The order of numbers -/

section Order
variable {f : Format} {a b : Fp} (ha : a.isNaN f = false) (hb : b.isNaN f = false)
include ha hb

theorem Fp.lt_iff_value : Fp.lt f a b = true ↔ a.value f < b.value f := by
  simp [Fp.lt, ha, hb, Fp.key_lt f]

theorem Fp.le_iff_value : Fp.le f a b = true ↔ a.value f ≤ b.value f := by
  simp [Fp.le, ha, hb, Fp.key_le f]

end Order

theorem lt32_iff {a b : Word} (ha : isNaN32 a = false) (hb : isNaN32 b = false) :
    lt32 a b = true ↔ value32 a < value32 b := by
  rw [value32_eq, value32_eq]
  exact Fp.lt_iff_value ha hb

theorem le32_iff {a b : Word} (ha : isNaN32 a = false) (hb : isNaN32 b = false) :
    le32 a b = true ↔ value32 a ≤ value32 b := by
  rw [value32_eq, value32_eq]
  exact Fp.le_iff_value ha hb

section Order64
variable {a b : DWord} (ha : a.toNat % 2 ^ 63 ≤ 0x7FF0000000000000) (hb : b.toNat % 2 ^ 63 ≤ 0x7FF0000000000000)
include ha hb

theorem lt64_iff : lt64 a b = true ↔ value64 a < value64 b := by
  rw [value64_eq, value64_eq]
  exact Fp.lt_iff_value (Fp.not_nan.mpr ha) (Fp.not_nan.mpr hb)

theorem ge64_iff : ge64 a b = true ↔ value64 b ≤ value64 a := by
  rw [value64_eq, value64_eq]
  exact Fp.le_iff_value (Fp.not_nan.mpr hb) (Fp.not_nan.mpr ha)

theorem max64_eq : max64 a b = if value64 a < value64 b then b else a := by
  simp only [max64, lt64_iff ha hb]

end Order64

/-- Settles O59: NaN by `nan32_operand`, `nan32_result` and `nan64_operand`, the order by `Fp.key_lt` and `Fp.key_le`. -/
theorem nanIsCanonicalAndNumbersAreOrdered : Obligations.NanIsCanonicalAndNumbersAreOrdered := by
  unfold Obligations.NanIsCanonicalAndNumbersAreOrdered
  refine ⟨fun a => ⟨finite32_iff a, isNaN32_iff a⟩, fun _ _ => nan32_operand, fun _ _ _ => nan32_result,
    fun i hi j hj z hz y hy => ?_,
    neg32_bits, fun a b ha hb => ?_, finite64_iff, fun a b h => ?_, fun a b ha hb => ?_⟩
  · exact invalid32_operations hi hj hz hy
  · exact ⟨lt32_iff ha hb, le32_iff ha hb, lt32_iff hb ha, le32_iff hb ha⟩
  · exact nan64_operand (h.imp (isNaN64_iff a).mpr (isNaN64_iff b).mpr)
  · exact ⟨lt64_iff ha hb, lt64_iff hb ha, ge64_iff ha hb, max64_eq ha hb⟩

/-- Settles O60: `2^24` has no more than binary32's 24 significant bits (`units_round_nat32`). -/
theorem naturalConversionIsExact : Obligations.NaturalConversionIsExact := by
  unfold Obligations.NaturalConversionIsExact
  intro n hn
  obtain ⟨hunits, hfin⟩ := units_round_nat32 hn
  rw [finite32, unpack32_nat32]
  exact ⟨rfl, decide_eq_true hfin, hunits⟩

end Sys2Proof.Machine
end

section
/-! Proofs for the state invariants (`10_state.md` R30, R34, R36, R37, R42): a step is a chain of changes, each to one
part of the state, and every change keeps the invariants. -/

namespace Sys2Proof.Machine

/-! ## What a step is made of -/

/-- `t` differs from `s` in no field that an invariant speaks of: the constants, RAM and its era, the configuration, the
envelope and the scheduler are the same. (Each field's default proof is for a `t` written as an update of `s`.) -/
structure SameCore (s t : State) : Prop where
  par : t.par = s.par := by rfl
  ram : t.ram = s.ram := by rfl
  era : t.era = s.era := by rfl
  active : t.active = s.active := by rfl
  env : t.env = s.env := by rfl
  grain : t.grain = s.grain := by rfl

/-- One change of the state, with the checks that were made before it. -/
inductive Change (s : State) : State → Prop
  | outside {t : State} (h : SameCore s t) : Change s t
  | softReset : Change s s.softReset
  | hardReset : Change s s.hardReset
  | putRam (r : Region) (i : Nat) (v : Word) (hr : r.hostWritable = true) (hi : i < r.size s.par) :
      Change s (s.putRam r i v)
  | storeParams (p : ParamSet) (hp : validate p = none) (hs : s.active.srValid = false) : Change s (storeParams p s)
  | storeSampleRate (sr : DWord) (hs : sampleRateOk sr = true) (hp : s.active.paramsValid = false) :
      Change s (storeSampleRate sr s)
  | installParams (p : ParamSet) (steps : PerSeg Nat) (hp : validate p = none) (hs : s.active.srValid = true)
      (hr : stepRates s.active.sr p = some steps) : Change s (storeConfig p s.active.sr steps s)
  | installSampleRate (sr : DWord) (steps : PerSeg Nat) (hs : sampleRateOk sr = true)
      (hp : s.active.paramsValid = true) (hr : stepRates sr s.active.params = some steps) :
      Change s (storeConfig s.active.params sr steps s)
  | noteOn (hc : s.active.cfgValid = true) : Change s (s.setEnv (envNoteOn s.tab s.active s.env))
  | noteOff : Change s (s.setEnv (envNoteOff s.tab s.active s.env))
  | envNext : Change s (s.setEnv (envNext s.tab s.active s.env).2)
  | grNext : Change s (s.setGrain (grNext s.par.cap s.src s.grain).2)
  | loadSource (len : Nat) (hz : Word) (hl : len ≤ s.par.lmax) : Change s (s.setGrain (grLoad s.par.cap len hz))
  | setFreq (f t : Word) : Change s (s.setGrain { s.grain with freq := f, trig := t })

/-- Changes one after another. -/
abbrev Changes : State → State → Prop :=
  Relation.ReflTransGen Change

/-- What every change keeps, a chain of changes keeps. -/
theorem Changes.keeps {P : State → Prop} (hP : ∀ s t, Change s t → P s → P t) {s t : State} (h : Changes s t)
    (hs : P s) : P t := by
  induction h with
  | refl => exact hs
  | tail _ hc ih => exact hP _ _ hc ih

theorem Changes.outside {s t u : State} (h : Changes s t) (hu : SameCore t u) : Changes s u :=
  h.tail (.outside hu)

theorem Changes.accept {s t : State} (h : Changes s t) : Changes s t.accept :=
  h.outside {}

theorem Changes.reject (s : State) (c : ErrCode) : Changes s (s.reject c) :=
  .single (.outside {})

/-! ## Commands -/

theorem Changes.of_commitParams {p : ParamSet} {s t : State} (h : commitParams p s = .next t) : Changes s t := by
  rcases commitParams_cases p s with ⟨c, -, e⟩ | ⟨-, -, -, e⟩ | ⟨hp, hs, steps, hr, e⟩ | ⟨hp, hs, e⟩ <;>
    cases e.symm.trans h
  · exact .reject s c
  · exact .reject s .eStep
  · exact Changes.accept (.single (.installParams p steps hp hs hr))
  · exact Changes.accept (.single (.storeParams p hp hs))

theorem Changes.of_commitCandidate {p : ParamSet} {s t : State} (h : commitCandidate p s = .next t) : Changes s t := by
  rcases commitCandidate_cases p s with ⟨-, e⟩ | ⟨-, e⟩
  · cases e.symm.trans h
    exact .reject s .eNocfg
  · exact .of_commitParams (e.symm.trans h)

theorem Changes.of_setSampleRate {s t : State} (h : execSetSampleRate s = .next t) : Changes s t := by
  rcases execSetSampleRate_cases s with ⟨-, e⟩ | ⟨-, -, -, e⟩ | ⟨hs, hp, steps, hr, e⟩ | ⟨hs, hp, e⟩ <;>
    cases e.symm.trans h
  · exact .reject s .eSr
  · exact .reject s .eStep
  · exact Changes.accept (.single (.installSampleRate _ steps hs hp hr))
  · exact Changes.accept (.single (.storeSampleRate _ hs hp))

theorem Changes.of_loadSource {s t : State} (h : execLoadSource s = .next t) : Changes s t := by
  unfold execLoadSource at h
  split at h <;> cases h
  · exact .reject s .eSrclen
  · exact Changes.accept (.single (.loadSource _ _ (Nat.le_of_not_lt ‹_›)))

theorem Changes.of_setFreq {s t : State} (h : execSetFreq s = .next t) : Changes s t := by
  unfold execSetFreq at h
  dsimp only at h
  split at h <;> cases h
  · exact Changes.accept (.single (.setFreq _ _))
  · exact .reject s .eFreq

theorem Changes.of_noteOn {s t : State} (h : execNoteOn s = .next t) : Changes s t := by
  unfold execNoteOn at h
  split at h <;> cases h
  · exact Changes.accept (.outside (.single (.noteOn ‹_›)) {})
  · exact .reject s .eNocfg

/-- A voice tick is a sample of the envelope, one of the scheduler, and a write of the result registers. -/
theorem Changes.voiceTick (s : State) : Changes s (voiceTick s).2 := by
  by_cases h : s.env.stage = .idle
  · rw [voiceTick_idle h]
    exact .single (.outside {})
  · rw [voiceTick_active h]
    exact Changes.outside (.tail (.single .envNext) .grNext) {}

theorem Changes.envApplyElement {s : State} {j : Nat} (hj : j < s.par.bmax) : Changes s (envApplyElement j s) := by
  by_cases h : s.env.stage = .idle
  · rw [envApplyElement_idle j h]
    exact Changes.outside (.single (.putRam .buf j _ rfl hj)) {}
  · rw [envApplyElement_eq j h]
    have hsample : Changes s ((s.setEnv (envNext s.tab s.active s.env).2).putEnvOut (envNext s.tab s.active s.env).1) :=
      Changes.outside (.single .envNext) {}
    exact hsample.tail (.putRam .buf j _ rfl hj)

theorem Changes.voiceFillElement {s : State} {j : Nat} (hj : j < s.par.bmax) : Changes s (voiceFillElement j s) := by
  have hpar : (Machine.voiceTick s).2.par = s.par := by rw [voiceTick_frame]
  exact .tail (Changes.voiceTick s) (.putRam .buf j _ rfl (hpar.symm ▸ hj))

theorem Changes.envApplyLoop {s : State} {n i : Nat} (hn : i + n ≤ s.par.bmax) : Changes s (envApplyLoop n i s) := by
  refine (envApplyLoop_induction (P := fun t => Changes s t ∧ t.par = s.par) n i ?_ ⟨.refl, rfl⟩).1
  intro j t _ hj ⟨ht, hpar⟩
  exact ⟨ht.trans (Changes.envApplyElement (by rw [hpar]; omega)), by rw [envApplyElement_frame]; exact hpar⟩

theorem Changes.voiceFillLoop {s : State} {n i : Nat} (hn : i + n ≤ s.par.bmax) : Changes s (voiceFillLoop n i s) := by
  refine (voiceFillLoop_induction (P := fun t => Changes s t ∧ t.par = s.par) n i ?_ ⟨.refl, rfl⟩).1
  intro j t _ hj ⟨ht, hpar⟩
  exact ⟨ht.trans (Changes.voiceFillElement (by rw [hpar]; omega)), by rw [voiceFillElement_frame]; exact hpar⟩

theorem Changes.of_envApply {s t : State} (h : execEnvApply s = .next t) : Changes s t := by
  rcases execEnvApply_cases s with ⟨-, e⟩ | ⟨hn, e⟩ <;> cases e.symm.trans h
  · exact .reject s .eRange
  · exact Changes.accept (.envApplyLoop hn)

theorem Changes.of_voiceFill {s t : State} (h : execVoiceFill s = .next t) : Changes s t := by
  rcases execVoiceFill_cases s with ⟨-, e⟩ | ⟨hn, e⟩ <;> cases e.symm.trans h
  · exact .reject s .eRange
  · exact Changes.accept (.voiceFillLoop hn)

/-- A command is a chain of changes. -/
theorem Changes.of_exec {i : Instr} {s t : State} (h : exec i s = .next t) : Changes s t := by
  cases i with
  | nop => cases h; exact Changes.accept .refl
  | reset => cases h; exact Changes.accept (.single .softReset)
  | clrErr => cases h; exact Changes.accept (.single (.outside {}))
  | setParams => exact .of_commitParams h
  | setAttack => exact .of_commitCandidate h
  | setDecay => exact .of_commitCandidate h
  | setSustain => exact .of_commitCandidate h
  | setRelease => exact .of_commitCandidate h
  | setSampleRate => exact .of_setSampleRate h
  | loadSource => exact .of_loadSource h
  | setFreq => exact .of_setFreq h
  | noteOn => exact .of_noteOn h
  | noteOff => cases h; exact Changes.accept (.single .noteOff)
  | envTick => cases h; exact Changes.outside (.single .envNext) {}
  | grTick => cases h; exact Changes.outside (.single .grNext) {}
  | voiceTick => cases h; exact Changes.accept (.voiceTick s)
  | envApply => exact .of_envApply h
  | voiceFill => exact .of_voiceFill h

/-! ## Steps -/

/-- An access that carries no command is a chain of changes. -/
theorem Changes.plainInput (x : HostInput) (s : State) : Changes s (plainInput x s) := by
  rcases plainInput_cases x s with ⟨-, e⟩ | ⟨c, e, -⟩ | ⟨v, e⟩ | ⟨r, v, -, -, e⟩ | ⟨v, -, e⟩ | ⟨r, i, v, hr, hi, e⟩ <;>
    rw [e]
  · exact .single .hardReset
  · exact .reject s c
  · exact .single (.outside {})
  · exact .single (.outside {})
  · exact .single (.outside {})
  · exact Changes.accept (.single (.putRam r i v hr hi))

/-- A step is a chain of changes. -/
theorem Changes.of_step {s t : State} (h : step s = .next t) : Changes s t := by
  have hpop : ∀ rest, Changes s (s.setPending rest) :=
    fun _ => .single (.outside {})
  rcases step_cases s with ⟨-, e⟩ | ⟨w, rest, i, -, -, e⟩ | ⟨w, rest, d, -, -, e⟩ | ⟨x, rest, -, -, e⟩ <;>
    rw [e] at h
  · cases h
    exact .refl
  · exact (hpop rest).trans (Changes.of_exec h)
  · cases h
    exact (hpop rest).trans (Changes.reject _ .eCmd)
  · cases h
    exact (hpop rest).trans (Changes.plainInput x _)

/-! ## The state after reset -/

theorem params_wellFormed_iff (p : Config.Params) : p.wellFormed = true ↔
    (1 ≤ p.cap ∧ p.cap ≤ 65535) ∧ (1 ≤ p.lmax ∧ p.lmax ≤ 2 ^ 20) ∧ 1 ≤ p.bmax ∧ p.bmax ≤ 2 ^ 20 := by
  simp only [Config.Params.wellFormed, Bool.and_eq_true, decide_eq_true_eq, and_assoc]

theorem cap_pos_of_wellFormed {p : Config.Params} (h : p.wellFormed = true) : 0 < p.cap := by
  obtain ⟨⟨hcap, -⟩, -⟩ := (params_wellFormed_iff p).mp h
  exact hcap

theorem ConfigInv.reset : ConfigInv Active.reset :=
  ⟨rfl, nofun, nofun, nofun⟩

/-- The reset state of every well-formed machine is sound (`70_reset_and_hazards.md` R231). -/
theorem Sound.resetWith {p : Config.Params} (h : p.wellFormed = true) : Sound (State.resetWith p) where
  par := h
  ram := rfl
  config := .reset
  env := .reset _ nofun
  ring := .reset (cap_pos_of_wellFormed h)

/-- The open parameters are within their bounds (`00_scope.md` R5). -/
theorem params_wellFormed : Config.params.wellFormed = true := by
  have hc := Config.capacityIndex.isLt
  have hl := Config.sourceDepthIndex.isLt
  have hb := Config.bufferDepthIndex.isLt
  rw [params_wellFormed_iff]
  dsimp only [Config.params]
  omega

/-- Settles O15: the open parameters are well formed (`params_wellFormed`), and nothing is configured. -/
theorem resetMeetsInvariants : Obligations.ResetMeetsInvariants :=
  ⟨.resetWith params_wellFormed, nofun⟩

/-! ## The ring invariants -/

/-- The premise of O53: the parameters in bounds and the ring invariants. -/
def RingSound (s : State) : Prop :=
  s.par.wellFormed = true ∧ RingInv s.par s.grain

theorem RingSound.change {s t : State} (hc : Change s t) (h : RingSound s) : RingSound t := by
  obtain ⟨hpar, hring⟩ := h
  have hcap := cap_pos_of_wellFormed hpar
  cases hc with
  | outside hs => exact ⟨hs.par ▸ hpar, by rw [hs.par, hs.grain]; exact hring⟩
  | softReset => exact ⟨hpar, .reset hcap⟩
  | hardReset => exact ⟨hpar, .reset hcap⟩
  | putRam => exact ⟨hpar, hring⟩
  | storeParams => exact ⟨hpar, hring⟩
  | storeSampleRate => exact ⟨hpar, hring⟩
  | installParams => exact ⟨hpar, hring⟩
  | installSampleRate => exact ⟨hpar, hring⟩
  | noteOn => exact ⟨hpar, hring⟩
  | noteOff => exact ⟨hpar, hring⟩
  | envNext => exact ⟨hpar, hring⟩
  | grNext => exact ⟨hpar, hring.next⟩
  | loadSource len hz hl => exact ⟨hpar, .load hcap hl hz⟩
  | setFreq f t => exact ⟨hpar, hring.freq f t⟩

/-- Settles O53: every change that a step is made of keeps the ring invariants (`RingSound.change`). -/
theorem stepKeepsRingInvariants : Obligations.StepKeepsRingInvariants := by
  unfold Obligations.StepKeepsRingInvariants
  intro s t hpar hring hstep
  obtain ⟨-, ht⟩ := (Changes.of_step hstep).keeps (fun _ _ => RingSound.change) ⟨hpar, hring⟩
  exact ⟨ht, ht.count_le, ht.in_source⟩

/-! ## All the invariants -/

/-- In force, every step rate is at least 1 (`40_config_tables.md` R110). -/
theorem ConfigInv.steps_pos {a : Active} (h : ConfigInv a) (hc : a.cfgValid = true) (g : Segment) :
    1 ≤ a.steps.get g :=
  stepRates_pos (h.steps_eq hc) g

/-- In force, the resolution is in `2 .. 4096` (`40_config_tables.md` R113). -/
theorem ConfigInv.resolution_range {a : Active} (h : ConfigInv a) (hc : a.cfgValid = true) :
    2 ≤ a.params.resolution ∧ a.params.resolution ≤ 4096 := by
  rw [h.cfgValid_eq, Bool.and_eq_true] at hc
  exact validate_res (h.params_valid hc.1)

/-- Without a sample rate nothing is in force, whatever parameter set is stored (`40_config_tables.md` R114). -/
theorem ConfigInv.storeParams {a : Active} (h : ConfigInv a) (hs : a.srValid = false) {p : ParamSet}
    (hp : validate p = none) : ConfigInv { a with params := p, paramsValid := true } := by
  have hc : a.cfgValid = false := by rw [h.cfgValid_eq, hs, Bool.and_false]
  exact ⟨by rw [hc, hs]; rfl, fun _ => hp, h.sr_valid, by rw [hc]; nofun⟩

/-- Without a parameter set nothing is in force, whatever sample rate is stored (`40_config_tables.md` R121). -/
theorem ConfigInv.storeSampleRate {a : Active} (h : ConfigInv a) (hp : a.paramsValid = false) {sr : DWord}
    (hs : sampleRateOk sr = true) : ConfigInv { a with sr := sr, srValid := true } := by
  have hc : a.cfgValid = false := by rw [h.cfgValid_eq, hp, Bool.false_and]
  exact ⟨by rw [hc, hp]; rfl, h.params_valid, fun _ => hs, by rw [hc]; nofun⟩

/-- An installed configuration is sound when its two halves are valid and its step rates exist. -/
theorem Sound.storeConfig {s : State} (h : Sound s) {p : ParamSet} {sr : DWord} {steps : PerSeg Nat}
    (hp : validate p = none) (hs : sampleRateOk sr = true) (hr : stepRates sr p = some steps) :
    Sound (storeConfig p sr steps s) where
  par := h.par
  ram := wf_buildTables h.ram
  config := ⟨rfl, fun _ => hp, fun _ => hs, fun _ => hr⟩
  env := .reset _ fun _ => stepRates_pos hr
  ring := h.ring

theorem Sound.setEnv {s : State} (h : Sound s) {e : Env} (he : EnvInv s.active e) : Sound (s.setEnv e) :=
  { h with env := he }

theorem Sound.setGrain {s : State} (h : Sound s) {g : Grain} (hg : RingInv s.par g) : Sound (s.setGrain g) :=
  { h with ring := hg }

/-- Storing one half of a configuration resets the envelope. -/
theorem Sound.setActive_resetEnv {s : State} (h : Sound s) {a : Active} (ha : ConfigInv a) :
    Sound ((s.setActive a).setEnv Env.reset) :=
  { h with config := ha, env := .reset _ ha.steps_pos }

theorem Sound.change {s t : State} (hc : Change s t) (h : Sound s) : Sound t := by
  have hsteps := h.config.steps_pos
  have hcap := cap_pos_of_wellFormed h.par
  cases hc with
  | outside hs =>
    obtain ⟨hpar, hram, -, hactive, henv, hgrain⟩ := hs
    exact ⟨hpar ▸ h.par, hram ▸ h.ram, hactive ▸ h.config, by rw [hactive, henv]; exact h.env,
      by rw [hpar, hgrain]; exact h.ring⟩
  | softReset => exact { Sound.resetWith h.par with ram := h.ram }
  | hardReset => exact { Sound.resetWith h.par with }
  | putRam r i v => exact { h with ram := Memory.wf_write _ _ h.ram }
  | storeParams p hp hs => exact h.setActive_resetEnv (h.config.storeParams hs hp)
  | storeSampleRate sr hs hp => exact h.setActive_resetEnv (h.config.storeSampleRate hp hs)
  | installParams p steps hp hs hr => exact h.storeConfig hp (h.config.sr_valid hs) hr
  | installSampleRate sr steps hs hp hr => exact h.storeConfig (h.config.params_valid hp) hs hr
  | noteOn hcfg => exact h.setEnv (h.env.noteOn hsteps hcfg)
  | noteOff => exact h.setEnv (h.env.noteOff hsteps)
  | envNext => exact h.setEnv (h.env.next hsteps)
  | grNext => exact h.setGrain h.ring.next
  | loadSource len hz hl => exact h.setGrain (.load hcap hl hz)
  | setFreq f t => exact h.setGrain (h.ring.freq f t)

/-- Settles O52: every change that a step is made of keeps a sound state sound (`Sound.change`). -/
theorem stepKeepsInvariants : Obligations.StepKeepsInvariants := by
  unfold Obligations.StepKeepsInvariants
  intro s t h hstep
  exact (Changes.of_step hstep).keeps (fun _ _ => Sound.change) h

/-! ## The tables in force -/

/-- The host writes no table: a write of a RAM word leaves every table entry as it was (`20_memory.md` R66). -/
theorem tab_putRam {s : State} (hpar : s.par.wellFormed = true) {r : Region} {i : Nat} (hr : r.hostWritable = true)
    (hi : i < r.size s.par) (v : Word) (g : Segment) {j : Nat} (hj : j ≤ 4096) :
    (s.putRam r i v).tab g j = s.tab g j := by
  refine State.ramWord_putRam_other s v fun he => ?_
  have hsize := Region.size_le hpar r
  obtain ⟨rfl, -⟩ := ramAddr_inj (by omega) (by omega) he
  cases hr

/-- A built-in shape does not look at `RAW` (`40_config_tables.md` R111). -/
theorem tableEntry_builtIn {p : ParamSet} {g : Segment} (hg : p.selector g < 2) (raw raw' : Segment → Nat → Word)
    (steps : PerSeg Nat) (i : Nat) : tableEntry p raw steps g i = tableEntry p raw' steps g i := by
  unfold tableEntry rawShape
  obtain h | h : p.selector g = 0 ∨ p.selector g = 1 := by omega
  · simp only [h]
  · simp only [h]

/-- A build leaves the tables of the configuration it installs (`40_config_tables.md` R112). -/
theorem TablesBuilt.storeConfig {s : State} {p : ParamSet} (hp : validate p = none) (sr : DWord)
    (steps : PerSeg Nat) : TablesBuilt (storeConfig p sr steps s) := by
  intro _ g i hi hg
  have hread := read_buildTables_at (steps := steps) (s := s) (validate_res hp).2 g hi
  calc (Machine.storeConfig p sr steps s).tab g i
      = (Memory.read (buildTables p steps s) (ramAddr (.tab g) i)).getD _ := rfl
    _ = tableEntry p s.raw steps g i := by rw [hread]; rfl
    _ = _ := tableEntry_builtIn hg _ _ _ _

/-- The tables in force depend on RAM and the configuration alone. -/
theorem TablesBuilt.congr {s t : State} (h : TablesBuilt s) (hram : s.ram = t.ram) (hera : s.era = t.era)
    (hactive : s.active = t.active) : TablesBuilt t := by
  intro hc g i hi hg
  rw [← hactive] at hc hi hg ⊢
  exact (State.ramWord_congr hram hera _ _).symm.trans (h hc g i hi hg)

theorem TablesBuilt.of_unconfigured {s : State} (h : s.active.cfgValid = false) : TablesBuilt s :=
  fun hc => absurd (h.symm.trans hc) Bool.false_ne_true

theorem TablesBuilt.change {s t : State} (hs : Sound s) (hc : Change s t) (h : TablesBuilt s) : TablesBuilt t := by
  have hcfg := hs.config.cfgValid_eq
  cases hc with
  | outside hst => exact h.congr hst.ram.symm hst.era.symm hst.active.symm
  | softReset => exact .of_unconfigured rfl
  | hardReset => exact .of_unconfigured rfl
  | putRam r i v hr hi =>
    intro hv g j hj hg
    have hj' : j ≤ 4096 := Nat.le_trans hj (hs.config.resolution_range hv).2
    exact (tab_putRam hs.par hr hi v g hj').trans (h hv g j hj hg)
  | storeParams p hp hsr => exact .of_unconfigured (by rw [hsr, Bool.and_false] at hcfg; exact hcfg)
  | storeSampleRate sr hsr hp => exact .of_unconfigured (by rw [hp, Bool.false_and] at hcfg; exact hcfg)
  | installParams p steps hp => exact .storeConfig hp _ _
  | installSampleRate sr steps hsr hp => exact .storeConfig (hs.config.params_valid hp) _ _
  | noteOn => exact h.congr rfl rfl rfl
  | noteOff => exact h.congr rfl rfl rfl
  | envNext => exact h.congr rfl rfl rfl
  | grNext => exact h.congr rfl rfl rfl
  | loadSource => exact h.congr rfl rfl rfl
  | setFreq => exact h.congr rfl rfl rfl

/-- Settles O24: every change that a step from a sound state is made of keeps the tables (`TablesBuilt.change`). The chain
passes through sound states only, so soundness is carried along. -/
theorem tablesStayBuilt : Obligations.TablesStayBuilt := by
  unfold Obligations.TablesStayBuilt
  intro s t hs hbuilt hstep
  have hkeeps : ∀ u v, Change u v → Sound u ∧ TablesBuilt u → Sound v ∧ TablesBuilt v :=
    fun _ _ hc ⟨hu, hb⟩ => ⟨hu.change hc, hb.change hu hc⟩
  exact ((Changes.of_step hstep).keeps hkeeps ⟨hs, hbuilt⟩).2

end Sys2Proof.Machine
end

section
/-! Proofs for the registers (`10_state.md` R21 to R29, R36, R43; `20_memory.md` R65): the register map as one list, what
the fields of `STATUS` hold, and which integer elements a 32-bit register shows whole. -/

namespace Sys2Proof.Machine

/-! ## Reads -/

/-- A read of a register, at the register's own address. -/
theorem step_read_reg {s : State} {rest : List HostInput} (r : Reg)
    (h : s.pending = .read (BitVec.ofNat 24 r.offset) :: rest) :
    step s = .next { s with pending := rest, response := some ⟨true, r.read s⟩ } := by
  rw [step_read_mapped h (target_reg s.par r)]
  cases r <;> rfl

theorem step_read_ram {s : State} {rest : List HostInput} {r : Region} {i : Nat} (hpar : s.par.wellFormed = true)
    (hi : i < r.size s.par) (h : s.pending = .read (BitVec.ofNat 24 (ramAddr r i)) :: rest) :
    step s = .next { s with pending := rest, response := some ⟨true, wordAt s (ramAddr r i)⟩ } :=
  step_read_mapped h (target_ram r (Region.size_le hpar r) hi)

/-- Settles O5: the first clause's list is the register map, row by row in the order of `allRegs`. -/
theorem readReturnsValueAndChangesNothing : Obligations.ReadReturnsValueAndChangesNothing := by
  unfold Obligations.ReadReturnsValueAndChangesNothing
  refine ⟨fun s rest x hx h => ?_, fun s rest r => step_read_reg r, fun s rest r i => step_read_ram⟩
  change x ∈ allRegs.map fun r => (r.offset, r.read s) at hx
  obtain ⟨r, -, rfl⟩ := List.mem_map.mp hx
  exact step_read_reg r h

/-- The reset column of `10_state.md` R43. -/
def Reg.resetValue (p : Config.Params) : Reg → Word
  | .cap => natWord p.cap
  | .lmax => natWord p.lmax
  | .bmax => natWord p.bmax
  | .trig => 0x7F800000#32
  | .pShape => 0x14#32
  | _ => 0

theorem Reg.read_resetWith (p : Config.Params) (r : Reg) : r.read (State.resetWith p) = r.resetValue p := by
  cases r with
  | aSrHi => exact (by decide : (0 : DWord).extractLsb' 32 32 = 0#32)
  | _ => rfl

/-- Settles O14: the first clause's list is the register map at reset, row by row in the order of `allRegs`. -/
theorem registerMapAtReset : Obligations.RegisterMapAtReset := by
  unfold Obligations.RegisterMapAtReset
  refine fun p => ⟨fun x hx => ?_, fun off => regAt_unlisted⟩
  change x ∈ allRegs.map fun r => (r.offset, r, r.access, r.resetValue p) at hx
  obtain ⟨r, -, rfl⟩ := List.mem_map.mp hx
  exact ⟨regAt_offset r, rfl, r.read_resetWith p⟩

/-! ## Writes -/

/-- A write of an RW register, at the register's own address. -/
theorem step_write_reg {s : State} {rest : List HostInput} {r : Reg} {v : Word} (hr : r.access = .readWrite)
    (h : s.pending = .write (BitVec.ofNat 24 r.offset) v :: rest) :
    step s = .next { s with
      args := argsWrite v s.args r, staging := stagingWrite v s.staging r, pending := rest
      response := some ⟨true, 0⟩ } := by
  have hcmd : Target.reg r ≠ .reg .cmd := by
    rintro ⟨⟩
    cases hr
  rw [step_write_mapped h (target_reg s.par r) hcmd (by simp [targetWritable, hr])]
  rfl

/-- No register shows a pending transaction or a response. -/
theorem Reg.read_outside (r : Reg) (s : State) (p : List HostInput) (q : Option Response) :
    r.read { s with pending := p, response := q } = r.read s := by
  cases r <;> rfl

/-- Settles O6: the second clause's list is that of the RW rows of the register map, in the order of `allRegs`. -/
theorem writeStoresRegister : Obligations.WriteStoresRegister := by
  unfold Obligations.WriteStoresRegister
  refine ⟨fun s rest r v hr h => ⟨_, step_write_reg hr h, ?_, fun r' hne => ?_, rfl⟩, fun s rest v x hx h => ?_⟩
  · exact (Reg.read_outside r (regWrite r v s) rest _).trans (read_regWrite_same hr v s)
  · exact (Reg.read_outside r' (regWrite r v s) rest _).trans (read_regWrite_other hne v s)
  · change x ∈ (allRegs.filter (·.access = .readWrite)).map fun r =>
      (r.offset, argsWrite v s.args r, stagingWrite v s.staging r) at hx
    obtain ⟨r, hr, rfl⟩ := List.mem_map.mp hx
    obtain ⟨-, hrw⟩ := List.mem_filter.mp hr
    exact step_write_reg (of_decide_eq_true hrw) h

/-! ## `STATUS` and `ERRCODE` -/

theorem Stage.code_le (g : Stage) : g.code ≤ 4 := by
  cases g <;> decide

theorem bit_le (b : Bool) : bit b ≤ 1 := by
  cases b <;> decide

theorem bit_eq_one (b : Bool) : bit b = 1 ↔ b = true := by
  cases b <;> decide

theorem activeFlag_eq_true (s : State) : activeFlag s = true ↔ s.env.stage ≠ .idle :=
  bne_iff_ne

/-- The fields of `STATUS` fit in bits 7:0, so that the word is their sum (`10_state.md` R24). -/
theorem statusWord_toNat (s : State) :
    (statusWord s).toNat = s.env.stage.code + bit (activeFlag s) * 8 + bit s.active.paramsValid * 16
      + bit s.active.srValid * 32 + bit s.active.cfgValid * 64 + bit s.error.err * 128 := by
  have hstage := s.env.stage.code_le
  have hactive := bit_le (activeFlag s)
  have hparams := bit_le s.active.paramsValid
  have hsr := bit_le s.active.srValid
  have hcfg := bit_le s.active.cfgValid
  have herr := bit_le s.error.err
  rw [statusWord, BitVec.toNat_ofNat]
  exact Nat.mod_eq_of_lt (by omega)

/-- A sum of a field below 8 and five bits above it, field by field. -/
theorem status_fields {n a b c d e w : Nat} (hn : n ≤ 4) (ha : a ≤ 1) (hb : b ≤ 1) (hc : c ≤ 1) (hd : d ≤ 1)
    (he : e ≤ 1) (hw : w = n + a * 8 + b * 16 + c * 32 + d * 64 + e * 128) :
    w % 8 = n ∧ w / 8 % 2 = a ∧ w / 16 % 2 = b ∧ w / 32 % 2 = c ∧ w / 64 % 2 = d ∧ w / 128 % 2 = e ∧ w / 256 = 0 := by
  omega

/-- Settles O11: each field of `STATUS` by `status_fields`. -/
theorem statusFieldsReadBack : Obligations.StatusFieldsReadBack := by
  unfold Obligations.StatusFieldsReadBack
  intro s
  obtain ⟨hstage, hactive, hparams, hsr, hcfg, herr, hzero⟩ := status_fields s.env.stage.code_le
    (bit_le (activeFlag s)) (bit_le s.active.paramsValid) (bit_le s.active.srValid) (bit_le s.active.cfgValid)
    (bit_le s.error.err) (statusWord_toNat s)
  rw [hstage, hactive, hparams, hsr, hcfg, herr, bit_eq_one, bit_eq_one, bit_eq_one, bit_eq_one, bit_eq_one,
    activeFlag_eq_true]
  refine ⟨?_, .rfl, .rfl, .rfl, .rfl, .rfl, hzero, ?_⟩
  · cases s.env.stage <;> rfl
  · rw [errcodeWord]
    cases s.error.code <;> rfl

/-! ## Integer registers -/

theorem natWord_toNat {n : Nat} (h : n < 2 ^ 32) : (natWord n).toNat = n := by
  rw [natWord, BitVec.toNat_ofNat, Nat.mod_eq_of_lt h]

/-- In force, each segment's step rate is that of the active parameters, in `1 .. 2^31 − 1` (`40_config_tables.md` R110). -/
theorem ConfigInv.stepRate_get {a : Active} (h : ConfigInv a) (hc : a.cfgValid = true) (g : Segment) :
    stepRate a.sr a.params.resolution (a.params.duration g) = some (a.steps.get g) ∧
      1 ≤ a.steps.get g ∧ a.steps.get g < 2 ^ 31 := by
  obtain ⟨hattack, hdecay, hrelease⟩ := stepRates_eq_some (h.steps_eq hc)
  cases g with
  | attack => exact ⟨hattack, stepRate_range hattack⟩
  | decay => exact ⟨hdecay, stepRate_range hdecay⟩
  | release => exact ⟨hrelease, stepRate_range hrelease⟩

/-- Settles O22: the bounds of the parameters bound the ring's counters (`RingInv`), and R110 bounds the step rates. -/
theorem integerRegistersShowTheirElements : Obligations.IntegerRegistersShowTheirElements := by
  unfold Obligations.IntegerRegistersShowTheirElements
  intro s hs
  obtain ⟨⟨hcap0, hcap⟩, ⟨-, hlmax⟩, -, hbmax⟩ := (params_wellFormed_iff s.par).mp hs.par
  have hlen := hs.ring.len_le
  have hcount := hs.ring.count_le
  have hhead := hs.ring.head_lt
  have htail : s.grain.tail < s.par.cap := by
    rw [hs.ring.tail_eq]
    exact Nat.mod_lt _ hcap0
  refine ⟨natWord_toNat (by omega), natWord_toNat (by omega), natWord_toNat (by omega), natWord_toNat (by omega),
    natWord_toNat (by omega), natWord_toNat (by omega), natWord_toNat (by omega), fun hc => ?_⟩
  have hstep : ∀ g, (natWord (s.active.steps.get g)).toNat = s.active.steps.get g := fun g => by
    obtain ⟨-, -, hlt⟩ := hs.config.stepRate_get hc g
    exact natWord_toNat (by omega)
  refine ⟨hstep .attack, hstep .decay, hstep .release, fun g => ?_⟩
  obtain ⟨hrate, hpos, hlt⟩ := hs.config.stepRate_get hc g
  exact ⟨hrate, hpos, Nat.le_pred_of_lt hlt⟩

end Sys2Proof.Machine
end

section
/-! Proofs for the snapshot rule (`20_memory.md` R73): the relation `SameToSamplePath` gives two states the same view of
everything the sample path reads, and each of the updates that a sample-path command is made of keeps it. -/

namespace Sys2Proof.Machine

namespace SameToSamplePath

/-! ## What two related states share -/

section
variable {s t : State} (h : SameToSamplePath s t)
include h

theorem par : s.par = t.par := by
  obtain ⟨m, e⟩ := h.rest
  exact (congrArg State.par e).symm

theorem args : s.args = t.args := by
  obtain ⟨m, e⟩ := h.rest
  exact (congrArg State.args e).symm

theorem results : s.results = t.results := by
  obtain ⟨m, e⟩ := h.rest
  exact (congrArg State.results e).symm

theorem active : s.active = t.active := by
  obtain ⟨m, e⟩ := h.rest
  exact (congrArg State.active e).symm

theorem env : s.env = t.env := by
  obtain ⟨m, e⟩ := h.rest
  exact (congrArg State.env e).symm

theorem grain : s.grain = t.grain := by
  obtain ⟨m, e⟩ := h.rest
  exact (congrArg State.grain e).symm

theorem noteAmp : s.noteAmp = t.noteAmp := by
  obtain ⟨m, e⟩ := h.rest
  exact (congrArg State.noteAmp e).symm

theorem tab : s.tab = t.tab :=
  funext₂ fun g i => h.words (.tab g) i nofun

theorem src : s.src = t.src :=
  funext fun i => h.words .src i nofun

theorem buf (i : Nat) : s.buf i = t.buf i :=
  h.words .buf i nofun

/-! ## The updates that keep the relation, with equal values on both sides -/

theorem setEnv {e e' : Env} (he : e = e') : SameToSamplePath (s.setEnv e) (t.setEnv e') := by
  obtain ⟨m, hm⟩ := h.rest
  exact ⟨h.words, m, he ▸ congrArg (State.setEnv · e) hm⟩

theorem setGrain {g g' : Grain} (hg : g = g') : SameToSamplePath (s.setGrain g) (t.setGrain g') := by
  obtain ⟨m, hm⟩ := h.rest
  exact ⟨h.words, m, hg ▸ congrArg (State.setGrain · g) hm⟩

theorem setResults {v v' : Results} (hv : v = v') : SameToSamplePath (s.setResults v) (t.setResults v') := by
  obtain ⟨m, hm⟩ := h.rest
  exact ⟨h.words, m, hv ▸ congrArg (State.setResults · v) hm⟩

theorem setNoteAmp {v v' : Word} (hv : v = v') : SameToSamplePath (s.setNoteAmp v) (t.setNoteAmp v') := by
  obtain ⟨m, hm⟩ := h.rest
  exact ⟨h.words, m, hv ▸ congrArg (State.setNoteAmp · v) hm⟩

/-- A store of the same word on both sides, to whatever region. -/
theorem putRam (r : Region) (i : Nat) {v v' : Word} (hv : v = v') :
    SameToSamplePath (s.putRam r i v) (t.putRam r i v') := by
  subst hv
  obtain ⟨m, hm⟩ := h.rest
  refine ⟨fun r' j hr => ?_, Memory.write m (ramAddr r i) v, congrArg (State.putRam · r i v) hm⟩
  have hword : wordAt s (ramAddr r' j) = wordAt t (ramAddr r' j) := h.words r' j hr
  rw [← wordAt_ramAddr, ← wordAt_ramAddr, wordAt_putRam, wordAt_putRam, hword]

theorem putEnvOut {v v' : Word} (hv : v = v') : SameToSamplePath (s.putEnvOut v) (t.putEnvOut v') :=
  h.setResults (by rw [h.results, hv])

theorem putGrOut {v v' : Word} (hv : v = v') : SameToSamplePath (s.putGrOut v) (t.putGrOut v') :=
  h.setResults (by rw [h.results, hv])

theorem putVoiceOut {v v' : Word} (hv : v = v') : SameToSamplePath (s.putVoiceOut v) (t.putVoiceOut v') :=
  h.setResults (by rw [h.results, hv])

theorem accept : SameToSamplePath s.accept t.accept := by
  obtain ⟨m, hm⟩ := h.rest
  exact ⟨h.words, m, congrArg State.accept hm⟩

theorem reject (c : ErrCode) : SameToSamplePath (s.reject c) (t.reject c) := by
  obtain ⟨m, hm⟩ := h.rest
  exact ⟨h.words, m, congrArg (State.reject · c) hm⟩

/-! ## The sample-path operations -/

/-- One envelope sample is the same on both sides (`41_envelope.md` R134). -/
theorem envNextState :
    (envNextState s).1 = (envNextState t).1 ∧ SameToSamplePath (envNextState s).2 (envNextState t).2 := by
  have he : envNext s.tab s.active s.env = envNext t.tab t.active t.env := by rw [h.tab, h.active, h.env]
  rw [Machine.envNextState, Machine.envNextState, he]
  exact ⟨rfl, h.setEnv rfl⟩

/-- One sample of the scheduler is the same on both sides (`42_grain.md` R163). -/
theorem grNextState :
    (grNextState s).1 = (grNextState t).1 ∧ SameToSamplePath (grNextState s).2 (grNextState t).2 := by
  have hg : grNext s.par.cap s.src s.grain = grNext t.par.cap t.src t.grain := by rw [h.par, h.src, h.grain]
  rw [Machine.grNextState, Machine.grNextState, hg]
  exact ⟨rfl, h.setGrain rfl⟩

/-- One voice tick is the same on both sides (`43_voice.md` R180). -/
theorem voiceTick : (voiceTick s).1 = (voiceTick t).1 ∧ SameToSamplePath (voiceTick s).2 (voiceTick t).2 := by
  unfold Machine.voiceTick
  rw [← h.env, ← h.noteAmp]
  split
  · exact ⟨rfl, (h.putEnvOut rfl).putVoiceOut rfl⟩
  · obtain ⟨he, hs⟩ := h.envNextState
    obtain ⟨hg, hs⟩ := hs.grNextState
    dsimp only
    rw [he, hg]
    exact ⟨rfl, ((hs.putEnvOut rfl).putGrOut rfl).putVoiceOut rfl⟩

theorem envApplyElement (i : Nat) : SameToSamplePath (envApplyElement i s) (envApplyElement i t) := by
  unfold Machine.envApplyElement
  rw [← h.env]
  split
  · exact (h.putRam .buf i rfl).putEnvOut rfl
  · obtain ⟨he, hs⟩ := h.envNextState
    exact (hs.putEnvOut he).putRam .buf i (by rw [h.buf, he])

theorem voiceFillElement (i : Nat) : SameToSamplePath (voiceFillElement i s) (voiceFillElement i t) := by
  obtain ⟨hv, hs⟩ := h.voiceTick
  exact hs.putRam .buf i hv

theorem blockOutOfRange : blockOutOfRange s = blockOutOfRange t := by
  rw [Machine.blockOutOfRange, Machine.blockOutOfRange, blockStart, blockStart, blockCount, blockCount, h.par, h.args]

end

theorem envApplyLoop (n i : Nat) {s t : State} (h : SameToSamplePath s t) :
    SameToSamplePath (envApplyLoop n i s) (envApplyLoop n i t) := by
  induction n generalizing i s t with
  | zero => exact h
  | succ n ih => exact ih (i + 1) (h.envApplyElement i)

theorem voiceFillLoop (n i : Nat) {s t : State} (h : SameToSamplePath s t) :
    SameToSamplePath (voiceFillLoop n i s) (voiceFillLoop n i t) := by
  induction n generalizing i s t with
  | zero => exact h
  | succ n ih => exact ih (i + 1) (h.voiceFillElement i)

end SameToSamplePath

/-! ## The commands -/

/-- Two commands end alike: in related states, and with the same response. -/
def EndAlike (x y : Host.Outcome State Fault Refusal) : Prop :=
  ∀ s t, x = .next s → y = .next t → SameToSamplePath s t ∧ s.response = t.response

theorem EndAlike.accepted {s t : State} (h : SameToSamplePath s t) : EndAlike (accepted s) (accepted t) := by
  rintro _ _ ⟨⟩ ⟨⟩
  exact ⟨h.accept, rfl⟩

theorem EndAlike.rejected {s t : State} (h : SameToSamplePath s t) (c : ErrCode) :
    EndAlike (rejected c s) (rejected c t) := by
  rintro _ _ ⟨⟩ ⟨⟩
  exact ⟨h.reject c, rfl⟩

namespace SameToSamplePath

variable {s t : State} (h : SameToSamplePath s t)
include h

theorem execEnvTick : EndAlike (execEnvTick s) (execEnvTick t) := by
  obtain ⟨he, hs⟩ := h.envNextState
  exact .accepted (hs.putEnvOut he)

theorem execGrTick : EndAlike (execGrTick s) (execGrTick t) := by
  obtain ⟨hg, hs⟩ := h.grNextState
  exact .accepted (hs.putGrOut hg)

theorem execVoiceTick : EndAlike (execVoiceTick s) (execVoiceTick t) :=
  .accepted h.voiceTick.2

theorem execEnvApply : EndAlike (execEnvApply s) (execEnvApply t) := by
  unfold Machine.execEnvApply
  rw [← h.blockOutOfRange, blockCount, blockCount, blockStart, blockStart, h.args]
  split
  · exact .rejected h .eRange
  · exact .accepted (h.envApplyLoop _ _)

theorem execVoiceFill : EndAlike (execVoiceFill s) (execVoiceFill t) := by
  unfold Machine.execVoiceFill
  rw [← h.blockOutOfRange, blockCount, blockCount, blockStart, blockStart, h.args]
  split
  · exact .rejected h .eRange
  · exact .accepted (h.voiceFillLoop _ _)

theorem execNoteOn : EndAlike (execNoteOn s) (execNoteOn t) := by
  unfold Machine.execNoteOn
  rw [amplitudeOperand, amplitudeOperand, h.args, h.active, h.env, h.tab]
  split
  · exact .accepted ((h.setNoteAmp rfl).setEnv rfl)
  · exact .rejected h .eNocfg

theorem execNoteOff : EndAlike (execNoteOff s) (execNoteOff t) :=
  .accepted (h.setEnv (by rw [h.tab, h.active, h.env]))

end SameToSamplePath

/-- Settles O54: every update a sample-path command is made of writes the same values on both sides, because what it
reads is the same (`SameToSamplePath.envNextState`, `SameToSamplePath.grNextState`). -/
theorem samplePathReadsOnlyActiveState : Obligations.SamplePathReadsOnlyActiveState := by
  unfold Obligations.SamplePathReadsOnlyActiveState
  intro s t s' t' i hi h hs ht
  have hend : EndAlike (exec i s) (exec i t) := by
    fin_cases hi
    · exact h.execEnvTick
    · exact h.execGrTick
    · exact h.execVoiceTick
    · exact h.execEnvApply
    · exact h.execVoiceFill
    · exact h.execNoteOn
    · exact h.execNoteOff
  exact hend s' t' hs ht

end Sys2Proof.Machine
end

section
/-! Proofs for the bus (`20_memory.md` R60, R61, R65 to R67, R71): what a step does at each kind of address, and a write
followed by a read of the same word. -/

namespace Sys2Proof.Machine

/-! ## Commands -/

/-- Settles O1: `step_command`, with the transaction taken off `pending` by a record update. -/
theorem stepRunsDecodedCommand : Obligations.StepRunsDecodedCommand := by
  unfold Obligations.StepRunsDecodedCommand
  exact fun _ _ _ _ h hd => step_command h hd

/-! ## RAM words -/

theorem Region.hostWritable_of_ne_tab {r : Region} (hr : ∀ g, r ≠ .tab g) : r.hostWritable = true := by
  cases r with
  | tab g => exact absurd rfl (hr g)
  | raw g => rfl
  | src => rfl
  | buf => rfl

/-- A write of a RAM word the host may write, at the word's own address. -/
theorem step_write_ram {s : State} {rest : List HostInput} {r : Region} {i : Nat} {v : Word}
    (hpar : s.par.wellFormed = true) (hr : r.hostWritable = true) (hi : i < r.size s.par)
    (h : s.pending = .write (BitVec.ofNat 24 (ramAddr r i)) v :: rest) :
    step s = .next ((s.setPending rest).putRam r i v).accept :=
  step_write_mapped h (target_ram r (Region.size_le hpar r) hi) nofun hr

/-- Settles O7: the step is a `putRam` (`step_write_ram`), which changes the one word (`wordAt_putRam`). -/
theorem writeStoresRamWord : Obligations.WriteStoresRamWord := by
  unfold Obligations.WriteStoresRamWord
  intro s rest r i v hpar hr hi h
  have hword : ∀ a, wordAt ((s.setPending rest).putRam r i v).accept a = if a = ramAddr r i then v else wordAt s a :=
    wordAt_putRam (s.setPending rest) r i v
  refine ⟨_, step_write_ram hpar (Region.hostWritable_of_ne_tab hr) hi h, ?_, fun a ha => ?_, rfl⟩
  · rw [hword, if_pos rfl]
  · rw [hword, if_neg ha]

/-! ## A write, then a read -/

theorem runSteps_two {s u t : State} (hs : step s = .next u) (hu : step u = .next t) : runSteps 2 s = .next t := by
  simp only [runSteps, Host.Core.run, core, hs, hu]

/-- Settles O8: the write leaves the word and the read pending (O6, O7), and the read returns it (O5). -/
theorem readAfterWriteReturnsWord : Obligations.ReadAfterWriteReturnsWord := by
  unfold Obligations.ReadAfterWriteReturnsWord
  refine ⟨fun s rest r v hr h => ?_, fun s rest r i v hpar hr hi h => ?_⟩
  · obtain ⟨u, hu, hread, -, hrest⟩ := writeStoresRegister.1 s _ r v hr h
    have hpending : u.pending = .read (BitVec.ofNat 24 r.offset) :: rest := congrArg State.pending hrest
    refine ⟨_, runSteps_two hu (step_read_reg r hpending), ?_, rfl⟩
    rw [hread]
  · obtain ⟨u, hu, hword, -, hrest⟩ := writeStoresRamWord s _ r i v hpar hr hi h
    have hpending : u.pending = .read (BitVec.ofNat 24 (ramAddr r i)) :: rest := congrArg State.pending hrest
    have hpar' : u.par = s.par := by rw [hrest]
    refine ⟨_, runSteps_two hu (step_read_ram (hpar' ▸ hpar) (hpar' ▸ hi) hpending), ?_, rfl⟩
    rw [hword]

/-! ## Rejected accesses -/

/-- Settles O9: the read-only registers and the tables are mapped and not writable (`step_write_readOnly`). -/
theorem readOnlyWriteRejected : Obligations.ReadOnlyWriteRejected := by
  unfold Obligations.ReadOnlyWriteRejected
  refine ⟨rfl, fun s rest r v hr h => ?_, fun s rest g i v hi h => ?_, fun s rest h => step_read_reg .cmd h⟩
  · have hcmd : Target.reg r ≠ .reg .cmd := by
      rintro ⟨⟩
      cases hr
    exact step_write_readOnly h (target_reg s.par r) hcmd (by simp [targetWritable, hr])
  · have hsize : (Region.tab g).size s.par = 4097 := rfl
    exact step_write_readOnly h (target_ram (.tab g) (by omega) (by omega)) nofun rfl

/-- An offset with no register is unmapped (`10_state.md` R43). -/
theorem target_noRegister {p : Config.Params} {a : Addr} (h0 : regionField a = 0) (h : regAt (offsetField a) = none) :
    target p a = none := by
  rw [target, if_pos h0, h]
  rfl

/-- An offset that is beyond whatever region has the address's number is unmapped; so is a number of no region
(`20_memory.md` R61). -/
theorem target_beyond {p : Config.Params} {a : Addr} (h0 : regionField a ≠ 0)
    (h : ∀ r : Region, r.code = regionField a → r.size p ≤ offsetField a) : target p a = none := by
  rw [target, if_neg h0]
  cases hr : regionOfCode (regionField a) with
  | none => rfl
  | some r =>
    have hbeyond := h r (regionOfCode_eq_some hr)
    exact if_neg (by omega)

/-- Regions 1 to 6 are those of `RAW` and `TAB` (`20_memory.md` R61). -/
theorem Region.size_of_code_le {p : Config.Params} {r : Region} (h : r.code ≤ 6) : r.size p = 4097 := by
  cases r with
  | raw g => rfl
  | tab g => rfl
  | src => exact absurd h (by decide)
  | buf => exact absurd h (by decide)

/-- The addresses of `20_memory.md` R61 and `10_state.md` R43 that name nothing. -/
theorem target_unmapped {p : Config.Params} {a : Addr}
    (h : 9 ≤ regionField a ∨
      (1 ≤ regionField a ∧ regionField a ≤ 6 ∧ 4097 ≤ offsetField a) ∨
      (regionField a = 7 ∧ p.lmax ≤ offsetField a) ∨
      (regionField a = 8 ∧ p.bmax ≤ offsetField a) ∨
      (regionField a = 0 ∧ (offsetField a = 0x0F ∨ (0x1B ≤ offsetField a ∧ offsetField a ≤ 0x1F) ∨
        0x32 ≤ offsetField a))) : target p a = none := by
  rcases h with hreserved | ⟨hpos, hle, hoff⟩ | ⟨hsrc, hoff⟩ | ⟨hbuf, hoff⟩ | ⟨hreg, hoff⟩
  · refine target_beyond (by omega) fun r hr => ?_
    have hlt := r.code_lt
    omega
  · refine target_beyond (by omega) fun r hr => ?_
    rw [Region.size_of_code_le (by omega)]
    exact hoff
  · refine target_beyond (by omega) fun r hr => ?_
    obtain rfl : r = .src := Region.code_inj (hr.trans hsrc)
    exact hoff
  · refine target_beyond (by omega) fun r hr => ?_
    obtain rfl : r = .buf := Region.code_inj (hr.trans hbuf)
    exact hoff
  · exact target_noRegister hreg (regAt_unlisted hoff)

/-- Settles O10: the listed addresses name nothing (`target_unmapped`). -/
theorem unmappedAccessRejected : Obligations.UnmappedAccessRejected := by
  unfold Obligations.UnmappedAccessRejected
  refine ⟨rfl, fun s rest a v ha h => ?_⟩
  have ht : target s.par a = none := target_unmapped ha
  rcases h with hread | hwrite
  · exact step_read_unmapped hread ht
  · exact step_write_unmapped hwrite ht

end Sys2Proof.Machine
end

section
/-! Proofs for the frames (`20_memory.md` R70): what each family of commands leaves unchanged. -/

namespace Sys2Proof.Machine

/-! ## Note, tick, source and frequency commands -/

/-- Everything `NOTE_ON` can do (`41_envelope.md` R136). -/
theorem execNoteOn_cases (s : State) :
    (s.active.cfgValid = true ∧
      execNoteOn s = .next ((s.setNoteAmp s.args.arg0).setEnv (envNoteOn s.tab s.active s.env)).accept) ∨
    (s.active.cfgValid = false ∧ execNoteOn s = .next (s.reject .eNocfg)) := by
  unfold execNoteOn
  cases h : s.active.cfgValid
  · exact .inr ⟨rfl, rfl⟩
  · exact .inl ⟨rfl, rfl⟩

/-- Everything `LOAD_SOURCE` can do (`42_grain.md` R161). -/
theorem execLoadSource_cases (s : State) :
    (s.par.lmax < stagedSourceLength s ∧ execLoadSource s = .next (s.reject .eSrclen)) ∨
    (stagedSourceLength s ≤ s.par.lmax ∧ execLoadSource s =
      .next (s.setGrain (grLoad s.par.cap (stagedSourceLength s) s.staging.grainHz)).accept) := by
  by_cases h : s.par.lmax < stagedSourceLength s
  · exact .inl ⟨h, if_pos h⟩
  · exact .inr ⟨Nat.le_of_not_lt h, if_neg h⟩

/-- Everything `SET_FREQ` can do (`42_grain.md` R162). -/
theorem execSetFreq_cases (s : State) :
    ((finite32 s.args.arg0 && gt32 s.args.arg0 posZero32) = true ∧ execSetFreq s =
      .next (s.setGrain { s.grain with
        freq := s.args.arg0, trig := trigOf s.grain.len s.grain.hz s.args.arg0 }).accept) ∨
    ((finite32 s.args.arg0 && gt32 s.args.arg0 posZero32) = false ∧ execSetFreq s = .next (s.reject .eFreq)) := by
  cases h : finite32 s.args.arg0 && gt32 s.args.arg0 posZero32
  · exact .inr ⟨rfl, if_neg (by rw [frequencyOperand, h]; nofun)⟩
  · exact .inl ⟨rfl, if_pos h⟩

/-- `NOTE_OFF` by the envelope after it (`41_envelope.md` R137). -/
theorem execNoteOff_eq (s : State) : execNoteOff s = .next (s.setEnv (envNoteOff s.tab s.active s.env)).accept :=
  rfl

/-- `ENV_TICK` by the envelope's sample (`41_envelope.md` R138). -/
theorem execEnvTick_eq (s : State) : execEnvTick s =
    .next ((s.setEnv (envNext s.tab s.active s.env).2).putEnvOut (envNext s.tab s.active s.env).1).accept :=
  rfl

/-- `GR_TICK` by the scheduler's sample (`42_grain.md` R164). -/
theorem execGrTick_eq (s : State) : execGrTick s =
    .next ((s.setGrain (grNext s.par.cap s.src s.grain).2).putGrOut (grNext s.par.cap s.src s.grain).1).accept :=
  rfl

theorem execNoteOn_frame {s t : State} (h : execNoteOn s = .next t) :
    t = { s with noteAmp := t.noteAmp, env := t.env, error := t.error, response := t.response } := by
  rcases execNoteOn_cases s with ⟨-, e⟩ | ⟨-, e⟩ <;> cases e.symm.trans h <;> rfl

theorem execNoteOff_frame {s t : State} (h : execNoteOff s = .next t) :
    t = { s with env := t.env, response := t.response } := by
  rw [execNoteOff_eq] at h
  generalize envNoteOff s.tab s.active s.env = e at h
  cases h
  rfl

theorem execEnvTick_frame {s t : State} (h : execEnvTick s = .next t) :
    t = { s with env := t.env, results := { s.results with env := t.results.env }, response := t.response } := by
  rw [execEnvTick_eq] at h
  generalize envNext s.tab s.active s.env = x at h
  cases h
  rfl

/-- `GR_TICK` moves the scheduler by one call, which keeps its source and its interval (`grNext_frame`). -/
theorem execGrTick_frame {s t : State} (h : execGrTick s = .next t) :
    t = { s with
      grain := { s.grain with acc := t.grain.acc, head := t.grain.head, tail := t.grain.tail,
                              count := t.grain.count, cur := t.grain.cur }
      results := { s.results with gr := t.results.gr }, response := t.response } := by
  rw [execGrTick_eq] at h
  have hgrain := grNext_frame s.par.cap s.src s.grain
  generalize grNext s.par.cap s.src s.grain = x at h hgrain
  cases h
  exact congrArg (fun g => ((s.setGrain g).putGrOut x.1).accept) hgrain

/-- `VOICE_TICK` moves the scheduler as `GR_TICK` does, or not at all (`voiceTick_grainFrame`). -/
theorem execVoiceTick_frame {s t : State} (h : execVoiceTick s = .next t) :
    t = { s with
      env := t.env, results := t.results, response := t.response
      grain := { s.grain with acc := t.grain.acc, head := t.grain.head, tail := t.grain.tail,
                              count := t.grain.count, cur := t.grain.cur } } := by
  cases h
  have hgrain := voiceTick_grainFrame s
  rw [voiceTick_frame s]
  generalize (voiceTick s).2 = u at hgrain ⊢
  dsimp only [State.accept, State.setResponse]
  rw [← hgrain]

theorem execLoadSource_frame {s t : State} (h : execLoadSource s = .next t) :
    t = { s with grain := t.grain, error := t.error, response := t.response } := by
  rcases execLoadSource_cases s with ⟨-, e⟩ | ⟨-, e⟩ <;> cases e.symm.trans h <;> rfl

theorem execSetFreq_frame {s t : State} (h : execSetFreq s = .next t) :
    t = { s with
      grain := { s.grain with freq := t.grain.freq, trig := t.grain.trig }
      error := t.error, response := t.response } := by
  rcases execSetFreq_cases s with ⟨-, e⟩ | ⟨-, e⟩
  · generalize trigOf s.grain.len s.grain.hz s.args.arg0 = interval at e
    cases e.symm.trans h
    rfl
  · cases e.symm.trans h
    rfl

/-- Settles O55: one frame per command. -/
theorem tickAndNoteFrames : Obligations.TickAndNoteFrames := by
  unfold Obligations.TickAndNoteFrames
  exact fun _ _ => ⟨execNoteOn_frame, execNoteOff_frame, execEnvTick_frame, execGrTick_frame, execVoiceTick_frame,
    execLoadSource_frame, execSetFreq_frame⟩

/-! ## Block commands -/

/-- `ENV_APPLY` writes its range of `BUF`, the envelope and `ENV_OUT`. -/
theorem execEnvApply_frame {s t : State} (h : execEnvApply s = .next t) :
    (∀ a, ¬ IsBufAddr s.args.arg0.toNat s.args.arg1.toNat a → wordAt t a = wordAt s a) ∧
    t = { s with ram := t.ram, env := t.env, results := { s.results with env := t.results.env },
                 error := t.error, response := t.response } := by
  rcases execEnvApply_cases s with ⟨-, e⟩ | ⟨-, e⟩ <;> cases e.symm.trans h
  · exact ⟨fun _ _ => rfl, rfl⟩
  · refine ⟨fun a ha => envApplyLoop_wordAt s ha, ?_⟩
    rw [envApplyLoop_frame]
    rfl

/-- `VOICE_FILL` writes its range of `BUF` and moves the envelope, the scheduler and the results as its ticks do. -/
theorem execVoiceFill_frame {s t : State} (h : execVoiceFill s = .next t) :
    (∀ a, ¬ IsBufAddr s.args.arg0.toNat s.args.arg1.toNat a → wordAt t a = wordAt s a) ∧
    t = { s with
      ram := t.ram, env := t.env, results := t.results, error := t.error, response := t.response
      grain := { s.grain with acc := t.grain.acc, head := t.grain.head, tail := t.grain.tail,
                              count := t.grain.count, cur := t.grain.cur } } := by
  rcases execVoiceFill_cases s with ⟨-, e⟩ | ⟨-, e⟩ <;> cases e.symm.trans h
  · exact ⟨fun _ _ => rfl, rfl⟩
  · refine ⟨fun a ha => voiceFillLoop_wordAt s ha, ?_⟩
    have hgrain := voiceFillLoop_grainFrame s.args.arg1.toNat s.args.arg0.toNat s
    rw [voiceFillLoop_frame]
    generalize voiceFillLoop s.args.arg1.toNat s.args.arg0.toNat s = u at hgrain ⊢
    dsimp only [State.accept, State.setResponse]
    rw [← hgrain]

/-- Settles O56: the loops write inside their range (`envApplyLoop_wordAt`, `voiceFillLoop_wordAt`), and a rejection
writes nothing. -/
theorem blockCommandFrames : Obligations.BlockCommandFrames := by
  unfold Obligations.BlockCommandFrames
  exact fun _ _ => ⟨execEnvApply_frame, execVoiceFill_frame⟩

/-! ## Configuration commands -/

/-- What a configuration command may change: entries `0..R` of the tables, `R` the resolution it leaves, the active
registers, the envelope, the error registers and the response. -/
def ConfigFrame (s t : State) : Prop :=
  (∀ a, ¬ IsTableAddr t.active.params.res.toNat a → wordAt t a = wordAt s a) ∧
  t = { s with ram := t.ram, active := t.active, env := t.env, error := t.error, response := t.response }

theorem ConfigFrame.reject (s : State) (c : ErrCode) : ConfigFrame s (s.reject c) :=
  ⟨fun _ _ => rfl, rfl⟩

theorem ConfigFrame.storeParams (p : ParamSet) (s : State) : ConfigFrame s (storeParams p s).accept :=
  ⟨fun _ _ => rfl, rfl⟩

theorem ConfigFrame.storeSampleRate (sr : DWord) (s : State) : ConfigFrame s (storeSampleRate sr s).accept :=
  ⟨fun _ _ => rfl, rfl⟩

/-- A build writes the entries `0..R` of the set it installs (`40_config_tables.md` R112). -/
theorem ConfigFrame.storeConfig (p : ParamSet) (sr : DWord) (steps : PerSeg Nat) (s : State) :
    ConfigFrame s (storeConfig p sr steps s).accept := by
  refine ⟨fun a ha => ?_, rfl⟩
  have hread : Memory.read (buildTables p steps s) a = Memory.read s.ram a := read_buildTables_out ha
  exact congrArg (·.getD (Config.powerOnWord s.era a)) hread

theorem ConfigFrame.of_commitParams {p : ParamSet} {s t : State} (h : commitParams p s = .next t) :
    ConfigFrame s t := by
  rcases commitParams_cases p s with ⟨c, -, e⟩ | ⟨-, -, -, e⟩ | ⟨-, -, steps, -, e⟩ | ⟨-, -, e⟩ <;>
    cases e.symm.trans h
  · exact .reject s c
  · exact .reject s .eStep
  · exact .storeConfig p _ steps s
  · exact .storeParams p s

theorem ConfigFrame.of_commitCandidate {p : ParamSet} {s t : State} (h : commitCandidate p s = .next t) :
    ConfigFrame s t := by
  rcases commitCandidate_cases p s with ⟨-, e⟩ | ⟨-, e⟩
  · cases e.symm.trans h
    exact .reject s .eNocfg
  · exact .of_commitParams (e.symm.trans h)

theorem ConfigFrame.of_setSampleRate {s t : State} (h : execSetSampleRate s = .next t) : ConfigFrame s t := by
  rcases execSetSampleRate_cases s with ⟨-, e⟩ | ⟨-, -, -, e⟩ | ⟨-, -, steps, -, e⟩ | ⟨-, -, e⟩ <;>
    cases e.symm.trans h
  · exact .reject s .eSr
  · exact .reject s .eStep
  · exact .storeConfig _ _ steps s
  · exact .storeSampleRate _ s

/-- Settles O57: every command of the family ends in a rejection or in one of the three stores of a configuration. -/
theorem configurationCommandFrames : Obligations.ConfigurationCommandFrames := by
  unfold Obligations.ConfigurationCommandFrames
  rintro s t i (rfl | rfl | rfl | rfl | rfl | rfl) h
  · exact ConfigFrame.of_commitParams h
  · exact ConfigFrame.of_commitCandidate h
  · exact ConfigFrame.of_commitCandidate h
  · exact ConfigFrame.of_commitCandidate h
  · exact ConfigFrame.of_commitCandidate h
  · exact ConfigFrame.of_setSampleRate h

end Sys2Proof.Machine
end

section
/-! Proofs for the encoding (`30_encoding.md` R90, R92, R93): the decoder inverts the encoder and reads no other word, so
the words that R93 lists are rejected. -/

namespace Sys2Proof.Machine

/-! ## Decoding and encoding -/

theorem roundTrip : ∀ i : Instr, Laws.RoundTrip.Statement i
  | .nop => Laws.RoundTrip.nop
  | .reset => Laws.RoundTrip.reset
  | .clrErr => Laws.RoundTrip.clrErr
  | .setParams => Laws.RoundTrip.setParams
  | .setAttack => Laws.RoundTrip.setAttack
  | .setDecay => Laws.RoundTrip.setDecay
  | .setSustain => Laws.RoundTrip.setSustain
  | .setRelease => Laws.RoundTrip.setRelease
  | .setSampleRate => Laws.RoundTrip.setSampleRate
  | .loadSource => Laws.RoundTrip.loadSource
  | .setFreq => Laws.RoundTrip.setFreq
  | .noteOn => Laws.RoundTrip.noteOn
  | .noteOff => Laws.RoundTrip.noteOff
  | .envTick => Laws.RoundTrip.envTick
  | .grTick => Laws.RoundTrip.grTick
  | .voiceTick => Laws.RoundTrip.voiceTick
  | .envApply => Laws.RoundTrip.envApply
  | .voiceFill => Laws.RoundTrip.voiceFill

@[simp] theorem decode_encode (i : Instr) : decode (encode i) = .ok i := by
  obtain ⟨-, -, hd, -⟩ := roundTrip i
  exact hd

/-- The opcode map lists a command only at its own word. -/
theorem commandOfOpcode_eq_some {op : BitVec 8} {i : Instr} (h : commandOfOpcode op = some i) :
    op.toNat = (encode i).toNat := by
  unfold commandOfOpcode at h
  split at h <;> cases h <;> assumption

/-- The opcode is the whole of a word whose reserved bits are zero. -/
theorem opcodeField_toNat {w : Word} (h : commandWordWellFormed w = true) : (opcodeField w).toNat = w.toNat := by
  have hw : w.toNat / 256 = 0 := by simpa [commandWordWellFormed] using h
  simp only [opcodeField, BitVec.extractLsb'_toNat, Nat.shiftRight_zero]
  omega

/-- A word that decodes has zero reserved bits and an opcode of the map. -/
theorem decode_eq_ok {w : Word} {i : Instr} (h : decode w = .ok i) :
    commandWordWellFormed w = true ∧ commandOfOpcode (opcodeField w) = some i := by
  unfold decode at h
  split at h
  next hw =>
    split at h <;> cases h
    exact ⟨hw, ‹_›⟩
  next => cases h

theorem decode_eq_ok_iff {w : Word} {i : Instr} : decode w = .ok i ↔ w = encode i := by
  constructor
  · intro h
    obtain ⟨hw, hop⟩ := decode_eq_ok h
    exact BitVec.eq_of_toNat_eq ((opcodeField_toNat hw).symm.trans (commandOfOpcode_eq_some hop))
  · rintro rfl
    exact decode_encode i

/-- Settles O4: the encoder's words decode to their commands (`decode_encode`), and a word that decodes is all opcode
(`opcodeField_toNat`), which the map lists once (`commandOfOpcode_eq_some`). -/
theorem decodeExactlyEncodedWords : Obligations.DecodeExactlyEncodedWords := by
  unfold Obligations.DecodeExactlyEncodedWords
  exact fun _ _ => decode_eq_ok_iff

/-- Settles O3: the words listed are the encoder's. -/
theorem opcodeMapDecodes : Obligations.OpcodeMapDecodes := by
  unfold Obligations.OpcodeMapDecodes
  exact ⟨decode_encode .nop, decode_encode .reset, decode_encode .clrErr, decode_encode .setParams,
    decode_encode .setAttack, decode_encode .setDecay, decode_encode .setSustain, decode_encode .setRelease,
    decode_encode .setSampleRate, decode_encode .loadSource, decode_encode .setFreq, decode_encode .noteOn,
    decode_encode .noteOff, decode_encode .envTick, decode_encode .grTick, decode_encode .voiceTick,
    decode_encode .envApply, decode_encode .voiceFill⟩

/-! ## Illegal words -/

/-- The illegal command words by R93's own list: a reserved bit set, or an opcode in one of its ranges. -/
def IllegalWord (w : Word) : Prop :=
  w.toNat / 256 ≠ 0 ∨
    (0x03 ≤ w.toNat % 256 ∧ w.toNat % 256 ≤ 0x0F) ∨ w.toNat % 256 = 0x16 ∨ w.toNat % 256 = 0x17 ∨
    (0x1A ≤ w.toNat % 256 ∧ w.toNat % 256 ≤ 0x1F) ∨ (0x22 ≤ w.toNat % 256 ∧ w.toNat % 256 ≤ 0x2F) ∨
    (0x33 ≤ w.toNat % 256 ∧ w.toNat % 256 ≤ 0x37) ∨ 0x3A ≤ w.toNat % 256

/-- No command's word stands in R93's list. -/
theorem not_illegalWord_encode (i : Instr) : ¬ IllegalWord (encode i) := by
  unfold IllegalWord
  cases i <;> decide

theorem IllegalWord.decode_eq_error {w : Word} (hw : IllegalWord w) : ∃ e, decode w = .error e := by
  cases hd : decode w with
  | error e => exact ⟨e, rfl⟩
  | ok i =>
    rw [decode_eq_ok_iff.mp hd] at hw
    exact absurd hw (not_illegalWord_encode i)

/-- Settles O2: a listed word decodes to no command (`IllegalWord.decode_eq_error`), so the step rejects it
(`step_illegal`). -/
theorem illegalCommandWordRejected : Obligations.IllegalCommandWordRejected := by
  unfold Obligations.IllegalCommandWordRejected
  refine ⟨rfl, fun s w rest h hw => ?_⟩
  obtain ⟨e, hd⟩ := IllegalWord.decode_eq_error hw
  exact step_illegal h hd

end Sys2Proof.Machine
end

section
/-! Proofs for the configuration commands (`40_config_tables.md` R110 to R122): what `validate` reports, the step rate,
what a commit leaves, and the commands that commit. -/

namespace Sys2Proof.Machine

/-! ## Validation -/

/-- The resolution is in the range of R113. -/
def ResolutionOk (p : ParamSet) : Prop :=
  2 ≤ p.res.toNat ∧ p.res.toNat ≤ 4096

/-- Every duration is a finite number that is not negative (R113). -/
def DurationsOk (p : ParamSet) : Prop :=
  (finite32 p.attack = true ∧ ge32 p.attack 0 = true) ∧ (finite32 p.decay = true ∧ ge32 p.decay 0 = true) ∧
    (finite32 p.release = true ∧ ge32 p.release 0 = true)

/-- The greatest amplitude is a finite positive number (R113). -/
def MaxampOk (p : ParamSet) : Prop :=
  finite32 p.maxamp = true ∧ gt32 p.maxamp 0 = true

/-- The sustain level is a finite number between zero and the greatest amplitude (R113). -/
def SustainOk (p : ParamSet) : Prop :=
  finite32 p.sustain = true ∧ ge32 p.sustain 0 = true ∧ le32 p.sustain p.maxamp = true

/-- The shape word has no bit above 5:0 and no selector 3 (R113). -/
def ShapeOk (p : ParamSet) : Prop :=
  p.shape.toNat < 64 ∧ p.shape.toNat % 4 ≠ 3 ∧ p.shape.toNat / 4 % 4 ≠ 3 ∧ p.shape.toNat / 16 % 4 ≠ 3

theorem resolution_check_iff (p : ParamSet) :
    (p.resolution < Config.rMin ∨ Config.rMax < p.resolution) ↔ ¬ ResolutionOk p := by
  simp only [ResolutionOk, ParamSet.resolution, Config.rMin, Config.rMax]
  omega

theorem durations_check_iff (p : ParamSet) :
    (!(durationOk p.attack && durationOk p.decay && durationOk p.release)) = true ↔ ¬ DurationsOk p := by
  simp only [DurationsOk, durationOk, posZero32, Bool.not_eq_true', ← Bool.not_eq_true, Bool.and_eq_true, and_assoc]
  rfl

theorem maxamp_check_iff (p : ParamSet) :
    (!(finite32 p.maxamp && gt32 p.maxamp posZero32)) = true ↔ ¬ MaxampOk p := by
  simp only [MaxampOk, posZero32, Bool.not_eq_true', ← Bool.not_eq_true, Bool.and_eq_true]
  rfl

theorem sustain_check_iff (p : ParamSet) :
    (!(finite32 p.sustain && ge32 p.sustain posZero32 && le32 p.sustain p.maxamp)) = true ↔ ¬ SustainOk p := by
  simp only [SustainOk, posZero32, Bool.not_eq_true', ← Bool.not_eq_true, Bool.and_eq_true, and_assoc]
  rfl

theorem shape_check_iff (p : ParamSet) :
    (p.shape.toNat / 64 != 0 || p.selector .attack == 3 || p.selector .decay == 3 || p.selector .release == 3) = true ↔
      ¬ ShapeOk p := by
  simp only [ShapeOk, ParamSet.selector, Bool.or_eq_true, bne_iff_ne, beq_iff_eq]
  omega

/-- What `validate` reports, by the first of its checks that fails (R113). -/
theorem validate_cases (p : ParamSet) :
    (¬ ResolutionOk p ∧ validate p = some .eRes) ∨
    (ResolutionOk p ∧ ¬ DurationsOk p ∧ validate p = some .eDuration) ∨
    (ResolutionOk p ∧ DurationsOk p ∧ ¬ MaxampOk p ∧ validate p = some .eMaxamp) ∨
    (ResolutionOk p ∧ DurationsOk p ∧ MaxampOk p ∧ ¬ SustainOk p ∧ validate p = some .eSustain) ∨
    (ResolutionOk p ∧ DurationsOk p ∧ MaxampOk p ∧ SustainOk p ∧ ¬ ShapeOk p ∧ validate p = some .eShape) ∨
    (ResolutionOk p ∧ DurationsOk p ∧ MaxampOk p ∧ SustainOk p ∧ ShapeOk p ∧ validate p = none) := by
  generalize hv : validate p = v
  unfold validate at hv
  split at hv
  · exact .inl ⟨(resolution_check_iff p).mp ‹_›, hv.symm⟩
  have hres : ResolutionOk p := (resolution_check_iff p).not_left.mp ‹_›
  split at hv
  · exact .inr (.inl ⟨hres, (durations_check_iff p).mp ‹_›, hv.symm⟩)
  have hdur : DurationsOk p := (durations_check_iff p).not_left.mp ‹_›
  split at hv
  · exact .inr (.inr (.inl ⟨hres, hdur, (maxamp_check_iff p).mp ‹_›, hv.symm⟩))
  have hmax : MaxampOk p := (maxamp_check_iff p).not_left.mp ‹_›
  split at hv
  · exact .inr (.inr (.inr (.inl ⟨hres, hdur, hmax, (sustain_check_iff p).mp ‹_›, hv.symm⟩)))
  have hsus : SustainOk p := (sustain_check_iff p).not_left.mp ‹_›
  split at hv
  · exact .inr (.inr (.inr (.inr (.inl ⟨hres, hdur, hmax, hsus, (shape_check_iff p).mp ‹_›, hv.symm⟩))))
  · exact .inr (.inr (.inr (.inr (.inr ⟨hres, hdur, hmax, hsus, (shape_check_iff p).not_left.mp ‹_›, hv.symm⟩))))

/-- Settles O18: the six cases of `validate_cases` exclude each other. -/
theorem validateReportsFirstFailure : Obligations.ValidateReportsFirstFailure := by
  unfold Obligations.ValidateReportsFirstFailure
  intro p
  change (validate p = none ↔ ResolutionOk p ∧ DurationsOk p ∧ MaxampOk p ∧ SustainOk p ∧ ShapeOk p) ∧
    (_ ↔ ¬ ResolutionOk p) ∧ (_ ↔ ResolutionOk p ∧ ¬ DurationsOk p) ∧
    (_ ↔ ResolutionOk p ∧ DurationsOk p ∧ ¬ MaxampOk p) ∧
    (_ ↔ ResolutionOk p ∧ DurationsOk p ∧ MaxampOk p ∧ ¬ SustainOk p) ∧
    (_ ↔ ResolutionOk p ∧ DurationsOk p ∧ MaxampOk p ∧ SustainOk p ∧ ¬ ShapeOk p)
  rcases validate_cases p with ⟨hres, e⟩ | ⟨hres, hdur, e⟩ | ⟨hres, hdur, hmax, e⟩ | ⟨hres, hdur, hmax, hsus, e⟩ |
    ⟨hres, hdur, hmax, hsus, hshape, e⟩ | ⟨hres, hdur, hmax, hsus, hshape, e⟩
  · simp [e, hres]
  · simp [e, hres, hdur]
  · simp [e, hres, hdur, hmax]
  · simp [e, hres, hdur, hmax, hsus]
  · simp [e, hres, hdur, hmax, hsus, hshape]
  · simp [e, hres, hdur, hmax, hsus, hshape]

/-! ## Step rates -/

/-- The step rate by the quotient that R110 tests and truncates. -/
theorem stepRate_eq {sr x4 : DWord} {res : Nat} {sec : Word}
    (hx4 : x4 = max64 (div64 (max64 (mul64 sr (cvt64 sec)) one64) (nat64 res)) one64) :
    stepRate sr res sec = if !finite64 x4 || ge64 x4 twoPow31F64 then none else some (trunc64 x4) := by
  subst hx4
  rfl

theorem value64_one : value64 one64 = 2 ^ 1074 := by
  rw [value64_eq, unpack64_one, Fp.value, if_neg Bool.false_ne_true, units_one64, binary64_unitExp, Nat.cast_pow]
  rfl

theorem trunc64_one : trunc64 one64 = 1 := by
  rw [trunc64_eq, unpack64_one, units_one64, Nat.div_self (by positivity)]

/-- `1.0` in `f64` is no NaN. -/
theorem one64_mag_le : one64.toNat % 2 ^ 63 ≤ 0x7FF0000000000000 := by decide

theorem mag_le_of_finite64 {a : DWord} (h : finite64 a = true) : a.toNat % 2 ^ 63 ≤ 0x7FF0000000000000 := by
  obtain ⟨hlt, -, -⟩ := Fp.fin (f := binary64) h
  rw [binary64_infMag] at hlt
  exact hlt.le

/-- A number that is not above 1 is raised to 1. -/
theorem max64_one_eq_one {a : DWord} (ha : a.toNat % 2 ^ 63 ≤ 0x7FF0000000000000) (h : value64 a ≤ value64 one64) :
    max64 a one64 = one64 := by
  rw [max64_eq ha one64_mag_le]
  split
  · rfl
  · have hval : value64 a = value64 one64 := le_antisymm h (not_lt.mp ‹_›)
    have hne : value64 one64 ≠ 0 := by rw [value64_one]; positivity
    rw [value64_eq, value64_eq] at hval
    rw [value64_eq] at hne
    rw [← pack64_unpack64 a, Fp.value_inj hval hne, pack64_unpack64]

theorem finite64_nat64 {n : Nat} (hn : n ≤ 2 ^ 53) : finite64 (nat64 n) = true := by
  have hlt : n < 2 ^ 1024 := hn.trans_lt (pow_lt_pow_right₀ one_lt_two (by decide))
  rw [finite64, unpack64_nat64]
  refine decide_eq_true (binary64.units_lt_iff.mp ?_)
  rw [units_round_nat64 hn, units_binary64_infMag, pow_add]
  exact Nat.mul_lt_mul_of_pos_right hlt (by positivity)

/-- Of two numbers above `n` the greater is the farther. -/
theorem natAbs_sub_lt {n x y : Int} (hx : n ≤ x) (hxy : x < y) : (n - x).natAbs < (n - y).natAbs := by
  omega

/-- `1 ÷ res` is no NaN and not above 1: otherwise 1 would be nearer the exact quotient. -/
theorem div64_one_nat64_le {res : Nat} (h1 : 1 ≤ res) (hres : res ≤ 2 ^ 53) :
    (div64 one64 (nat64 res)).toNat % 2 ^ 63 ≤ 0x7FF0000000000000 ∧
      value64 (div64 one64 (nat64 res)) ≤ value64 one64 := by
  have hpow : (0 : Int) < 2 ^ 1074 := by positivity
  have hval : value64 (nat64 res) = res * 2 ^ 1074 := value64_nat64 hres
  have hpos : 0 < value64 (nat64 res) := by rw [hval]; positivity
  obtain ⟨⟨hmag, hnear⟩, -⟩ := div64_nearest (a := one64) (by decide) (finite64_nat64 hres) hpos.ne'
  obtain ⟨hle, -⟩ := hnear one64 one64_mag_le
  refine ⟨hmag, not_lt.mp fun hgt => ?_⟩
  have hden : (value64 (nat64 res)).natAbs = value64 (nat64 res) := Int.natAbs_of_nonneg hpos.le
  have hge : value64 one64 ≤ value64 (nat64 res) := by
    rw [value64_one, hval]
    exact le_mul_of_one_le_left hpow.le (by exact_mod_cast h1)
  rw [hden, Int.sign_eq_one_of_pos hpos, mul_one] at hle
  have hone : value64 one64 * 2 ^ 1074 ≤ value64 one64 * value64 (nat64 res) :=
    mul_le_mul_of_nonneg_left (value64_one ▸ hge) (value64_one ▸ hpow.le)
  exact absurd hle (not_le.mpr (natAbs_sub_lt hone (mul_lt_mul_of_pos_right hgt hpos)))

/-- A zero duration gives a zero product, of either sign. -/
theorem mul64_zero_duration {sr : DWord} (hsr : finite64 sr = true) {sec : Word}
    (hsec : sec = 0x00000000#32 ∨ sec = 0x80000000#32) :
    (mul64 sr (cvt64 sec)).toNat % 2 ^ 63 ≤ 0x7FF0000000000000 ∧ value64 (mul64 sr (cvt64 sec)) ≤ value64 one64 := by
  have hfin : finite32 sec = true := by rcases hsec with rfl | rfl <;> decide
  have hval : value32 sec = 0 := by rcases hsec with rfl | rfl <;> decide
  obtain ⟨hcvt, hcvtFin, -⟩ := value64_cvt64 hfin
  have hpow : (0 : Int) ≤ 2 ^ 1074 := by positivity
  rw [mul64_zero hsr hcvtFin (by rw [hcvt, hval, Int.zero_mul, Int.mul_zero]), value64_one, signedZero64]
  split
  · exact ⟨by decide, hpow⟩
  · exact ⟨by decide, hpow⟩

/-- A zero-length segment: neither the product nor the quotient exceeds 1, so the value that R110 truncates is 1. -/
theorem stepRate_zero_duration {sr : DWord} (hsr : finite64 sr = true) {res : Nat} (h2 : 2 ≤ res) (hres : res ≤ 4096)
    {sec : Word} (hsec : sec = 0x00000000#32 ∨ sec = 0x80000000#32) : stepRate sr res sec = some 1 := by
  obtain ⟨hprodNum, hprodLe⟩ := mul64_zero_duration hsr hsec
  obtain ⟨hquotNum, hquotLe⟩ := div64_one_nat64_le (res := res) (by omega) (hres.trans (by decide))
  rw [stepRate_eq (x4 := one64) (by rw [max64_one_eq_one hprodNum hprodLe, max64_one_eq_one hquotNum hquotLe])]
  have hfin : finite64 one64 = true := by decide
  have hlt : ge64 one64 twoPow31F64 = false := by decide
  simp only [hfin, hlt, trunc64_one, Bool.not_true, Bool.or_false, Bool.false_eq_true, if_false]

/-- A finite number that is not below `1.0` meets the premise of `trunc64_floor`. -/
theorem unit_le_value64 {x : DWord} (hf : finite64 x = true) (h1 : lt64 x one64 = false) : 2 ^ 1074 ≤ value64 x := by
  rw [← value64_one, ← not_lt, ← lt64_iff (mag_le_of_finite64 hf) one64_mag_le, h1]
  exact Bool.false_ne_true

/-- Settles O23: the range by `trunc64_range`, the truncation by `trunc64_floor`, a zero-length segment by
`stepRate_zero_duration`. -/
theorem stepRateFollowsTheRule : Obligations.StepRateFollowsTheRule := by
  unfold Obligations.StepRateFollowsTheRule
  refine ⟨fun sr x4 res sec _ _ _ _ _ _ hx4 => ⟨fun hover => ?_, fun hf hlt => ?_⟩,
    fun sr res sec hsr _ h2 hres hsec => stepRate_zero_duration hsr h2 hres hsec⟩
  · rw [stepRate_eq hx4, if_pos]
    rcases hover with hf | hge
    · rw [hf]; rfl
    · rw [Bool.or_eq_true]; exact .inr hge
  · have h1 : lt64 x4 one64 = false := hx4 ▸ max64_not_lt_one _
    obtain ⟨hmin, hmax⟩ := trunc64_range hf h1 hlt
    have heq : stepRate sr res sec = some (trunc64 x4) := by
      rw [stepRate_eq hx4, if_neg]
      rw [hf, show ge64 x4 twoPow31F64 = false from hlt]
      exact Bool.false_ne_true
    exact ⟨heq, hmin, Nat.le_sub_one_of_lt hmax, trunc64_floor (unit_le_value64 hf h1)⟩

/-! ## Commits -/

/-- An accepted configuration leaves what R112, R114 and R115 say. -/
theorem Configured.storeConfig {p : ParamSet} (hp : validate p = none) (sr : DWord) (steps : PerSeg Nat) (s : State) :
    Configured p sr steps s (storeConfig p sr steps s).accept where
  tables g i hi := by
    have hread := read_buildTables_at (steps := steps) (s := s) (validate_res hp).2 g hi
    exact congrArg (·.getD (Config.powerOnWord s.era (ramAddr (.tab g) i))) hread
  otherWords a ha := congrArg (·.getD (Config.powerOnWord s.era a)) (read_buildTables_out (steps := steps) (s := s) ha)
  otherState := ⟨_, rfl⟩

section Commit
variable {p : ParamSet} {s : State}

theorem commitParams_invalid {c : ErrCode} (hv : validate p = some c) : commitParams p s = .next (s.reject c) := by
  simp only [commitParams, hv]
  rfl

theorem commitParams_overflow (hv : validate p = none) (hs : s.active.srValid = true)
    (hr : stepRates s.active.sr p = none) : commitParams p s = .next (s.reject .eStep) := by
  simp only [commitParams, hv, hs, hr, if_true]
  rfl

theorem commitParams_stored (hv : validate p = none) (hs : s.active.srValid = false) :
    commitParams p s = .next (storeParams p s).accept := by
  simp only [commitParams, hv, hs, Bool.false_eq_true, if_false]
  rfl

theorem commitParams_installed {steps : PerSeg Nat} (hv : validate p = none) (hs : s.active.srValid = true)
    (hr : stepRates s.active.sr p = some steps) :
    commitParams p s = .next (storeConfig p s.active.sr steps s).accept := by
  simp only [commitParams, hv, hs, hr, if_true]
  rfl

end Commit

/-- A command that commits `cand s` once its guard holds, and rejects with `E_NOCFG` while it does not. -/
theorem CommitSpec.of_exec {i : Instr} {guarded : Bool} {cand : State → ParamSet}
    (hnocfg : ∀ s, guarded = true → s.active.paramsValid = false → exec i s = .next (s.reject .eNocfg))
    (hcommit : ∀ s, (guarded = true → s.active.paramsValid = true) → exec i s = commitParams (cand s) s) :
    CommitSpec i guarded cand where
  noConfig s hg hp := ⟨_, hnocfg s hg hp, rfl⟩
  invalid s _ hg hv := ⟨_, (hcommit s hg).trans (commitParams_invalid hv), rfl⟩
  overflow s hg hv hs hr := ⟨_, (hcommit s hg).trans (commitParams_overflow hv hs hr), rfl⟩
  stored s hg hv hs := (hcommit s hg).trans (commitParams_stored hv hs)
  installed s steps hg hv hs hr :=
    ⟨_, (hcommit s hg).trans (commitParams_installed hv hs hr), .storeConfig hv _ steps s⟩

theorem commitCandidate_unconfigured {p : ParamSet} {s : State} (h : s.active.paramsValid = false) :
    commitCandidate p s = .next (s.reject .eNocfg) :=
  if_neg (by rw [h]; exact Bool.false_ne_true)

theorem commitCandidate_configured {p : ParamSet} {s : State} (h : s.active.paramsValid = true) :
    commitCandidate p s = commitParams p s :=
  if_pos h

/-- The four single-field setters differ in their candidate alone. -/
theorem CommitSpec.of_commitCandidate {i : Instr} {cand : State → ParamSet}
    (h : ∀ s, exec i s = commitCandidate (cand s) s) : CommitSpec i true cand :=
  .of_exec (fun s _ hp => (h s).trans (commitCandidate_unconfigured hp))
    (fun s hg => (h s).trans (commitCandidate_configured (hg rfl)))

/-- Settles O19: `SET_PARAMS` is the unguarded commit of the staging registers. -/
theorem setParamsCommitsStaging : Obligations.SetParamsCommitsStaging :=
  ⟨decode_encode .setParams, .of_exec (fun _ h => nomatch h) fun _ _ => rfl⟩

/-- Settles O20: each setter is the guarded commit of its candidate (`CommitSpec.of_commitCandidate`). -/
theorem fieldSettersCommitOneField : Obligations.FieldSettersCommitOneField :=
  ⟨⟨decode_encode .setAttack, .of_commitCandidate fun _ => rfl⟩,
    ⟨decode_encode .setDecay, .of_commitCandidate fun _ => rfl⟩,
    ⟨decode_encode .setSustain, .of_commitCandidate fun _ => rfl⟩,
    ⟨decode_encode .setRelease, .of_commitCandidate fun _ => rfl⟩⟩

/-! ## The sample rate -/

section SampleRate
variable {s : State}

theorem sampleRateOk_eq_true_iff {sr : DWord} : sampleRateOk sr = true ↔ finite64 sr = true ∧ gt64 sr 0 = true :=
  Bool.and_eq_true_iff

theorem execSetSampleRate_invalid (h : sampleRateOk (stagedSampleRate s) = false) :
    execSetSampleRate s = .next (s.reject .eSr) := by
  simp only [execSetSampleRate, h, Bool.not_false, if_true]
  rfl

theorem execSetSampleRate_overflow (h : sampleRateOk (stagedSampleRate s) = true) (hp : s.active.paramsValid = true)
    (hr : stepRates (stagedSampleRate s) s.active.params = none) :
    execSetSampleRate s = .next (s.reject .eStep) := by
  simp only [execSetSampleRate, h, hp, hr, Bool.not_true, Bool.false_eq_true, if_false, if_true]
  rfl

theorem execSetSampleRate_stored (h : sampleRateOk (stagedSampleRate s) = true) (hp : s.active.paramsValid = false) :
    execSetSampleRate s = .next (storeSampleRate (stagedSampleRate s) s).accept := by
  simp only [execSetSampleRate, h, hp, Bool.not_true, Bool.false_eq_true, if_false]
  rfl

theorem execSetSampleRate_installed {steps : PerSeg Nat} (h : sampleRateOk (stagedSampleRate s) = true)
    (hp : s.active.paramsValid = true) (hr : stepRates (stagedSampleRate s) s.active.params = some steps) :
    execSetSampleRate s = .next (storeConfig s.active.params (stagedSampleRate s) steps s).accept := by
  simp only [execSetSampleRate, h, hp, hr, Bool.not_true, Bool.false_eq_true, if_false, if_true]
  rfl

end SampleRate

/-- Settles O21: one equation of `SET_SAMPLE_RATE` per clause; `Configured.storeConfig` says what the last one leaves. -/
theorem setSampleRateCommits : Obligations.SetSampleRateCommits := by
  unfold Obligations.SetSampleRateCommits
  refine ⟨decode_encode .setSampleRate, ?_⟩
  rintro s sr rfl
  have hok : ∀ {x : DWord}, finite64 x = true → gt64 x 0 = true → sampleRateOk x = true :=
    fun hf hg => sampleRateOk_eq_true_iff.mpr ⟨hf, hg⟩
  refine ⟨fun hbad => ?_, fun hf hg hp hr => ?_, fun hf hg hp => ?_, fun steps hinv hf hg hp hr => ?_⟩
  · have hsr : sampleRateOk (stagedSampleRate s) = false := Bool.and_eq_false_iff.mpr hbad
    exact ⟨_, execSetSampleRate_invalid hsr, rfl⟩
  · exact ⟨_, execSetSampleRate_overflow (hok hf hg) hp hr, rfl⟩
  · exact execSetSampleRate_stored (hok hf hg) hp
  · exact ⟨_, execSetSampleRate_installed (hok hf hg) hp hr, .storeConfig (hinv.params_valid hp) _ steps s⟩

/-! ## A commit of the active set -/

/-- In force, both halves are valid and the configuration is determined by its three values. -/
theorem ConfigInv.eq_installed {a : Active} (h : ConfigInv a) (hc : a.cfgValid = true) :
    a.paramsValid = true ∧ a.srValid = true ∧
      (⟨a.params, a.sr, a.steps, true, true, true⟩ : Active) = a := by
  have hboth := hc
  rw [h.cfgValid_eq, Bool.and_eq_true] at hboth
  obtain ⟨hp, hs⟩ := hboth
  refine ⟨hp, hs, ?_⟩
  calc (⟨a.params, a.sr, a.steps, true, true, true⟩ : Active)
      = ⟨a.params, a.sr, a.steps, a.paramsValid, a.srValid, a.cfgValid⟩ := by rw [hp, hs, hc]
    _ = a := rfl

/-- Settles O25: the commit installs the configuration in force again, whose tables `TablesBuilt` determines before the
command and `TablesBuilt.storeConfig` after it. -/
theorem setParamsIsIdempotent : Obligations.SetParamsIsIdempotent := by
  unfold Obligations.SetParamsIsIdempotent
  intro s hs hbuilt hc hstaged
  obtain ⟨hp, hsr, hactive⟩ := hs.config.eq_installed hc
  have hv : validate s.active.params = none := hs.config.params_valid hp
  have hexec : exec .setParams s = .next (storeConfig s.active.params s.active.sr s.active.steps s).accept := by
    calc exec .setParams s = commitParams s.active.params s := congrArg (commitParams · s) hstaged
      _ = _ := commitParams_installed hv hsr (hs.config.steps_eq hc)
  refine ⟨_, hexec, rfl, hactive, rfl, fun g i hi hg => ?_, rfl, rfl, rfl⟩
  have hafter := TablesBuilt.storeConfig (s := s) hv s.active.sr s.active.steps rfl g i hi hg
  exact hafter.trans (hbuilt hc g i hi hg).symm

end Sys2Proof.Machine
end

section
/-! Proofs for the envelope (`41_envelope.md` R134 to R138): the arms of `env_next()` one by one, `NOTE_ON`, `NOTE_OFF` and
`ENV_TICK` by them, and which change of `STAGE` each command can make. -/

namespace Sys2Proof.Machine

/-! ## The arms of `env_next()` -/

section Arms
variable {tab : Segment → Nat → Word} {a : Active} {e : Env}

theorem envNext_idle (h : e.stage = .idle) : envNext tab a e = (posZero32, e) := by
  simp only [envNext, h]

theorem envNext_attack (h : e.stage = .attack) : envNext tab a e = envAttack tab a e := by
  simp only [envNext, h]

theorem envNext_decay (h : e.stage = .decay) : envNext tab a e = envDecay tab a e := by
  simp only [envNext, h]

theorem envNext_sustain (h : e.stage = .sustain) : envNext tab a e = envSustain a e := by
  simp only [envNext, h]

theorem envNext_release (h : e.stage = .release) : envNext tab a e = envRelease tab a e := by
  simp only [envNext, h]

theorem envAttack_below (h : ge32 e.amp a.params.maxamp = false) :
    envAttack tab a e = ((segStep tab a .attack e).amp, segStep tab a .attack e) :=
  if_neg (ne_true_of_eq_false h)

theorem envAttack_reached (h : ge32 e.amp a.params.maxamp = true) :
    envAttack tab a e = envDecay tab a (segEnter tab a .decay { e with amp := a.params.maxamp, stage := .decay }) :=
  if_pos h

theorem envDecay_above (h : le32 e.amp a.params.sustain = false) :
    envDecay tab a e = ((segStep tab a .decay e).amp, segStep tab a .decay e) :=
  if_neg (ne_true_of_eq_false h)

theorem envDecay_reached (h : le32 e.amp a.params.sustain = true) :
    envDecay tab a e = (a.params.sustain, { e with amp := a.params.sustain, stage := .sustain }) :=
  if_pos h

theorem envRelease_above (h : le32 (segStep tab a .release e).amp posZero32 = false) :
    envRelease tab a e = ((segStep tab a .release e).amp, segStep tab a .release e) :=
  if_neg (ne_true_of_eq_false h)

theorem envRelease_reached (h : le32 (segStep tab a .release e).amp posZero32 = true) :
    envRelease tab a e = (posZero32, { segStep tab a .release e with amp := posZero32, stage := .idle }) :=
  if_pos h

/-! ## The rule's loop -/

/-- A pass that begins in Sustain is the last one. -/
theorem envLoop_sustain (fuel : Nat) (h : e.stage = .sustain) : envLoop tab a (fuel + 1) e = some (envSustain a e) := by
  simp only [envLoop, h, envSustain]

/-- From Decay the loop ends in its first pass, or in its second, which begins in Sustain. -/
theorem envLoop_decay (fuel : Nat) (h : e.stage = .decay) : envLoop tab a (fuel + 2) e = some (envDecay tab a e) := by
  rw [envLoop, h]
  dsimp only
  cases hle : le32 e.amp a.params.sustain with
  | false => rw [envDecay_above hle, if_neg Bool.false_ne_true]
  | true => rw [envDecay_reached hle, if_pos rfl, envLoop_sustain fuel rfl, envSustain]

/-- From Attack the loop ends in its first pass, or goes on in Decay. -/
theorem envLoop_attack (fuel : Nat) (h : e.stage = .attack) :
    envLoop tab a (fuel + 3) e = some (envAttack tab a e) := by
  rw [envLoop, h]
  dsimp only
  cases hge : ge32 e.amp a.params.maxamp with
  | false => rw [envAttack_below hge, if_neg Bool.false_ne_true]
  | true => rw [envAttack_reached hge, if_pos rfl, envLoop_decay fuel rfl]

theorem envLoop_release (fuel : Nat) (h : e.stage = .release) :
    envLoop tab a (fuel + 1) e = some (envRelease tab a e) := by
  rw [envLoop, h]
  dsimp only
  cases hle : le32 (segStep tab a .release e).amp posZero32 with
  | false => rw [envRelease_above hle, if_neg Bool.false_ne_true]
  | true => rw [envRelease_reached hle, if_pos rfl]

end Arms

/-- Settles O29: each stage's arm is the loop begun there, Attack with the most passes (`envLoop_attack`). -/
theorem envNextIsTheLoop : Obligations.EnvNextIsTheLoop := by
  unfold Obligations.EnvNextIsTheLoop
  intro tab a e
  cases h : e.stage with
  | idle => rw [envNext_idle h, envLoop, h]
  | attack => rw [envNext_attack h, envLoop_attack 0 h]
  | decay => rw [envNext_decay h, envLoop_decay 1 h]
  | sustain => rw [envNext_sustain h, envLoop_sustain 2 h]
  | release => rw [envNext_release h, envLoop_release 2 h]

/-! ## `NOTE_ON` and `NOTE_OFF` -/

section Notes
variable {s : State} {e : Env}

theorem exec_noteOn_unconfigured (hc : s.active.cfgValid = false) : exec .noteOn s = .next (s.reject .eNocfg) :=
  if_neg (ne_true_of_eq_false hc)

/-- An accepted `NOTE_ON`, by the envelope after it. -/
theorem exec_noteOn_configured (hc : s.active.cfgValid = true) (he : envNoteOn s.tab s.active s.env = e) :
    exec .noteOn s = .next { s with noteAmp := s.args.arg0, env := e, response := some ⟨true, 0⟩ } := by
  subst he
  exact if_pos hc

/-- `NOTE_OFF`, by the envelope after it. -/
theorem exec_noteOff (he : envNoteOff s.tab s.active s.env = e) :
    exec .noteOff s = .next { s with env := e, response := some ⟨true, 0⟩ } := by
  subst he
  exact execNoteOff_eq s

end Notes

/-- Settles O27: `E_NOCFG`, or the arm of `envNoteOn` that the two comparisons choose. -/
theorem noteOnEntersAStage : Obligations.NoteOnEntersAStage := by
  unfold Obligations.NoteOnEntersAStage
  refine ⟨decode_encode .noteOn, fun s =>
    ⟨fun hc => ?_, fun hc hatt => ?_, fun hc hatt hdec => ?_, fun hc hatt hdec => ?_⟩⟩
  · exact ⟨_, exec_noteOn_unconfigured hc, rfl⟩
  · exact exec_noteOn_configured hc (if_pos hatt)
  · exact exec_noteOn_configured hc ((if_neg (ne_true_of_eq_false hatt)).trans (if_pos hdec))
  · exact exec_noteOn_configured hc
      ((if_neg (ne_true_of_eq_false hatt)).trans (if_neg (ne_true_of_eq_false hdec)))

/-- Settles O28: the arm of `envNoteOff` that the stage and the comparison choose. -/
theorem noteOffReleases : Obligations.NoteOffReleases := by
  unfold Obligations.NoteOffReleases
  refine ⟨decode_encode .noteOff, fun s => ⟨fun hidle => ?_, fun hnote hrel => ?_, fun hnote hrel => ?_⟩⟩
  · exact exec_noteOff (if_pos hidle)
  · exact exec_noteOff ((if_neg hnote).trans (if_pos hrel))
  · exact exec_noteOff ((if_neg hnote).trans (if_neg (ne_true_of_eq_false hrel)))

/-! ## `ENV_TICK` -/

/-- `ENV_TICK`, by the sample and the envelope after it (`41_envelope.md` R138). -/
theorem exec_envTick {s : State} {v : Word} {e : Env} (h : envNext s.tab s.active s.env = (v, e)) :
    exec .envTick s = .next { s with
      env := e, results := { s.results with env := v }, response := some ⟨true, 0⟩ } := by
  rw [exec, execEnvTick_eq, h]
  rfl

theorem exec_envTick_sustain {s : State} (h : s.env.stage = .sustain) :
    exec .envTick s = .next { s with
      env := { s.env with amp := s.active.params.sustain }
      results := { s.results with env := s.active.params.sustain }
      response := some ⟨true, 0⟩ } :=
  exec_envTick (envNext_sustain h)

/-- Settles O30: a tick by the Idle and the Sustain arm. -/
theorem envTickInIdleAndSustain : Obligations.EnvTickInIdleAndSustain := by
  unfold Obligations.EnvTickInIdleAndSustain
  exact fun s => ⟨fun h => exec_envTick (envNext_idle h), exec_envTick_sustain⟩

/-- Settles O31: a tick by the Attack arm, which counts (`segCount`) or goes on in the Decay arm from `MAXAMP`. -/
theorem envTickInAttack : Obligations.EnvTickInAttack := by
  unfold Obligations.EnvTickInAttack
  intro s r hs
  refine ⟨fun hbelow hr => ?_, fun hreached hle => ?_, fun hreached hle hr => ?_⟩
  · have hcount : r = segCount s.tab s.active .attack s.env := hr
    subst hcount
    exact exec_envTick ((envNext_attack hs).trans (envAttack_below hbelow))
  · exact exec_envTick ((envNext_attack hs).trans ((envAttack_reached hreached).trans (envDecay_reached hle)))
  · have hcount : r = segCount s.tab s.active .decay
        (segEnter s.tab s.active .decay { s.env with amp := s.active.params.maxamp, stage := .decay }) := hr
    subst hcount
    exact exec_envTick ((envNext_attack hs).trans ((envAttack_reached hreached).trans (envDecay_above hle)))

/-- Settles O32: a tick by the Decay arm, which falls to Sustain or counts (`segCount`). -/
theorem envTickInDecay : Obligations.EnvTickInDecay := by
  unfold Obligations.EnvTickInDecay
  intro s r hs
  refine ⟨fun hle => ?_, fun hle hr => ?_⟩
  · exact exec_envTick ((envNext_decay hs).trans (envDecay_reached hle))
  · have hcount : r = segCount s.tab s.active .decay s.env := hr
    subst hcount
    exact exec_envTick ((envNext_decay hs).trans (envDecay_above hle))

/-- Settles O33: a tick by the Release arm, which counts (`segCount`) and then tests the amplitude. -/
theorem envTickInRelease : Obligations.EnvTickInRelease := by
  unfold Obligations.EnvTickInRelease
  intro s r hs hr
  have hcount : r = segCount s.tab s.active .release s.env := hr
  subst hcount
  exact ⟨fun hle => exec_envTick ((envNext_release hs).trans (envRelease_reached hle)),
    fun hle => exec_envTick ((envNext_release hs).trans (envRelease_above hle))⟩

/-- Settles O34, by induction on the number of ticks: a tick leaves a state in Sustain in which the next tick writes the
same values again. -/
theorem sustainHoldsUntilNoteOff : Obligations.SustainHoldsUntilNoteOff := by
  unfold Obligations.SustainHoldsUntilNoteOff
  intro k
  induction k with
  | zero =>
    intro s hs
    simp only [List.replicate, execAll, exec_envTick_sustain hs]
  | succ k ih =>
    intro s hs
    rw [List.replicate_succ, execAll, exec_envTick_sustain hs]
    exact ih _ hs

/-! ## Changes of `STAGE` -/

/-- The rows of `41_envelope.md` R135 that a sample of the envelope can take, one or several at once. -/
def SampleMove (g g' : Stage) : Prop :=
  (g = .attack ∧ (g' = .decay ∨ g' = .sustain)) ∨ (g = .decay ∧ g' = .sustain) ∨ (g = .release ∧ g' = .idle)

theorem SampleMove.eq_sustain_of_decay {g : Stage} (h : SampleMove .decay g) : g = .sustain := by
  simpa [SampleMove] using h

theorem not_sampleMove_of_sustain (g : Stage) : ¬ SampleMove .sustain g := by
  simp [SampleMove]

theorem not_sampleMove_of_idle (g : Stage) : ¬ SampleMove .idle g := by
  simp [SampleMove]

/-- Only a move to Decay can be followed by another, which ends in Sustain. -/
theorem SampleMove.trans {g g' g'' : Stage} (h : SampleMove g g') (h' : SampleMove g' g'') : SampleMove g g'' := by
  rcases h with ⟨hg, rfl | rfl⟩ | ⟨-, rfl⟩ | ⟨-, rfl⟩
  · exact .inl ⟨hg, .inr h'.eq_sustain_of_decay⟩
  · exact absurd h' (not_sampleMove_of_sustain g'')
  · exact absurd h' (not_sampleMove_of_sustain g'')
  · exact absurd h' (not_sampleMove_of_idle g'')

/-- `g'` is reached from `g` by any number of samples. -/
def ReachedBySamples (g g' : Stage) : Prop :=
  g' = g ∨ SampleMove g g'

theorem ReachedBySamples.trans {g g' g'' : Stage} (h : ReachedBySamples g g') (h' : ReachedBySamples g' g'') :
    ReachedBySamples g g'' := by
  rcases h with rfl | h
  · exact h'
  · rcases h' with rfl | h'
    · exact .inr h
    · exact .inr (h.trans h')

theorem envNext_reached (tab : Segment → Nat → Word) (a : Active) (e : Env) :
    ReachedBySamples e.stage (envNext tab a e).2.stage :=
  envNext_stage tab a e

/-- At most one sample, which is none where the envelope is Idle. -/
theorem sampleUnlessIdle_reached (tab : Segment → Nat → Word) (a : Active) (e : Env) :
    ReachedBySamples e.stage (if e.stage = .idle then e else (envNext tab a e).2).stage := by
  split
  · exact .inl rfl
  · exact envNext_reached tab a e

theorem envApplyLoop_reached (n i : Nat) (s : State) : ReachedBySamples s.env.stage (envApplyLoop n i s).env.stage := by
  refine envApplyLoop_induction (P := fun t => ReachedBySamples s.env.stage t.env.stage) n i ?_ (.inl rfl)
  intro j t _ _ h
  rw [envApplyElement_env]
  exact h.trans (sampleUnlessIdle_reached t.tab t.active t.env)

theorem voiceFillLoop_reached (n i : Nat) (s : State) :
    ReachedBySamples s.env.stage (voiceFillLoop n i s).env.stage := by
  refine voiceFillLoop_induction (P := fun t => ReachedBySamples s.env.stage t.env.stage) n i ?_ (.inl rfl)
  intro j t _ _ h
  rw [voiceFillElement_frame]
  dsimp only
  rw [voiceTick_env]
  exact h.trans (sampleUnlessIdle_reached t.tab t.active t.env)

section Commands
variable {s t : State}

theorem execEnvTick_reached (h : execEnvTick s = .next t) : ReachedBySamples s.env.stage t.env.stage := by
  cases h
  exact envNext_reached s.tab s.active s.env

theorem execVoiceTick_reached (h : execVoiceTick s = .next t) : ReachedBySamples s.env.stage t.env.stage := by
  cases h
  rw [State.accept_env, voiceTick_env]
  exact sampleUnlessIdle_reached s.tab s.active s.env

theorem execEnvApply_reached (h : execEnvApply s = .next t) : ReachedBySamples s.env.stage t.env.stage := by
  rcases execEnvApply_cases s with ⟨-, e⟩ | ⟨-, e⟩ <;> cases e.symm.trans h
  · exact .inl rfl
  · exact envApplyLoop_reached _ _ s

theorem execVoiceFill_reached (h : execVoiceFill s = .next t) : ReachedBySamples s.env.stage t.env.stage := by
  rcases execVoiceFill_cases s with ⟨-, e⟩ | ⟨-, e⟩ <;> cases e.symm.trans h
  · exact .inl rfl
  · exact voiceFillLoop_reached _ _ s

theorem envNoteOn_stage (tab : Segment → Nat → Word) (a : Active) (e : Env) :
    (envNoteOn tab a e).stage = .attack ∨ (envNoteOn tab a e).stage = .decay ∨ (envNoteOn tab a e).stage = .sustain := by
  unfold envNoteOn
  split
  · exact .inl rfl
  · split
    · exact .inr (.inl rfl)
    · exact .inr (.inr rfl)

theorem envNoteOff_stage (tab : Segment → Nat → Word) (a : Active) (e : Env) (h : e.stage ≠ .idle) :
    (envNoteOff tab a e).stage = .release ∨ (envNoteOff tab a e).stage = .idle := by
  rw [envNoteOff, if_neg h]
  split
  · exact .inl rfl
  · exact .inr rfl

/-- A commit either rejects, and keeps the stage, or resets the envelope. -/
theorem commitParams_stage {p : ParamSet} (h : commitParams p s = .next t) :
    t.env.stage = s.env.stage ∨ t.env.stage = .idle := by
  rcases commitParams_cases p s with ⟨c, -, e⟩ | ⟨-, -, -, e⟩ | ⟨-, -, steps, -, e⟩ | ⟨-, -, e⟩ <;> cases e.symm.trans h
  · exact .inl rfl
  · exact .inl rfl
  · exact .inr rfl
  · exact .inr rfl

theorem commitCandidate_stage {p : ParamSet} (h : commitCandidate p s = .next t) :
    t.env.stage = s.env.stage ∨ t.env.stage = .idle := by
  rcases commitCandidate_cases p s with ⟨-, e⟩ | ⟨-, e⟩
  · cases e.symm.trans h
    exact .inl rfl
  · exact commitParams_stage (e.symm.trans h)

theorem execSetSampleRate_stage (h : execSetSampleRate s = .next t) :
    t.env.stage = s.env.stage ∨ t.env.stage = .idle := by
  rcases execSetSampleRate_cases s with ⟨-, e⟩ | ⟨-, -, -, e⟩ | ⟨-, -, steps, -, e⟩ | ⟨-, -, e⟩ <;> cases e.symm.trans h
  · exact .inl rfl
  · exact .inl rfl
  · exact .inr rfl
  · exact .inr rfl

end Commands

/-- An access that carries no command keeps the envelope; the hardware reset does not. -/
theorem plainInput_env {x : HostInput} (hx : x ≠ .hardReset) (s : State) : (plainInput x s).env = s.env := by
  rcases plainInput_cases x s with ⟨hr, -⟩ | ⟨c, e, -⟩ | ⟨v, e⟩ | ⟨r, v, -, -, e⟩ | ⟨v, -, e⟩ | ⟨r, i, v, -, -, e⟩
  · exact absurd hr hx
  all_goals
    rw [e]
    rfl

/-- What a command that changed `STAGE` is, and where it may have led (`41_envelope.md` R135). -/
def StageCause (s t : State) : Instr → Prop
  | .noteOn => s.active.cfgValid = true ∧
      (t.env.stage = .attack ∨ t.env.stage = .decay ∨ t.env.stage = .sustain)
  | .noteOff => s.env.stage ≠ .idle ∧ (t.env.stage = .release ∨ t.env.stage = .idle)
  | .envTick | .voiceTick | .envApply | .voiceFill => SampleMove s.env.stage t.env.stage
  | .setParams | .setAttack | .setDecay | .setSustain | .setRelease | .setSampleRate | .reset => t.env.stage = .idle
  | .nop | .clrErr | .loadSource | .setFreq | .grTick => False

theorem stageCause_of_exec {i : Instr} {s t : State} (h : exec i s = .next t) (hne : t.env.stage ≠ s.env.stage) :
    StageCause s t i := by
  cases i with
  | nop => cases h; exact absurd rfl hne
  | clrErr => cases h; exact absurd rfl hne
  | reset => cases h; exact rfl
  | setParams => exact (commitParams_stage h).resolve_left hne
  | setAttack => exact (commitCandidate_stage h).resolve_left hne
  | setDecay => exact (commitCandidate_stage h).resolve_left hne
  | setSustain => exact (commitCandidate_stage h).resolve_left hne
  | setRelease => exact (commitCandidate_stage h).resolve_left hne
  | setSampleRate => exact (execSetSampleRate_stage h).resolve_left hne
  | loadSource => exact hne (congrArg (·.env.stage) (execLoadSource_frame h))
  | setFreq => exact hne (congrArg (·.env.stage) (execSetFreq_frame h))
  | grTick => exact hne (congrArg (·.env.stage) (execGrTick_frame h))
  | noteOn =>
    rcases execNoteOn_cases s with ⟨hc, e⟩ | ⟨-, e⟩ <;> cases e.symm.trans h
    · exact ⟨hc, envNoteOn_stage s.tab s.active s.env⟩
    · exact absurd rfl hne
  | noteOff =>
    cases h
    have hnote : s.env.stage ≠ .idle := fun hidle =>
      hne (congrArg Env.stage (if_pos hidle : envNoteOff s.tab s.active s.env = s.env))
    exact ⟨hnote, envNoteOff_stage s.tab s.active s.env hnote⟩
  | envTick => exact (execEnvTick_reached h).resolve_left hne
  | voiceTick => exact (execVoiceTick_reached h).resolve_left hne
  | envApply => exact (execEnvApply_reached h).resolve_left hne
  | voiceFill => exact (execVoiceFill_reached h).resolve_left hne

/-- Settles O35: of the things a step can do, only a hardware reset and a command reach the envelope, and
`stageCause_of_exec` says which command. -/
theorem stageChangesOnlyByTheTable : Obligations.StageChangesOnlyByTheTable := by
  unfold Obligations.StageChangesOnlyByTheTable
  intro s t x rest hpend hstep hne
  rcases step_cases s with ⟨hnil, -⟩ | ⟨w, rest', i, hp, hd, e⟩ | ⟨w, rest', d, hp, -, e⟩ | ⟨y, rest', hp, -, e⟩
  · exact nomatch hpend.symm.trans hnil
  · cases hpend.symm.trans hp
    have hcause := stageCause_of_exec (e.symm.trans hstep) hne
    refine .inr ⟨w, i, rfl, hd, ?_⟩
    cases i <;> exact hcause
  · cases e.symm.trans hstep
    exact absurd rfl hne
  · cases hpend.symm.trans hp
    cases e.symm.trans hstep
    by_cases hx : x = .hardReset
    · subst hx
      exact .inl ⟨rfl, rfl⟩
    · exact absurd (congrArg (·.stage) (plainInput_env hx (s.setPending rest))) hne

end Sys2Proof.Machine
end

section
/-! Proofs for `ENV_APPLY` and the range of a block command (`41_envelope.md` R139, `43_voice.md` R182): the command by its
elements, which are those of the path by hand, and what it stores from a stage that samples do not leave. -/

namespace Sys2Proof.Machine

/-! ## Acceptance -/

section Range
variable {s : State}

theorem exec_envApply_inRange (h : s.args.arg0.toNat + s.args.arg1.toNat ≤ s.par.bmax) :
    exec .envApply s = .next (envApplyLoop s.args.arg1.toNat s.args.arg0.toNat s).accept := by
  rcases execEnvApply_cases s with ⟨hout, -⟩ | ⟨-, e⟩
  · omega
  · exact e

theorem exec_voiceFill_inRange (h : s.args.arg0.toNat + s.args.arg1.toNat ≤ s.par.bmax) :
    exec .voiceFill s = .next (voiceFillLoop s.args.arg1.toNat s.args.arg0.toNat s).accept := by
  rcases execVoiceFill_cases s with ⟨hout, -⟩ | ⟨-, e⟩
  · omega
  · exact e

theorem exec_block_outOfRange {i : Instr} (hi : i = .envApply ∨ i = .voiceFill)
    (h : s.par.bmax < s.args.arg0.toNat + s.args.arg1.toNat) : exec i s = .next (s.reject .eRange) := by
  have hout : blockOutOfRange s = true := decide_eq_true h
  rcases hi with rfl | rfl
  · exact if_pos hout
  · exact if_pos hout

end Range

/-- Settles O39: beyond the buffer both commands reject, and a loop of no element changes nothing. -/
theorem blockRangeChecked : Obligations.BlockRangeChecked := by
  unfold Obligations.BlockRangeChecked
  refine ⟨rfl, fun s i hi => ⟨fun hout => ⟨_, exec_block_outOfRange hi hout, rfl⟩, fun hstart hn => ?_⟩⟩
  have hzero : s.args.arg1.toNat = 0 := by rw [hn]; rfl
  have hin : s.args.arg0.toNat + s.args.arg1.toNat ≤ s.par.bmax := by omega
  rcases hi with rfl | rfl
  · rw [exec_envApply_inRange hin, hzero]
    rfl
  · rw [exec_voiceFill_inRange hin, hzero]
    rfl

/-! ## One element -/

/-- One element of `ENV_APPLY` is a sample of the envelope, shown in `ENV_OUT`, and a write of one buffer word. -/
theorem envApplyElement_eq_sample (j : Nat) (s : State) :
    envApplyElement j s =
      ((s.setEnv (envNext s.tab s.active s.env).2).putEnvOut (envNext s.tab s.active s.env).1).putRam .buf j
        (if s.env.stage = .idle then posZero32 else mul32 (s.buf j) (envNext s.tab s.active s.env).1) := by
  by_cases h : s.env.stage = .idle
  · rw [envApplyElement_idle j h, envNext_idle h, if_pos h]
    rfl
  · rw [envApplyElement_eq j h, if_neg h]
    rfl

/-! ## The path by hand -/

theorem hostDo_cmd (i : Instr) (s : State) : hostDo (HostProgram.cmd i) s = exec i { s with pending := [] } :=
  step_command (s := { s with pending := [HostProgram.cmd i] }) rfl (decode_encode i)

theorem hostDo_wr_buf {s : State} {j : Nat} {v : Word} (hpar : s.par.wellFormed = true) (hj : j < s.par.bmax) :
    hostDo (HostProgram.wr (.ram .buf j) v) s = .next (({ s with pending := [] } : State).putRam .buf j v).accept :=
  step_write_ram (s := { s with pending := [HostProgram.wr (.ram .buf j) v] }) hpar rfl hj rfl

/-- A round by hand goes on from where its tick and its write lead. -/
theorem applyByHand_of_round {s u v : State} {n i : Nat} (htick : hostDo (HostProgram.cmd .envTick) s = .next u)
    (hwrite : hostDo (HostProgram.wr (.ram .buf i)
      (if s.env.stage = .idle then posZero32 else mul32 (s.buf i) u.results.env)) u = .next v) :
    applyByHand (n + 1) i s = applyByHand n (i + 1) v := by
  simp only [applyByHand, htick, hwrite]

/-- One round by hand leaves what one element of `ENV_APPLY` leaves, and the response of the write. -/
theorem applyByHand_succ {s : State} {n i : Nat} (hpar : s.par.wellFormed = true) (hi : i < s.par.bmax) :
    applyByHand (n + 1) i s =
      applyByHand n (i + 1) { envApplyElement i s with pending := [], response := some okayResponse } := by
  rw [envApplyElement_eq_sample]
  generalize hx : envNext s.tab s.active s.env = x
  have htick := (hostDo_cmd .envTick s).trans (exec_envTick (s := { s with pending := [] }) hx)
  exact applyByHand_of_round htick (hostDo_wr_buf hpar hi)

theorem applyByHand_eq_loop (n i : Nat) {s : State} (hpar : s.par.wellFormed = true) (hn : i + (n + 1) ≤ s.par.bmax) :
    applyByHand (n + 1) i s =
      .next { envApplyLoop (n + 1) i s with pending := [], response := some okayResponse } := by
  induction n generalizing i s with
  | zero => exact applyByHand_succ hpar (by omega)
  | succ n ih =>
    have hkeep : (envApplyElement i s).par = s.par := by rw [envApplyElement_frame]
    rw [applyByHand_succ hpar (by omega), ih (i + 1) (hkeep ▸ hpar) (by dsimp only; rw [hkeep]; omega),
      envApplyLoop_outside]
    rfl

/-- Settles O36: both ways are the loop of `ENV_APPLY` (`applyByHand_eq_loop`), which looks at no pending transaction. -/
theorem envApplyIsElementByElement : Obligations.EnvApplyIsElementByElement := by
  unfold Obligations.EnvApplyIsElementByElement
  refine ⟨decode_encode .envApply, fun s hpar hpos hn => ?_⟩
  rw [exec_envApply_inRange hn]
  obtain ⟨n, hcount⟩ := Nat.exists_eq_add_one.mpr hpos
  rw [hcount] at hn ⊢
  refine ⟨_, applyByHand_eq_loop n s.args.arg0.toNat (s := { s with pending := [] }) hpar hn, ?_⟩
  have hpending : (envApplyLoop (n + 1) s.args.arg0.toNat s).pending = s.pending := by rw [envApplyLoop_frame]
  have hloop := envApplyLoop_outside (n + 1) s.args.arg0.toNat s [] s.response
  rw [hloop, ← hpending]
  rfl

/-! ## A stage that samples do not leave -/

/-- From `e` the next sample is `v` and leaves the envelope `e'`, in the same stage, whatever the tables hold. -/
structure SampleIs (a : Active) (v : Word) (e' e : Env) : Prop where
  stage : e.stage = e'.stage
  sample : ∀ tab, envNext tab a e = (v, e')

theorem SampleIs.idle {a : Active} {e : Env} (h : e.stage = .idle) : SampleIs a posZero32 e e :=
  ⟨rfl, fun _ => envNext_idle h⟩

theorem SampleIs.sustain {a : Active} {e : Env} (h : e.stage = .sustain) :
    SampleIs a a.params.sustain { e with amp := a.params.sustain } e :=
  ⟨rfl, fun _ => envNext_sustain h⟩

/-- What every element of `ENV_APPLY` stores, as a function of the word it finds, the loop stores in its whole range. -/
theorem envApplyLoop_buf {P : State → Prop} {f : Word → Word} (hkeep : ∀ j t, P t → P (envApplyElement j t))
    (hstore : ∀ j t, P t → (envApplyElement j t).buf j = f (t.buf j)) (n i : Nat) {s : State} (hs : P s) {j : Nat}
    (hij : i ≤ j) (hj : j < i + n) : (envApplyLoop n i s).buf j = f (s.buf j) := by
  have hinj : ∀ k, ramAddr .buf j = ramAddr .buf k → j = k := fun _ h => Nat.add_left_cancel h
  induction n generalizing i s with
  | zero => omega
  | succ n ih =>
    by_cases heq : j = i
    · subst heq
      have hout : ¬ IsBufAddr (j + 1) n (ramAddr .buf j) := by
        rintro ⟨k, hk, -, h⟩
        have := hinj k h
        omega
      exact (envApplyLoop_wordAt (envApplyElement j s) hout).trans (hstore j s hs)
    · have hword : (envApplyElement i s).buf j = s.buf j := envApplyElement_wordAt s fun h => heq (hinj i h)
      rw [envApplyLoop, ih (i + 1) (hkeep i s hs) (by omega) (by omega), hword]

section Steady
variable {s : State} {v : Word} {e : Env}

theorem envApplyElement_of_sampleIs (j : Nat) (h : SampleIs s.active v e s.env) :
    envApplyElement j s = ((s.setEnv e).putEnvOut v).putRam .buf j
      (if e.stage = .idle then posZero32 else mul32 (s.buf j) v) := by
  rw [envApplyElement_eq_sample, h.sample, h.stage]

/-- Where every sample is `v` and leaves `e`, a loop of at least one element leaves `e` and shows `v`, and each word of its
range is zeroed in Idle and multiplied by `v` in any other stage. -/
theorem envApplyLoop_of_sampleIs (hfirst : SampleIs s.active v e s.env) (hagain : SampleIs s.active v e e) (n i : Nat) :
    (envApplyLoop (n + 1) i s).env = e ∧ (envApplyLoop (n + 1) i s).results.env = v ∧
      ∀ j, i ≤ j → j < i + (n + 1) →
        (envApplyLoop (n + 1) i s).buf j = if e.stage = .idle then posZero32 else mul32 (s.buf j) v := by
  have hstep : ∀ j t, t.active = s.active ∧ SampleIs s.active v e t.env →
      (envApplyElement j t).active = s.active ∧ (envApplyElement j t).env = e ∧
        (envApplyElement j t).results.env = v := by
    rintro j t ⟨hact, ht⟩
    rw [envApplyElement_of_sampleIs j (hact ▸ ht)]
    exact ⟨hact, rfl, rfl⟩
  have hloop := envApplyLoop_induction (P := fun t => t.active = s.active ∧ t.env = e ∧ t.results.env = v) n (i + 1)
    (fun j t _ _ ⟨hact, henv, _⟩ => hstep j t ⟨hact, henv ▸ hagain⟩) (hstep i s ⟨rfl, hfirst⟩)
  obtain ⟨-, henv, hout⟩ := hloop
  refine ⟨henv, hout, fun j hij hj => ?_⟩
  refine envApplyLoop_buf (P := fun t => t.active = s.active ∧ SampleIs s.active v e t.env)
    (f := fun w => if e.stage = .idle then posZero32 else mul32 w v) (fun j t ht => ?_) (fun j t ⟨hact, ht⟩ => ?_)
    (n + 1) i ⟨rfl, hfirst⟩ hij hj
  · obtain ⟨hact, henv, -⟩ := hstep j t ht
    exact ⟨hact, henv ▸ hagain⟩
  · rw [envApplyElement_of_sampleIs j (hact ▸ ht)]
    exact State.ramWord_putRam_same _ .buf j _

/-- `ENV_APPLY` over a range in the buffer, where every sample is `v` and leaves `e`. -/
theorem exec_envApply_of_sampleIs (hfirst : SampleIs s.active v e s.env) (hagain : SampleIs s.active v e e)
    (hpos : 0 < s.args.arg1.toNat) (hn : s.args.arg0.toNat + s.args.arg1.toNat ≤ s.par.bmax) :
    ∃ t, exec .envApply s = .next t ∧
      (∀ i, s.args.arg0.toNat ≤ i → i < s.args.arg0.toNat + s.args.arg1.toNat →
        t.buf i = if e.stage = .idle then posZero32 else mul32 (s.buf i) v) ∧
      (∀ a, ¬ IsBufAddr s.args.arg0.toNat s.args.arg1.toNat a → wordAt t a = wordAt s a) ∧
      t = { s with ram := t.ram, env := e, results := { s.results with env := v }, response := some ⟨true, 0⟩ } := by
  obtain ⟨n, hcount⟩ := Nat.exists_eq_add_one.mpr hpos
  obtain ⟨henv, hout, hbuf⟩ := envApplyLoop_of_sampleIs hfirst hagain n s.args.arg0.toNat
  rw [← hcount] at henv hout hbuf
  refine ⟨_, exec_envApply_inRange hn, hbuf, fun a ha => envApplyLoop_wordAt s ha, ?_⟩
  have hframe := envApplyLoop_frame s.args.arg1.toNat s.args.arg0.toNat s
  rw [henv, hout] at hframe
  exact congrArg State.accept hframe

end Steady

/-- Settles O37: in Idle every sample is `+0.0` and leaves the envelope as it is (`SampleIs.idle`). -/
theorem envApplyInIdleZeroFills : Obligations.EnvApplyInIdleZeroFills := by
  unfold Obligations.EnvApplyInIdleZeroFills
  intro s _ hs hpos hn
  have hsample : SampleIs s.active posZero32 s.env s.env := .idle hs
  obtain ⟨t, hexec, hbuf, hframe, hrest⟩ := exec_envApply_of_sampleIs hsample hsample hpos hn
  exact ⟨t, hexec, fun i hi hi' => (hbuf i hi hi').trans (if_pos hs), hframe, hrest⟩

/-- Settles O38: in Sustain every sample is `SUSTAIN`, and the amplitude then stays there (`SampleIs.sustain`). -/
theorem envApplyInSustainIsConstantGain : Obligations.EnvApplyInSustainIsConstantGain := by
  unfold Obligations.EnvApplyInSustainIsConstantGain
  intro s _ hs hpos hn
  have hnot : s.env.stage ≠ .idle := by rw [hs]; nofun
  have hagain := SampleIs.sustain (a := s.active) (e := { s.env with amp := s.active.params.sustain }) hs
  obtain ⟨t, hexec, hbuf, hframe, hrest⟩ := exec_envApply_of_sampleIs (.sustain hs) hagain hpos hn
  exact ⟨t, hexec, fun i hi hi' => (hbuf i hi hi').trans (if_neg hnot), hframe, hrest⟩

end Sys2Proof.Machine
end

section
/-! Proofs for the grain scheduler (`42_grain.md` R160 to R166): the two commands that set it up, and `GR_TICK` by what one
call of the scheduler adds up and leaves, with and without a source, and over any number of ticks. -/

namespace Sys2Proof.Machine

/-! ## `LOAD_SOURCE` and `SET_FREQ` -/

/-- Settles O45: the two cases of `execLoadSource_cases`. -/
theorem loadSourceBindsAndEmptiesTheRing : Obligations.LoadSourceBindsAndEmptiesTheRing := by
  unfold Obligations.LoadSourceBindsAndEmptiesTheRing
  refine ⟨decode_encode .loadSource, fun s => ?_⟩
  rcases execLoadSource_cases s with ⟨hlong, e⟩ | ⟨hfits, e⟩
  · exact ⟨fun _ => ⟨_, e, rfl⟩, fun h => absurd h (Nat.not_le_of_lt hlong)⟩
  · exact ⟨fun h => absurd h (Nat.not_lt_of_le hfits), fun _ => e⟩

/-- Settles O46: the two cases of `execSetFreq_cases`. -/
theorem setFreqSetsTheInterval : Obligations.SetFreqSetsTheInterval := by
  unfold Obligations.SetFreqSetsTheInterval
  refine ⟨decode_encode .setFreq, fun s => ?_⟩
  rcases execSetFreq_cases s with ⟨hok, e⟩ | ⟨hbad, e⟩
  · obtain ⟨hfin, hpos⟩ := Bool.and_eq_true_iff.mp hok
    refine ⟨?_, fun _ _ => e⟩
    rintro (h | h)
    · exact absurd hfin (ne_true_of_eq_false h)
    · exact absurd hpos (ne_true_of_eq_false h)
  · exact ⟨fun _ => ⟨_, e, rfl⟩, fun hfin hpos =>
      absurd (Bool.and_eq_true_iff.mpr ⟨hfin, hpos⟩) (ne_true_of_eq_false hbad)⟩

/-! ## One tick -/

/-- `s` after a `GR_TICK` whose call gave the sample `v` and left the scheduler `g` (`42_grain.md` R164). -/
def State.grTicked (s : State) (v : Word) (g : Grain) : State :=
  { s with grain := g, results := { s.results with gr := v }, response := some ⟨true, 0⟩ }

theorem exec_grTick {s : State} {v : Word} {g : Grain} (h : grNext s.par.cap s.src s.grain = (v, g)) :
    exec .grTick s = .next (s.grTicked v g) := by
  rw [exec, execGrTick_eq, h]
  rfl

theorem RingInv.exec_grTick {s t : State} (h : RingInv s.par s.grain) (he : exec .grTick s = .next t) :
    RingInv t.par t.grain := by
  cases he
  exact h.next

/-- A run of one command, from its first. -/
theorem execAll_replicate_succ {i : Instr} {s t : State} (k : Nat) (h : exec i s = .next t) :
    execAll (List.replicate (k + 1) i) s = execAll (List.replicate k i) t := by
  rw [List.replicate_succ, execAll, h]

theorem activeCursors_length (cap : Nat) (g : Grain) : (activeCursors cap g).length = g.count := by
  rw [activeCursors, List.length_map, activeSlots_length]

theorem activeCursors_empty {cap : Nat} {g : Grain} (hn : g.count = 0) : activeCursors cap g = [] :=
  List.length_eq_zero_iff.mp ((activeCursors_length cap g).trans hn)

theorem activeSlots_single {cap : Nat} {g : Grain} (hh : g.head < cap) (hn : g.count = 1) :
    activeSlots cap g = [g.head] := by
  rw [activeSlots, hn]
  exact congrArg (fun j => [j]) (Nat.mod_eq_of_lt hh)

theorem activeCursors_single {cap c : Nat} {g : Grain} (hh : g.head < cap) (hn : g.count = 1)
    (hc : cursor g g.head = c) : activeCursors cap g = [c] := by
  rw [activeCursors, activeSlots_single hh hn, List.map_singleton, hc]

/-! ## The trigger -/

/-- The condition of `gr_next()`'s step 2, under which a cursor is pushed (`42_grain.md` R163). -/
abbrev Triggers (cap : Nat) (g : Grain) : Prop :=
  gt32 (add32 g.acc one32) g.trig = true ∧ g.count < cap

section Trigger
variable {cap : Nat} {g : Grain}

theorem grTrigger_pushes (h : Triggers cap g) : grTrigger cap g = grPush cap { g with acc := add32 g.acc one32 } :=
  if_pos (Bool.and_eq_true_iff.mpr ⟨h.1, decide_eq_true h.2⟩)

theorem grTrigger_waits (h : ¬ Triggers cap g) : grTrigger cap g = { g with acc := add32 g.acc one32 } := by
  rcases grTrigger_cases cap g with ⟨hgt, hroom, -⟩ | ⟨-, e⟩
  · exact absurd ⟨hgt, hroom⟩ h
  · exact e

/-- Nothing triggers at `TRIG = +Inf` (`42_grain.md` R165). -/
theorem not_triggers_of_posInf (h : g.trig = posInf32) : ¬ Triggers cap g :=
  fun ⟨hgt, _⟩ => ne_true_of_eq_false (gt32_posInf _) (h ▸ hgt)

end Trigger

/-- The cursors a call sums, and the accumulator it leaves (`42_grain.md` R163, steps 1 and 2). -/
theorem grTrigger_spec {p : Config.Params} {g : Grain} (h : RingInv p g) :
    activeCursors p.cap (grTrigger p.cap g)
        = activeCursors p.cap g ++ (if Triggers p.cap g then [0] else []) ∧
      (grTrigger p.cap g).acc
        = if Triggers p.cap g then sub32 (add32 g.acc one32) g.trig else add32 g.acc one32 := by
  by_cases htr : Triggers p.cap g
  · rw [grTrigger_pushes htr, if_pos htr, if_pos htr]
    exact ⟨activeCursors_push (h.acc _) htr.2, rfl⟩
  · rw [grTrigger_waits htr, if_neg htr, if_neg htr, List.append_nil]
    exact ⟨rfl, rfl⟩

/-! ## A tick with a source -/

/-- Settles O41: `grTrigger_spec` names the cursors, `grSum_spec` their sum and what is left of them, `grNext_counters` the
head and the accumulator; `grNext_frame` leaves the rest. -/
theorem grTickSumsActiveGrains : Obligations.GrTickSumsActiveGrains := by
  unfold Obligations.GrTickSumsActiveGrains
  refine ⟨decode_encode .grTick, fun s cs hring hlen hcs => ?_⟩
  obtain ⟨hcursors, hacc⟩ := grTrigger_spec hring
  replace hcursors : activeCursors s.par.cap (grTrigger s.par.cap s.grain) = cs := hcursors.trans hcs.symm
  have hlen' := grTrigger_len s.par.cap s.grain
  obtain ⟨hsum, hleft, hring'⟩ := grSum_spec (src := s.src) (grTrigger_pre hring) (hlen'.symm ▸ hlen)
  obtain ⟨hhead, hrest⟩ := grNext_counters (src := s.src) hring
  rw [hcursors] at hsum hleft
  rw [hlen'] at hleft
  rw [← activeCursors_length, hcursors] at hhead
  refine ⟨_, exec_grTick rfl, hsum, hleft, ?_, hhead, hring'.tail_eq, (congrArg Grain.acc hrest).trans hacc, ?_⟩
  · exact (activeCursors_length ..).symm.trans (congrArg List.length hleft)
  · exact execGrTick_frame (exec_grTick rfl)

/-! ## Ticks without a source -/

/-- A call without a source: what the trigger pushes, the guard retires (`grSum_no_source`). -/
theorem grNext_no_source_eq {p : Config.Params} {src : Nat → Word} {g : Grain} (h : RingInv p g) (hl : g.len = 0) :
    grNext p.cap src g = (posZero32,
      if (grTrigger p.cap g).count = 0 then grTrigger p.cap g else grRetire p.cap (grTrigger p.cap g)) :=
  grSum_no_source (grTrigger_pre h) ((grTrigger_len ..).trans hl)

/-- Settles O42: the ring is empty (`RingInv.count_zero`); a pushed cursor, 0 as every slot of it, is retired in the same call
(`grNext_no_source_eq`). -/
theorem grTickWithoutSourceIsSilent : Obligations.GrTickWithoutSourceIsSilent := by
  unfold Obligations.GrTickWithoutSourceIsSilent
  intro s hring hlen
  have hcount := hring.count_zero hlen
  have hnext := grNext_no_source_eq (src := s.src) hring hlen
  refine ⟨hcount, fun htr => ?_, fun htr => ?_⟩
  · have hroom : s.grain.count < s.par.cap := by
      rw [hcount]
      exact Nat.zero_lt_of_lt hring.head_lt
    have hcur : s.grain.cur.set s.grain.tail 0 = s.grain.cur := by
      have hzero : s.grain.cur = List.replicate s.grain.cur.length 0 :=
        List.eq_replicate_iff.mpr ⟨rfl, fun c hc => Nat.le_zero.mp (hlen ▸ hring.cur_le c hc)⟩
      rw [hzero, List.set_replicate_self]
    rw [grTrigger_pushes ⟨htr, hroom⟩, if_neg (by nofun), grRetire, grPush, hcur] at hnext
    exact exec_grTick hnext
  · rw [grTrigger_waits (fun h => ne_true_of_eq_false htr h.1), if_pos hcount] at hnext
    exact exec_grTick hnext

/-! ## Ticks with no pitch set -/

section NoPitch
variable {cap : Nat} {src : Nat → Word} {g : Grain}

theorem grNext_posInf (h : g.trig = posInf32) :
    grNext cap src g = grSum cap src (activeSlots cap g) (posZero32, { g with acc := add32 g.acc one32 }) := by
  rw [grNext, grTrigger_waits (not_triggers_of_posInf h)]
  rfl

theorem grNext_posInf_empty (h : g.trig = posInf32) (hc : g.count = 0) :
    grNext cap src g = (posZero32, { g with acc := add32 g.acc one32 }) := by
  rw [grNext_posInf h, activeSlots, hc]
  rfl

/-- The scheduler with the accumulator and the oldest cursor advanced. -/
def Grain.headAdvanced (g : Grain) : Grain :=
  { g with acc := add32 g.acc one32, cur := g.cur.set g.head (cursor g g.head + 1) }

theorem cursor_headAdvanced (h : g.head < g.cur.length) :
    cursor g.headAdvanced g.headAdvanced.head = cursor g g.head + 1 :=
  (getD_set _ _ _ _ h).trans (if_pos rfl)

/-- A call with one cursor, in the source, and nothing triggering (`42_grain.md` R163). -/
theorem grNext_posInf_single (h : g.trig = posInf32) (hh : g.head < cap) (hn : g.count = 1)
    (hc : cursor g g.head < g.len) :
    grNext cap src g = (add32 posZero32 (src (cursor g g.head)),
      if cursor g g.head + 1 = g.len then grRetire cap g.headAdvanced else g.headAdvanced) := by
  rw [grNext_posInf h, activeSlots_single hh hn]
  exact if_neg (Nat.not_le_of_lt hc)

end NoPitch

/-- Settles O43, by induction on the number of ticks: a tick of an empty ring changes the accumulator alone. -/
theorem nothingTriggersAtInfinity : Obligations.NothingTriggersAtInfinity := by
  unfold Obligations.NothingTriggersAtInfinity
  intro k
  induction k with
  | zero =>
    intro s htrig hcount
    exact ⟨_, execAll_replicate_succ 0 (exec_grTick (grNext_posInf_empty htrig hcount)), rfl, rfl⟩
  | succ k ih =>
    intro s htrig hcount
    rw [execAll_replicate_succ (k + 1) (exec_grTick (grNext_posInf_empty htrig hcount))]
    exact ih _ htrig hcount

/-! ## A grain plays the source once (P5) -/

/-- Moving cursors on by one, dropping those at `len`, and then by `k`, is moving them on by `k + 1`. -/
theorem advance_succ (l : List Nat) (len k : Nat) :
    (((l.map (· + 1)).filter (· ≠ len)).map (· + k)).filter (· < len) = (l.map (· + (k + 1))).filter (· < len) := by
  rw [List.filter_map, List.filter_map, List.filter_map, List.filter_map, List.map_map, List.filter_filter]
  refine congrArg₂ List.map (funext fun c => ?_) (List.filter_congr fun c _ => ?_)
  · exact Nat.add_right_comm c 1 k
  · simp only [Function.comp_apply, ne_eq, ← Bool.decide_and, decide_eq_decide]
    omega

/-- Any number of ticks (`42_grain.md` R166): each moves the cursors on, retires those at the end, and may push one, which it
leaves at 1. -/
theorem execAll_grTick_advances (k : Nat) (s : State) (hring : RingInv s.par s.grain) (hlen : 0 < s.grain.len) :
    ∃ (t : State) (new : List Nat), execAll (List.replicate k .grTick) s = .next t ∧
      activeCursors s.par.cap t.grain
        = ((activeCursors s.par.cap s.grain).map (· + k)).filter (· < s.grain.len) ++ new ∧
      (∀ c ∈ new, 1 ≤ c ∧ c ≤ k) ∧ t.grain.len = s.grain.len ∧ (∀ i, t.src i = s.src i) := by
  induction k generalizing s with
  | zero =>
    refine ⟨s, [], rfl, ?_, by simp, rfl, fun _ => rfl⟩
    have hall : (activeCursors s.par.cap s.grain).filter (· < s.grain.len) = activeCursors s.par.cap s.grain :=
      List.filter_eq_self.mpr fun c hc => decide_eq_true (hring.in_source c hc)
    simp [hall]
  | succ k ih =>
    obtain ⟨u, htick, -, hcursors, -, -, -, -, hframe⟩ := grTickSumsActiveGrains.2 s _ hring hlen rfl
    have hpar : u.par = s.par := by rw [hframe]
    have hlen' : u.grain.len = s.grain.len := by rw [hframe]
    have hsrc : ∀ i, u.src i = s.src i := fun i => by
      rw [hframe]
      rfl
    obtain ⟨t, new, hrun, hafter, hnew, hlast, hsrc'⟩ := ih u (hring.exec_grTick htick) (hlen' ▸ hlen)
    rw [hpar, hlen', hcursors, List.map_append, List.filter_append, List.map_append, List.filter_append,
      advance_succ, advance_succ, List.append_assoc] at hafter
    refine ⟨t, _, (execAll_replicate_succ k htick).trans hrun, hafter, fun c hc => ?_, hlast.trans hlen',
      fun i => (hsrc' i).trans (hsrc i)⟩
    rcases List.mem_append.mp hc with hpushed | hlater
    · obtain ⟨a, ha, rfl⟩ := List.mem_map.mp (List.mem_filter.mp hpushed).1
      have hzero : a = 0 := by
        split at ha
        · exact List.mem_singleton.mp ha
        · exact absurd ha List.not_mem_nil
      omega
    · obtain ⟨hone, hk⟩ := hnew c hlater
      exact ⟨hone, Nat.le_succ_of_le hk⟩

/-- The tick that pushes a grain into an empty ring. -/
theorem exec_grTick_pushes_first {s : State} (hring : RingInv s.par s.grain) (hlen : 0 < s.grain.len)
    (hcount : s.grain.count = 0) (htr : gt32 (add32 s.grain.acc one32) s.grain.trig = true) :
    ∃ t, exec .grTick s = .next t ∧ t.results.gr = add32 0 (s.src 0) ∧
      activeCursors s.par.cap t.grain = if s.grain.len = 1 then [] else [1] := by
  have htriggers : Triggers s.par.cap s.grain := ⟨htr, hcount ▸ Nat.zero_lt_of_lt hring.head_lt⟩
  have hcs : [0] = activeCursors s.par.cap s.grain ++ (if Triggers s.par.cap s.grain then [0] else []) := by
    rw [activeCursors_empty hcount, if_pos htriggers, List.nil_append]
  obtain ⟨t, htick, hout, hcursors, -⟩ := grTickSumsActiveGrains.2 s [0] hring hlen hcs
  refine ⟨t, htick, hout, hcursors.trans ?_⟩
  by_cases h : s.grain.len = 1 <;> simp [h, eq_comm]

/-- A single grain, nothing triggering, gives the source words from its cursor on and ends with the source. -/
theorem execAll_grTick_single (k c : Nat) (s : State) (htrig : s.grain.trig = posInf32)
    (hslots : s.grain.cur.length = s.par.cap) (hhead : s.grain.head < s.par.cap) (hcount : s.grain.count = 1)
    (hcur : cursor s.grain s.grain.head = c) (hin : c + k < s.grain.len) :
    ∃ t, execAll (List.replicate (k + 1) .grTick) s = .next t ∧ t.results.gr = add32 0 (s.src (c + k)) ∧
      activeCursors s.par.cap t.grain = if c + k + 1 = s.grain.len then [] else [c + k + 1] := by
  induction k generalizing c s with
  | zero =>
    subst hcur
    refine ⟨_, execAll_replicate_succ 0 (exec_grTick (grNext_posInf_single htrig hhead hcount hin)), rfl, ?_⟩
    rw [Nat.add_zero, State.grTicked]
    split
    · exact activeCursors_empty (congrArg (· - 1) hcount)
    · exact activeCursors_single hhead hcount (cursor_headAdvanced (hslots ▸ hhead))
  | succ k ih =>
    subst hcur
    have hnext := grNext_posInf_single (src := s.src) htrig hhead hcount (by omega)
    rw [if_neg (by omega)] at hnext
    rw [execAll_replicate_succ (k + 1) (exec_grTick hnext), ← Nat.add_assoc, Nat.add_right_comm _ k]
    have hin' : cursor s.grain s.grain.head + 1 + k < s.grain.len := by omega
    exact ih _ (s.grTicked _ s.grain.headAdvanced) htrig ((List.length_set ..).trans hslots) hhead hcount
      (cursor_headAdvanced (hslots ▸ hhead)) hin'

/-- Settles O44: `execAll_grTick_advances`, `exec_grTick_pushes_first` and `execAll_grTick_single`. -/
theorem grainPlaysTheSourceExactlyOnce : Obligations.GrainPlaysTheSourceExactlyOnce :=
  ⟨execAll_grTick_advances, fun _ => exec_grTick_pushes_first, execAll_grTick_single⟩

end Sys2Proof.Machine
end

section
/-! Proofs for the voice (`43_voice.md` R180 to R182): one tick as the product of the two ticks it makes, and `VOICE_FILL`
by its elements, which are those of the path by hand. -/

namespace Sys2Proof.Machine

/-! ## One tick -/

theorem exec_voiceTick (s : State) : exec .voiceTick s = .next (voiceTick s).2.accept := rfl

/-- Settles O47: the two arms of `voice_tick()`, the second beside the `ENV_TICK` and the `GR_TICK` of the same state. -/
theorem voiceTickIsTheProduct : Obligations.VoiceTickIsTheProduct := by
  unfold Obligations.VoiceTickIsTheProduct
  refine ⟨decode_encode .voiceTick, fun s => ⟨fun hidle => ?_, fun hplaying => ?_⟩⟩
  · rw [exec_voiceTick, voiceTick_idle hidle]
    rfl
  · refine ⟨_, _, exec_envTick rfl, exec_grTick rfl, ?_⟩
    rw [exec_voiceTick, voiceTick_active hplaying]
    rfl

/-! ## The path by hand -/

/-- A round by hand goes on from where its tick and its write lead. -/
theorem fillByHand_of_round {s u v : State} {n i : Nat} (htick : hostDo (HostProgram.cmd .voiceTick) s = .next u)
    (hwrite : hostDo (HostProgram.wr (.ram .buf i) u.results.voice) u = .next v) :
    fillByHand (n + 1) i s = fillByHand n (i + 1) v := by
  simp only [fillByHand, htick, hwrite]

/-- A `VOICE_TICK` by the host drops what was pending and shows, in `VOICE_OUT`, the sample of the call. -/
theorem hostDo_voiceTick (s : State) :
    hostDo (HostProgram.cmd .voiceTick) s =
      .next { (voiceTick s).2 with pending := [], response := some okayResponse } := by
  rw [hostDo_cmd, exec_voiceTick, voiceTick_outside s [] s.response]
  rfl

/-- One round by hand leaves what one element of `VOICE_FILL` leaves, and the response of the write. -/
theorem fillByHand_succ {s : State} {n i : Nat} (hpar : s.par.wellFormed = true) (hi : i < s.par.bmax) :
    fillByHand (n + 1) i s =
      fillByHand n (i + 1) { voiceFillElement i s with pending := [], response := some okayResponse } := by
  have hkeep : (voiceTick s).2.par = s.par := by rw [voiceTick_frame]
  rw [fillByHand_of_round (hostDo_voiceTick s) (hostDo_wr_buf (by rwa [hkeep]) (by rwa [hkeep])), voiceFillElement,
    voiceTick_fst]
  rfl

theorem fillByHand_eq_loop (n i : Nat) {s : State} (hpar : s.par.wellFormed = true) (hn : i + (n + 1) ≤ s.par.bmax) :
    fillByHand (n + 1) i s =
      .next { voiceFillLoop (n + 1) i s with pending := [], response := some okayResponse } := by
  induction n generalizing i s with
  | zero => exact fillByHand_succ hpar (by omega)
  | succ n ih =>
    have hkeep : (voiceFillElement i s).par = s.par := by rw [voiceFillElement_frame]
    rw [fillByHand_succ hpar (by omega), ih (i + 1) (hkeep ▸ hpar) (by dsimp only; rw [hkeep]; omega),
      voiceFillLoop_outside]
    rfl

/-- Settles O40: both ways are the loop of `VOICE_FILL` (`fillByHand_eq_loop`), which looks at no pending transaction. -/
theorem voiceFillIsTicksAndWrites : Obligations.VoiceFillIsTicksAndWrites := by
  unfold Obligations.VoiceFillIsTicksAndWrites
  refine ⟨decode_encode .voiceFill, fun s hpar hpos hn => ?_⟩
  rw [exec_voiceFill_inRange hn]
  obtain ⟨n, hcount⟩ := Nat.exists_eq_add_one.mpr hpos
  rw [hcount] at hn ⊢
  refine ⟨_, fillByHand_eq_loop n s.args.arg0.toNat (s := { s with pending := [] }) hpar hn, ?_⟩
  have hpending : (voiceFillLoop (n + 1) s.args.arg0.toNat s).pending = s.pending := by rw [voiceFillLoop_frame]
  rw [voiceFillLoop_outside (n + 1) s.args.arg0.toNat s [] s.response, ← hpending]
  rfl

end Sys2Proof.Machine
end

section
/-! Proofs for the system commands (`44_system.md` R190 to R192): each is accepted in every state, and the named operation
it runs says what it changes. -/

namespace Sys2Proof.Machine

/-! ## The operation each command runs -/

theorem exec_nop (s : State) : exec .nop s = .next s.accept := rfl

theorem exec_reset (s : State) : exec .reset s = .next s.softReset.accept := rfl

theorem exec_clrErr (s : State) : exec .clrErr s = .next (s.setError ⟨false, .none⟩).accept := rfl

/-- `softReset` as an update of the state it resets: the parameters, the RAM arrays and the host's own fields stay. -/
theorem softReset_eq (s : State) :
    s.softReset =
      { s with
        args := ⟨0, 0⟩
        results := ⟨0, 0, 0⟩
        staging := Staging.reset
        active := Active.reset
        env := Env.reset
        grain := Grain.reset s.par.cap
        noteAmp := 0
        error := ⟨false, .none⟩ } := rfl

/-! ## The three commands -/

/-- Settles O13: `RESET` is an accepted `softReset` (`exec_reset`), whose whole update is `softReset_eq`. -/
theorem resetCommandState : Obligations.ResetCommandState := by
  unfold Obligations.ResetCommandState
  refine ⟨decode_encode .reset, fun s => ?_⟩
  rw [exec_reset, softReset_eq]
  rfl

/-- Settles O16: `NOP` is an acceptance and no more (`exec_nop`). -/
theorem nopChangesNothing : Obligations.NopChangesNothing := by
  unfold Obligations.NopChangesNothing
  exact ⟨decode_encode .nop, exec_nop⟩

/-- Settles O17: `CLR_ERR` is an accepted `setError` (`exec_clrErr`), which writes the error register alone. -/
theorem clrErrClearsTheErrorRegisters : Obligations.ClrErrClearsTheErrorRegisters := by
  unfold Obligations.ClrErrClearsTheErrorRegisters
  exact ⟨decode_encode .clrErr, exec_clrErr⟩

end Sys2Proof.Machine
end

section
/-! Proofs for the rejections (`60_exceptions.md` R202, R203, R213): every command ends in an acceptance or a
rejection with one of its own codes, and an access without a command in one with a code of the bus. -/

namespace Sys2Proof.Machine

/-! ## The two ends of a command -/

/-- How a command that finds the state `s` ends: accepted, with the error registers at `e`, or rejected with one of
`codes` and with `s` as it was (`60_exceptions.md` R202). -/
inductive Ends (codes : List ErrCode) (e : ErrorReg) (s : State) : Host.Outcome State Fault Refusal → Prop
  | accepted {t : State} (h : t.error = e) : Ends codes e s (.next t.accept)
  | rejected {c : ErrCode} (h : c ∈ codes) : Ends codes e s (.next (s.reject c))

/-- The codes `validate` reports (`40_config_tables.md` R113). -/
def validateCodes : List ErrCode :=
  [.eRes, .eDuration, .eMaxamp, .eSustain, .eShape]

/-- The codes a command's procedure tests for, in every state (`60_exceptions.md` R213). -/
def rejectionCodes : Instr → List ErrCode
  | .setParams => validateCodes ++ [.eStep]
  | .setAttack | .setDecay | .setSustain | .setRelease => .eNocfg :: (validateCodes ++ [.eStep])
  | .setSampleRate => [.eSr, .eStep]
  | .loadSource => [.eSrclen]
  | .setFreq => [.eFreq]
  | .noteOn => [.eNocfg]
  | .envApply | .voiceFill => [.eRange]
  | .nop | .reset | .clrErr | .noteOff | .envTick | .grTick | .voiceTick => []

/-- The error registers after a command is accepted: the two commands that R202 excepts clear them. -/
def errorIfAccepted (i : Instr) (e : ErrorReg) : ErrorReg :=
  if i = .reset ∨ i = .clrErr then ⟨false, .none⟩ else e

theorem errorIfAccepted_eq {i : Instr} (hreset : i ≠ .reset) (hclr : i ≠ .clrErr) (e : ErrorReg) :
    errorIfAccepted i e = e :=
  if_neg (not_or.mpr ⟨hreset, hclr⟩)

theorem Ends.mono {codes codes' : List ErrCode} {e : ErrorReg} {s : State} {o : Host.Outcome State Fault Refusal}
    (h : Ends codes e s o) (hsub : codes ⊆ codes') : Ends codes' e s o := by
  cases h with
  | accepted he => exact .accepted he
  | rejected hc => exact .rejected (hsub hc)

theorem none_notMem_rejectionCodes (i : Instr) : ErrCode.none ∉ rejectionCodes i := by
  cases i <;> decide

/-! ## Configuration commands -/

theorem mem_validateCodes {p : ParamSet} {c : ErrCode} (h : validate p = some c) : c ∈ validateCodes := by
  rcases validate_cases p with ⟨-, e⟩ | ⟨-, -, e⟩ | ⟨-, -, -, e⟩ | ⟨-, -, -, -, e⟩ | ⟨-, -, -, -, -, e⟩ |
    ⟨-, -, -, -, -, e⟩ <;> cases e.symm.trans h <;> decide

theorem commitParams_ends (p : ParamSet) (s : State) :
    Ends (validateCodes ++ [.eStep]) s.error s (commitParams p s) := by
  rcases commitParams_cases p s with ⟨c, hv, e⟩ | ⟨-, -, -, e⟩ | ⟨-, -, steps, -, e⟩ | ⟨-, -, e⟩ <;> rw [e]
  · exact .rejected (List.mem_append_left _ (mem_validateCodes hv))
  · exact .rejected (List.mem_append_right _ List.mem_cons_self)
  · exact .accepted rfl
  · exact .accepted rfl

theorem commitCandidate_ends (p : ParamSet) (s : State) :
    Ends (.eNocfg :: (validateCodes ++ [.eStep])) s.error s (commitCandidate p s) := by
  rcases commitCandidate_cases p s with ⟨-, e⟩ | ⟨-, e⟩ <;> rw [e]
  · exact .rejected List.mem_cons_self
  · exact (commitParams_ends p s).mono (List.subset_cons_self _ _)

theorem execSetSampleRate_ends (s : State) : Ends [.eSr, .eStep] s.error s (execSetSampleRate s) := by
  rcases execSetSampleRate_cases s with ⟨-, e⟩ | ⟨-, -, -, e⟩ | ⟨-, -, steps, -, e⟩ | ⟨-, -, e⟩ <;> rw [e]
  · exact .rejected (by decide)
  · exact .rejected (by decide)
  · exact .accepted rfl
  · exact .accepted rfl

/-! ## Every command -/

theorem execNoteOn_ends (s : State) : Ends [.eNocfg] s.error s (execNoteOn s) := by
  rcases execNoteOn_cases s with ⟨-, e⟩ | ⟨-, e⟩ <;> rw [e]
  · exact .accepted rfl
  · exact .rejected List.mem_cons_self

theorem execLoadSource_ends (s : State) : Ends [.eSrclen] s.error s (execLoadSource s) := by
  rcases execLoadSource_cases s with ⟨-, e⟩ | ⟨-, e⟩ <;> rw [e]
  · exact .rejected List.mem_cons_self
  · exact .accepted rfl

theorem execSetFreq_ends (s : State) : Ends [.eFreq] s.error s (execSetFreq s) := by
  rcases execSetFreq_cases s with ⟨-, e⟩ | ⟨-, e⟩ <;> rw [e]
  · exact .accepted rfl
  · exact .rejected List.mem_cons_self

theorem execEnvApply_ends (s : State) : Ends [.eRange] s.error s (execEnvApply s) := by
  rcases execEnvApply_cases s with ⟨-, e⟩ | ⟨-, e⟩ <;> rw [e]
  · exact .rejected List.mem_cons_self
  · exact .accepted (by rw [envApplyLoop_frame])

theorem execVoiceFill_ends (s : State) : Ends [.eRange] s.error s (execVoiceFill s) := by
  rcases execVoiceFill_cases s with ⟨-, e⟩ | ⟨-, e⟩ <;> rw [e]
  · exact .rejected List.mem_cons_self
  · exact .accepted (by rw [voiceFillLoop_frame])

theorem execVoiceTick_ends (s : State) : Ends [] s.error s (execVoiceTick s) :=
  .accepted (by rw [voiceTick_frame])

/-- Every command in every state ends in one of the two ways. -/
theorem exec_ends (i : Instr) (s : State) : Ends (rejectionCodes i) (errorIfAccepted i s.error) s (exec i s) := by
  cases i with
  | nop => exact .accepted rfl
  | reset => exact .accepted rfl
  | clrErr => exact .accepted rfl
  | setParams => exact commitParams_ends _ s
  | setAttack => exact commitCandidate_ends _ s
  | setDecay => exact commitCandidate_ends _ s
  | setSustain => exact commitCandidate_ends _ s
  | setRelease => exact commitCandidate_ends _ s
  | setSampleRate => exact execSetSampleRate_ends s
  | loadSource => exact execLoadSource_ends s
  | setFreq => exact execSetFreq_ends s
  | noteOn => exact execNoteOn_ends s
  | noteOff => exact .accepted rfl
  | envTick => exact .accepted rfl
  | grTick => exact .accepted rfl
  | voiceTick => exact execVoiceTick_ends s
  | envApply => exact execEnvApply_ends s
  | voiceFill => exact execVoiceFill_ends s

/-- Settles O50: the list of the statement is `rejectionCodes` (`exec_ends`). -/
theorem rejectionCodesOfEachCommand : Obligations.RejectionCodesOfEachCommand := by
  unfold Obligations.RejectionCodesOfEachCommand
  intro s i
  generalize hexec : exec i s = o
  cases hexec ▸ exec_ends i s with
  | accepted => exact ⟨_, rfl, .inl rfl⟩
  | rejected hc =>
    refine ⟨_, rfl, .inr ⟨rfl, rfl, ?_⟩⟩
    cases i <;> exact hc

/-! ## Every transaction -/

/-- An `ERROR` response that `t` shows comes of a rejection in `s`, with a code other than 0 (R203). -/
def ErrorIsRejection (s t : State) : Prop :=
  ∀ d, t.response = some ⟨false, d⟩ → ∃ c, c ≠ .none ∧ t = s.reject c

/-- With an `OKAY` response, `t` has the error registers `e`. -/
def OkayLeavesError (e : ErrorReg) (t : State) : Prop :=
  ∀ d, t.response = some ⟨true, d⟩ → t.error = e

theorem ErrorIsRejection.reject {c : ErrCode} (hc : c ≠ .none) (s : State) : ErrorIsRejection s (s.reject c) :=
  fun _ _ => ⟨c, hc, rfl⟩

theorem OkayLeavesError.reject (e : ErrorReg) (s : State) (c : ErrCode) : OkayLeavesError e (s.reject c) :=
  nofun

theorem Ends.errorIsRejection {codes : List ErrCode} {e : ErrorReg} {s t : State} (h : Ends codes e s (.next t))
    (hcodes : .none ∉ codes) : ErrorIsRejection s t := by
  cases h with
  | accepted => exact nofun
  | rejected hc => exact .reject (ne_of_mem_of_not_mem hc hcodes) s

theorem Ends.okayLeavesError {codes : List ErrCode} {e : ErrorReg} {s t : State} (h : Ends codes e s (.next t)) :
    OkayLeavesError e t := by
  cases h with
  | accepted he => exact fun _ _ => he
  | rejected => exact .reject e s _

/-- An access without a command is answered by a rejection, or by an acceptance that leaves the error registers alone;
the hardware reset, which is no transaction, shows no response (`70_reset_and_hazards.md` R230). -/
theorem plainInput_answer (x : HostInput) (s : State) :
    ErrorIsRejection s (plainInput x s) ∧ OkayLeavesError s.error (plainInput x s) := by
  rcases plainInput_cases x s with ⟨-, e⟩ | ⟨c, e, hc⟩ | ⟨v, e⟩ | ⟨r, v, -, -, e⟩ | ⟨v, -, e⟩ | ⟨r, i, v, -, -, e⟩ <;>
    rw [e]
  · exact ⟨nofun, nofun⟩
  · refine ⟨.reject ?_ s, .reject _ s c⟩
    rcases hc with rfl | rfl <;> decide
  all_goals exact ⟨nofun, fun _ _ => rfl⟩

section Transactions
variable {s t : State} {x : HostInput} {rest : List HostInput}

theorem step_errorIsRejection (hpend : s.pending = x :: rest) (hstep : step s = .next t) :
    ErrorIsRejection (s.setPending rest) t := by
  rcases step_cases s with ⟨hnil, -⟩ | ⟨w, rest', i, hp, -, e⟩ | ⟨w, rest', d, hp, -, e⟩ | ⟨y, rest', hp, -, e⟩
  · exact nomatch hpend.symm.trans hnil
  all_goals cases hpend.symm.trans hp
  · have hend := exec_ends i (s.setPending rest)
    rw [← e, hstep] at hend
    exact hend.errorIsRejection (none_notMem_rejectionCodes i)
  · cases e.symm.trans hstep
    exact .reject (by decide) _
  · cases e.symm.trans hstep
    exact (plainInput_answer x _).1

theorem step_okayLeavesError (hpend : s.pending = x :: rest) (hstep : step s = .next t)
    (hclr : x ≠ .write 0x000000#24 (encode .clrErr)) (hreset : x ≠ .write 0x000000#24 (encode .reset)) :
    OkayLeavesError s.error t := by
  rcases step_cases s with ⟨hnil, -⟩ | ⟨w, rest', i, hp, hd, e⟩ | ⟨w, rest', d, hp, -, e⟩ | ⟨y, rest', hp, -, e⟩
  · exact nomatch hpend.symm.trans hnil
  all_goals cases hpend.symm.trans hp
  · cases decode_eq_ok_iff.mp hd
    have hend := exec_ends i (s.setPending rest)
    rw [← e, hstep, errorIfAccepted_eq (by rintro rfl; exact hreset rfl) (by rintro rfl; exact hclr rfl)] at hend
    exact hend.okayLeavesError
  · cases e.symm.trans hstep
    exact .reject _ _ _
  · cases e.symm.trans hstep
    exact (plainInput_answer x _).2

end Transactions

/-- Settles O48: an `ERROR` response comes of a rejection (`step_errorIsRejection`), whose whole update is `reject`. -/
theorem rejectionsArePrecise : Obligations.RejectionsArePrecise := by
  unfold Obligations.RejectionsArePrecise
  intro s t x rest d hpend hstep hresp
  obtain ⟨c, hc, rfl⟩ := step_errorIsRejection hpend hstep d hresp
  cases hresp
  exact ⟨rfl, rfl, hc, rfl⟩

/-- Settles O49: the two words of the statement are those of `RESET` and `CLR_ERR`. -/
theorem acceptedTransactionsKeepTheError : Obligations.AcceptedTransactionsKeepTheError := by
  unfold Obligations.AcceptedTransactionsKeepTheError
  exact fun _ _ _ _ d hpend hstep hresp h1 h2 => step_okayLeavesError hpend hstep h2 h1 d hresp

/-! ## The field setters from a sound state -/

/-- A valid set passes every check of R113. -/
theorem checks_of_validate_none {p : ParamSet} (h : validate p = none) :
    ResolutionOk p ∧ DurationsOk p ∧ MaxampOk p ∧ SustainOk p ∧ ShapeOk p := by
  obtain ⟨hnone, -⟩ := validateReportsFirstFailure p
  exact hnone.mp h

section FieldSetters
variable {s t : State} {p : ParamSet} {c : ErrCode}

/-- In a set that passes the other checks, only the durations can fail. -/
theorem eq_eDuration_of_validate (h : validate p = some c) (hres : ResolutionOk p) (hmax : MaxampOk p)
    (hsus : SustainOk p) (hshape : ShapeOk p) : c = .eDuration := by
  rcases validate_cases p with ⟨hno, -⟩ | ⟨-, -, e⟩ | ⟨-, -, hno, -⟩ | ⟨-, -, -, hno, -⟩ | ⟨-, -, -, -, hno, -⟩ |
    ⟨-, -, -, -, -, e⟩
  · exact absurd hres hno
  · cases e.symm.trans h
    rfl
  · exact absurd hmax hno
  · exact absurd hsus hno
  · exact absurd hshape hno
  · exact nomatch e.symm.trans h

/-- In a set that passes the other checks, only the sustain level can fail. -/
theorem eq_eSustain_of_validate (h : validate p = some c) (hres : ResolutionOk p) (hdur : DurationsOk p)
    (hmax : MaxampOk p) (hshape : ShapeOk p) : c = .eSustain := by
  rcases validate_cases p with ⟨hno, -⟩ | ⟨-, hno, -⟩ | ⟨-, -, hno, -⟩ | ⟨-, -, -, -, e⟩ | ⟨-, -, -, -, hno, -⟩ |
    ⟨-, -, -, -, -, e⟩
  · exact absurd hres hno
  · exact absurd hdur hno
  · exact absurd hmax hno
  · cases e.symm.trans h
    rfl
  · exact absurd hshape hno
  · exact nomatch e.symm.trans h

/-- Why a single-field setter was rejected: no active set, an invalid candidate, or a step rate out of range. -/
theorem commitCandidate_rejection (h : commitCandidate p s = .next t) (hr : t.response = some ⟨false, 0⟩) :
    t.error.code = .eNocfg ∨
    (s.active.paramsValid = true ∧ validate p = some t.error.code) ∨
    (s.active.paramsValid = true ∧ s.active.srValid = true ∧ stepRates s.active.sr p = none ∧
      t.error.code = .eStep) := by
  rcases commitCandidate_cases p s with ⟨-, e⟩ | ⟨hp, e⟩
  · cases e.symm.trans h
    exact .inl rfl
  · have hcommit := e.symm.trans h
    rcases commitParams_cases p s with ⟨c, hv, e'⟩ | ⟨-, hs, hrates, e'⟩ | ⟨-, -, steps, -, e'⟩ | ⟨-, -, e'⟩ <;>
      cases e'.symm.trans hcommit
    · exact .inr (.inl ⟨hp, hv⟩)
    · exact .inr (.inr ⟨hp, hs, hrates, rfl⟩)
    · exact nomatch hr
    · exact nomatch hr

/-- A candidate that replaces durations of a valid set fails by a duration or by its step rates. -/
theorem durationSetter_codes (hs : ConfigInv s.active) {a d r : Word}
    (h : commitCandidate { s.active.params with attack := a, decay := d, release := r } s = .next t)
    (hr : t.response = some ⟨false, 0⟩) :
    t.error.code = .eNocfg ∨ t.error.code = .eDuration ∨ t.error.code = .eStep := by
  rcases commitCandidate_rejection h hr with hno | ⟨hp, hv⟩ | ⟨-, -, -, hstep⟩
  · exact .inl hno
  · obtain ⟨hres, -, hmax, hsus, hshape⟩ := checks_of_validate_none (hs.params_valid hp)
    exact .inr (.inl (eq_eDuration_of_validate hv hres hmax hsus hshape))
  · exact .inr (.inr hstep)

/-- A candidate that replaces the sustain level of a valid set fails by that level alone: the step rates, of which it is
no operand, are those in force. -/
theorem sustainSetter_codes (hs : ConfigInv s.active) {x : Word}
    (h : commitCandidate { s.active.params with sustain := x } s = .next t) (hr : t.response = some ⟨false, 0⟩) :
    t.error.code = .eNocfg ∨ t.error.code = .eSustain := by
  rcases commitCandidate_rejection h hr with hno | ⟨hp, hv⟩ | ⟨hp, hsr, hrates, -⟩
  · exact .inl hno
  · obtain ⟨hres, hdur, hmax, -, hshape⟩ := checks_of_validate_none (hs.params_valid hp)
    exact .inr (eq_eSustain_of_validate hv hres hdur hmax hshape)
  · have hcfg : s.active.cfgValid = true := by rw [hs.cfgValid_eq, hp, hsr]; rfl
    have hinForce : stepRates s.active.sr { s.active.params with sustain := x } = some s.active.steps :=
      hs.steps_eq hcfg
    exact nomatch hrates.symm.trans hinForce

end FieldSetters

/-- Settles O51: the three duration setters by `durationSetter_codes`, `SET_SUSTAIN` by `sustainSetter_codes`. -/
theorem fieldSettersRaiseOnlyTheirCodes : Obligations.FieldSettersRaiseOnlyTheirCodes := by
  unfold Obligations.FieldSettersRaiseOnlyTheirCodes
  intro s t i hsound hexec hresp
  constructor
  · rintro (rfl | rfl | rfl)
    · exact durationSetter_codes hsound.config hexec hresp
    · exact durationSetter_codes hsound.config hexec hresp
    · exact durationSetter_codes hsound.config hexec hresp
  · rintro rfl
    exact sustainSetter_codes hsound.config hexec hresp

end Sys2Proof.Machine
end

section
/-! Proofs for reset and hazards (`70_reset_and_hazards.md` R230, R231, R234): the hardware reset input, and the order
in which the parameter set and the sample rate are configured. -/

namespace Sys2Proof.Machine

/-! ## The hardware reset input -/

/-- Settles O12: the input carries no command (`step_plain`), so the step is `State.hardReset`. -/
theorem hardwareResetState : Obligations.HardwareResetState := by
  unfold Obligations.HardwareResetState
  intro s rest hpend
  calc step s = .next (s.setPending rest).hardReset := step_plain hpend (fun _ => nofun)
    _ = _ := rfl

/-! ## The order of configuration -/

theorem execAll_pair {i j : Instr} {s t u : State} (hi : exec i s = .next t) (hj : exec j t = .next u) :
    execAll [i, j] s = .next u := by
  simp only [execAll, hi, hj]

/-- A full configuration replaces all that a stored parameter set left. -/
theorem storeConfig_storeParams (p q : ParamSet) (sr : DWord) (steps : PerSeg Nat) (s : State) :
    (storeConfig p sr steps (storeParams q s).accept).accept = (storeConfig p sr steps s).accept := rfl

/-- A full configuration replaces all that a stored sample rate left. -/
theorem storeConfig_storeSampleRate (p : ParamSet) (sr sr' : DWord) (steps : PerSeg Nat) (s : State) :
    (storeConfig p sr steps (storeSampleRate sr' s).accept).accept = (storeConfig p sr steps s).accept := rfl

section Order
variable {s : State} {steps : PerSeg Nat}

theorem execAll_setParams_setSampleRate (hsr : s.active.srValid = false) (hv : validate (stagedParams s) = none)
    (hok : sampleRateOk (stagedSampleRate s) = true)
    (hr : stepRates (stagedSampleRate s) (stagedParams s) = some steps) :
    execAll [.setParams, .setSampleRate] s =
      .next (storeConfig (stagedParams s) (stagedSampleRate s) steps s).accept := by
  have hparams : exec .setParams s = .next (storeParams (stagedParams s) s).accept := commitParams_stored hv hsr
  have hrate : exec .setSampleRate (storeParams (stagedParams s) s).accept = .next
      (storeConfig (stagedParams s) (stagedSampleRate s) steps (storeParams (stagedParams s) s).accept).accept :=
    execSetSampleRate_installed hok rfl hr
  rw [storeConfig_storeParams] at hrate
  exact execAll_pair hparams hrate

theorem execAll_setSampleRate_setParams (hp : s.active.paramsValid = false) (hv : validate (stagedParams s) = none)
    (hok : sampleRateOk (stagedSampleRate s) = true)
    (hr : stepRates (stagedSampleRate s) (stagedParams s) = some steps) :
    execAll [.setSampleRate, .setParams] s =
      .next (storeConfig (stagedParams s) (stagedSampleRate s) steps s).accept := by
  have hrate : exec .setSampleRate s = .next (storeSampleRate (stagedSampleRate s) s).accept :=
    execSetSampleRate_stored hok hp
  have hparams : exec .setParams (storeSampleRate (stagedSampleRate s) s).accept = .next
      (storeConfig (stagedParams s) (stagedSampleRate s) steps
        (storeSampleRate (stagedSampleRate s) s).accept).accept :=
    commitParams_installed hv rfl hr
  rw [storeConfig_storeSampleRate] at hparams
  exact execAll_pair hrate hparams

end Order

/-- Settles O26: either first command stores its half, and the second installs the same configuration over it. -/
theorem configurationOrderIrrelevant : Obligations.ConfigurationOrderIrrelevant := by
  unfold Obligations.ConfigurationOrderIrrelevant
  intro s steps hp hsr hv hfin hpos hr
  have hok : sampleRateOk (stagedSampleRate s) = true := sampleRateOk_eq_true_iff.mpr ⟨hfin, hpos⟩
  exact ⟨_, execAll_setParams_setSampleRate hsr hv hok hr, execAll_setSampleRate_setParams hp hv hok hr, rfl⟩

end Sys2Proof.Machine
end
